-- ==== Sys2Proof/Word.lean ====
section
/-! DEFINITION. The word types of the engine: bytes, checksum words, IPv4 addresses, link-layer
addresses (spec/00_scope.md R11 to R13, spec/42_checksum.md R151). Every quantity is unsigned. -/

namespace Sys2Proof

/-- One byte of a frame (R11). -/
abbrev Byte := BitVec 8

/-- A 16-bit field or checksum word (R140, R151). -/
abbrev Half := BitVec 16

/-- An IPv4 address or mask: the first wire byte is the most significant (R13). -/
abbrev Ip := BitVec 32

/-- A link-layer address: the first wire byte is the most significant (R13). -/
abbrev Mac := BitVec 48

end Sys2Proof
end

