-- ==== Sys2Proof/Syntax.lean ====
section
/-! DEFINITION. The operations of spec/opcode_table.json, one constructor per row
(spec/30_encoding.md R96 to R100), with the operands each rule gives them. -/

namespace Sys2Proof

/-- The frame registers an operation can name (10_state.md R22 to R24). -/
inductive FrameReg where
  | F
  | P
  | G
  deriving DecidableEq, Repr

/-- A Route record (10_state.md R30, 30_encoding.md R91). `pfx` is the spec's `prefix`. -/
structure Route where
  pfx : Ip
  mask : Ip
  nextHop : Ip
  iface : Nat
  deriving DecidableEq, Repr

/-- The fields of an ARP frame other than EtherType and `arp.op`, which the class fixes or carries
(30_encoding.md R82, R84); `pad` is what follows byte 41. -/
structure ArpFrame where
  dst : Mac
  src : Mac
  htype : Half
  ptype : Half
  hlen : Byte
  plen : Byte
  sha : Mac
  spa : Ip
  tha : Mac
  tpa : Ip
  pad : List Byte
  deriving DecidableEq, Repr

/-- The fields of an IPv4 frame other than EtherType (30_encoding.md R82, R86, R88); the header is
bytes 14..33 whatever `ihl` says (R87), the eight bytes 34..41 are read as an ICMP header, and
`tail` is what follows byte 41. -/
structure Ipv4Frame where
  dst : Mac
  src : Mac
  ver : BitVec 4
  ihl : BitVec 4
  tos : Byte
  totalLen : Half
  ident : Half
  frag : Half
  ttl : Byte
  proto : Byte
  csum : Half
  ipSrc : Ip
  ipDst : Ip
  icmpType : Byte
  icmpCode : Byte
  icmpCsum : Half
  icmpRest : BitVec 32
  tail : List Byte
  deriving DecidableEq, Repr

/-- The fields of a frame of any other EtherType (30_encoding.md R82, R101). -/
structure EthFrame where
  dst : Mac
  src : Mac
  etype : Half
  payload : List Byte
  deriving DecidableEq, Repr

/-- One constructor per row of spec/opcode_table.json. -/
inductive Instr where
  | arpRequest (h : ArpFrame)
  | arpReply (h : ArpFrame)
  | arpRsvd (op : Half) (h : ArpFrame)
  | ipv4EchoReq (h : Ipv4Frame)
  | ipv4 (h : Ipv4Frame)
  | ethRsvd (h : EthFrame)
  | icmpEchoReply
  | icmpDestUnreach (x : FrameReg)
  | icmpTimeExceeded
  | lpmBuild (entries : List Route)
  | lpmLookup (d : Ip)
  | csum (bs : List Byte)
  | csumVerify (bs : List Byte)
  | csumIncr (oldSum oldField newField : Half)
  | icmpSynth (x : FrameReg) (t : Byte)
  | arpcLookup (a : Ip)
  | arpcInsert (a : Ip) (m : Mac)
  | pqEnq (x : FrameReg)
  | pqDeq
  | pqSize
  | pqDrain (n : Ip)
  | arpReqEmit (nh : Ip) (i : Nat)
  | l2Filter
  | frameStep
  | rx
  | tx (x : FrameReg)
  | ifMac (i : Nat)
  | ifIp (i : Nat)
  | hostLoadRoutes (entries : Option (List Route))
  | hostStart
  | hostReset
  deriving DecidableEq, Repr

/-- Where an instruction word comes from: a frame at the receive port (R96), or an operation word at
the operation port (R99; the port is the model's own, log 4). -/
inductive Port where
  | rx
  | op
  deriving DecidableEq, Repr

/-- The port an instruction's word comes by. -/
def Instr.port : Instr → Port
  | .arpRequest _ | .arpReply _ | .arpRsvd _ _ | .ipv4EchoReq _ | .ipv4 _ | .ethRsvd _ => .rx
  | .icmpEchoReply | .icmpDestUnreach _ | .icmpTimeExceeded | .lpmBuild _ | .lpmLookup _ | .csum _
  | .csumVerify _ | .csumIncr _ _ _ | .icmpSynth _ _ | .arpcLookup _ | .arpcInsert _ _ | .pqEnq _
  | .pqDeq | .pqSize | .pqDrain _ | .arpReqEmit _ _ | .l2Filter | .frameStep | .rx | .tx _ | .ifMac _
  | .ifIp _ | .hostLoadRoutes _ | .hostStart | .hostReset => .op

/-- Why bytes are no instruction. -/
inductive DecodeError where
  /-- An ARP or IPv4 frame shorter than 42 bytes, or any frame shorter than 14 (R104, R225, R226). -/
  | runtFrame
  /-- An operation word of no bytes. -/
  | emptyWord
  /-- An operation code that R99 and R98 do not list (93_implementation_defined.md I21). -/
  | reservedOp (code : Byte)
  /-- An operation word that ends inside an operand. -/
  | truncatedOperand
  /-- An operation word with bytes after its operands. -/
  | trailingBytes
  /-- A frame-register selector that names no register the operation may take. -/
  | badFrameReg (sel : Byte)
  /-- A loader result other than 0 (entries) or 1 (error). -/
  | badLoaderTag (tag : Byte)
  deriving DecidableEq, Repr

end Sys2Proof
end

