-- ==== Sys2Proof/WellFormed.lean ====
section
/-! DEFINITION. Which instructions have a word. A frame class has exactly the frames R96 gives it
(spec/30_encoding.md R96, R101, R102); an operation word must hold its operands in the fields of the
model's operand layout (log 4, log 21). -/

namespace Sys2Proof

/-- Echo requests are the IPv4 frames with protocol 1 and ICMP type 8 (R96 row 4). -/
def Ipv4Frame.isEcho (h : Ipv4Frame) : Bool := h.proto == 1 && h.icmpType == 8

/-- Operation codes other than 1 and 2 (R96 row 3, R102). -/
def arpOpReserved (op : Half) : Bool := op != 1 && op != 2

/-- EtherTypes other than ARP and IPv4 (R96 row 6, R101). -/
def etherReserved (t : Half) : Bool := t != 0x0806 && t != 0x0800

/-- A number that fits the 32-bit operand field the model's layout gives it (log 4, log 21). -/
def fits32 (n : Nat) : Bool := decide (n < 2 ^ 32)

/-- A Route whose interface identifier fits its operand field. -/
def Route.encodable (r : Route) : Bool := fits32 r.iface

/-- A table whose length and routes fit their operand fields. -/
def tableEncodable (entries : List Route) : Bool :=
  fits32 entries.length && entries.all Route.encodable

/-- `ICMP.SYNTH` takes `F`, or `P` during a drain (43_icmp_synth.md R160). -/
def synthReg (x : FrameReg) : Bool := x != .G

/-- The instructions that have a word. -/
def Instr.wellFormed : Instr → Bool
  | .arpRequest _ => true
  | .arpReply _ => true
  | .arpRsvd op _ => arpOpReserved op
  | .ipv4EchoReq h => h.isEcho
  | .ipv4 h => !h.isEcho
  | .ethRsvd h => etherReserved h.etype
  | .icmpEchoReply => true
  | .icmpDestUnreach x => synthReg x
  | .icmpTimeExceeded => true
  | .lpmBuild entries => tableEncodable entries
  | .lpmLookup _ => true
  | .csum bs => fits32 bs.length
  | .csumVerify bs => fits32 bs.length
  | .csumIncr _ _ _ => true
  | .icmpSynth x _ => synthReg x
  | .arpcLookup _ => true
  | .arpcInsert _ _ => true
  | .pqEnq _ => true
  | .pqDeq => true
  | .pqSize => true
  | .pqDrain _ => true
  | .arpReqEmit _ i => fits32 i
  | .l2Filter => true
  | .frameStep => true
  | .rx => true
  | .tx _ => true
  | .ifMac i => fits32 i
  | .ifIp i => fits32 i
  | .hostLoadRoutes none => true
  | .hostLoadRoutes (some entries) => tableEncodable entries
  | .hostStart => true
  | .hostReset => true

end Sys2Proof
end

