-- ==== Sys2Proof/Decode.lean ====
section
/-! DEFINITION. From bytes to instructions and back. A frame is classified and taken apart by the
offsets of spec/30_encoding.md R82 to R88 in the order of R96. An operation word is the operation
code of R99 (or, for the three synthesizer forms, the operand value of R98) followed by operands in
the model's own byte layout (log 4). Decoding is total and rejects by name; the encoder follows it. -/

namespace Sys2Proof

/-! ### Byte order (R12, R56) -/

/-- The number a byte sequence writes, first byte most significant (R12). -/
def beNat (bs : List Byte) : Nat := bs.foldl (fun acc b => acc * 256 + b.toNat) 0

/-- The `n` low bytes of `v`, most significant first (R12). -/
def beBytes : Nat → Nat → List Byte
  | 0, _ => []
  | n + 1, v => BitVec.ofNat 8 (v / 256 ^ n) :: beBytes n v

/-- The `n`-byte field at offset `off` of a byte sequence (R12, R94). -/
def field (b : List Byte) (off n : Nat) : Nat := beNat ((b.drop off).take n)

/-- The byte at offset `off`. -/
def byteAt (b : List Byte) (off : Nat) : Byte := b.getD off 0

/-! ### Constants -/

/-- EtherType of ARP (R83). -/
def etherArp : Half := 0x0806

/-- EtherType of IPv4 (R83). -/
def etherIpv4 : Half := 0x0800

/-- Bytes of the Ethernet header (R90). -/
def ethHeaderLen : Nat := 14

/-- Bytes of every header the engine reads: 14 + 28 = 14 + 20 + 8 (R90, R285). -/
def windowLen : Nat := 42

/-! ### Frames (R82 to R96) -/

/-- What decoding answers. -/
inductive Decoded where
  | ok (i : Instr)
  | bad (e : DecodeError)
  deriving DecidableEq, Repr

/-- The operations that receive a frame (R220, R261). -/
def Decoded.receives : Decoded → Bool
  | .ok i => decide (i = .rx ∨ i = .frameStep)
  | .bad _ => false

/-- The instruction read, if any. -/
def Decoded.toOption : Decoded → Option Instr
  | .ok i => some i
  | .bad _ => none

/-- The ARP fields of a frame (R82, R84). -/
def readArp (b : List Byte) : ArpFrame where
  dst := BitVec.ofNat 48 (field b 0 6)
  src := BitVec.ofNat 48 (field b 6 6)
  htype := BitVec.ofNat 16 (field b 14 2)
  ptype := BitVec.ofNat 16 (field b 16 2)
  hlen := byteAt b 18
  plen := byteAt b 19
  sha := BitVec.ofNat 48 (field b 22 6)
  spa := BitVec.ofNat 32 (field b 28 4)
  tha := BitVec.ofNat 48 (field b 32 6)
  tpa := BitVec.ofNat 32 (field b 38 4)
  pad := b.drop 42

/-- The IPv4 and ICMP fields of a frame (R82, R86, R88). -/
def readIpv4 (b : List Byte) : Ipv4Frame where
  dst := BitVec.ofNat 48 (field b 0 6)
  src := BitVec.ofNat 48 (field b 6 6)
  ver := (byteAt b 14).extractLsb' 4 4
  ihl := (byteAt b 14).extractLsb' 0 4
  tos := byteAt b 15
  totalLen := BitVec.ofNat 16 (field b 16 2)
  ident := BitVec.ofNat 16 (field b 18 2)
  frag := BitVec.ofNat 16 (field b 20 2)
  ttl := byteAt b 22
  proto := byteAt b 23
  csum := BitVec.ofNat 16 (field b 24 2)
  ipSrc := BitVec.ofNat 32 (field b 26 4)
  ipDst := BitVec.ofNat 32 (field b 30 4)
  icmpType := byteAt b 34
  icmpCode := byteAt b 35
  icmpCsum := BitVec.ofNat 16 (field b 36 2)
  icmpRest := BitVec.ofNat 32 (field b 38 4)
  tail := b.drop 42

/-- The fields of a frame of a reserved EtherType (R82). -/
def readEth (b : List Byte) : EthFrame where
  dst := BitVec.ofNat 48 (field b 0 6)
  src := BitVec.ofNat 48 (field b 6 6)
  etype := BitVec.ofNat 16 (field b 12 2)
  payload := b.drop 14

/-- The ARP operation dispatch (R96 rows 1 to 3, 44_arp.md R190). -/
def decodeArp (b : List Byte) : Instr :=
  let op : Half := BitVec.ofNat 16 (field b 20 2)
  if op = 1 then .arpRequest (readArp b)
  else if op = 2 then .arpReply (readArp b)
  else .arpRsvd op (readArp b)

/-- The two IPv4 classes (R96 rows 4 and 5). -/
def decodeIpv4 (b : List Byte) : Instr :=
  let h := readIpv4 b
  if h.isEcho then .ipv4EchoReq h else .ipv4 h

/-- The class decode of R96, after the length rules R221, R225 and R226. -/
def decodeFrame (b : List Byte) : Decoded :=
  if b.length < ethHeaderLen then .bad .runtFrame
  else
    let t : Half := BitVec.ofNat 16 (field b 12 2)
    if t = etherArp then
      if b.length < windowLen then .bad .runtFrame else .ok (decodeArp b)
    else if t = etherIpv4 then
      if b.length < windowLen then .bad .runtFrame else .ok (decodeIpv4 b)
    else .ok (.ethRsvd (readEth b))

/-! ### Operation words (R98, R99; operand layout: log 4) -/

/-- Take an `n`-byte operand and go on with the rest of the word. -/
def operand (n : Nat) (b : List Byte) (k : Nat → List Byte → Decoded) : Decoded :=
  if b.length < n then .bad .truncatedOperand else k (beNat (b.take n)) (b.drop n)

/-- The word must end here. -/
def endWord (i : Instr) (rest : List Byte) : Decoded :=
  if rest.isEmpty then .ok i else .bad .trailingBytes

/-- A frame register by its selector: 0 `F`, 1 `P`, 2 `G`. -/
def frameRegOf (sel : Byte) : Option FrameReg :=
  if sel = 0 then some .F else if sel = 1 then some .P else if sel = 2 then some .G else none

/-- Take a frame-register operand. -/
def regOperand (b : List Byte) (k : FrameReg → List Byte → Decoded) : Decoded :=
  operand 1 b fun n rest =>
    match frameRegOf (BitVec.ofNat 8 n) with
    | some x => k x rest
    | none => .bad (.badFrameReg (BitVec.ofNat 8 n))

/-- Take a frame-register operand of the synthesizer: `F` or `P` (R160). -/
def synthRegOperand (b : List Byte) (k : FrameReg → List Byte → Decoded) : Decoded :=
  regOperand b fun x rest => if synthReg x then k x rest else .bad (.badFrameReg 2)

/-- Take `n` routes of 16 bytes each. -/
def routesOperand : Nat → List Byte → (List Route → List Byte → Decoded) → Decoded
  | 0, b, k => k [] b
  | n + 1, b, k =>
    operand 4 b fun pfx b => operand 4 b fun mask b => operand 4 b fun nh b => operand 4 b fun i b =>
      routesOperand n b fun rs b =>
        k (⟨BitVec.ofNat 32 pfx, BitVec.ofNat 32 mask, BitVec.ofNat 32 nh, i⟩ :: rs) b

/-- Take a counted sequence of routes. -/
def tableOperand (b : List Byte) (k : List Route → List Byte → Decoded) : Decoded :=
  operand 4 b fun n b => routesOperand n b k

/-- Take a counted byte sequence. -/
def bytesOperand (b : List Byte) (k : List Byte → List Byte → Decoded) : Decoded :=
  operand 4 b fun n b => if b.length < n then .bad .truncatedOperand else k (b.take n) (b.drop n)

/-- The operation a word names (R98, R99). -/
def decodeOp : List Byte → Decoded
  | [] => .bad .emptyWord
  | c :: b =>
    match c.toNat with
    | 0x00 => endWord .icmpEchoReply b
    | 0x03 => synthRegOperand b fun x b => endWord (.icmpDestUnreach x) b
    | 0x0B => endWord .icmpTimeExceeded b
    | 0x01 => tableOperand b fun rs b => endWord (.lpmBuild rs) b
    | 0x02 => operand 4 b fun d b => endWord (.lpmLookup (BitVec.ofNat 32 d)) b
    | 0x10 => bytesOperand b fun bs b => endWord (.csum bs) b
    | 0x11 => bytesOperand b fun bs b => endWord (.csumVerify bs) b
    | 0x12 =>
      operand 2 b fun hc b => operand 2 b fun m b => operand 2 b fun m' b =>
        endWord (.csumIncr (BitVec.ofNat 16 hc) (BitVec.ofNat 16 m) (BitVec.ofNat 16 m')) b
    | 0x20 =>
      synthRegOperand b fun x b => operand 1 b fun t b => endWord (.icmpSynth x (BitVec.ofNat 8 t)) b
    | 0x30 => operand 4 b fun a b => endWord (.arpcLookup (BitVec.ofNat 32 a)) b
    | 0x31 =>
      operand 4 b fun a b => operand 6 b fun m b =>
        endWord (.arpcInsert (BitVec.ofNat 32 a) (BitVec.ofNat 48 m)) b
    | 0x38 => regOperand b fun x b => endWord (.pqEnq x) b
    | 0x39 => endWord .pqDeq b
    | 0x3A => endWord .pqSize b
    | 0x3B => operand 4 b fun n b => endWord (.pqDrain (BitVec.ofNat 32 n)) b
    | 0x3C =>
      operand 4 b fun nh b => operand 4 b fun i b => endWord (.arpReqEmit (BitVec.ofNat 32 nh) i) b
    | 0x40 => endWord .l2Filter b
    | 0x41 => endWord .frameStep b
    | 0x50 => endWord .rx b
    | 0x51 => regOperand b fun x b => endWord (.tx x) b
    | 0x52 => operand 4 b fun i b => endWord (.ifMac i) b
    | 0x53 => operand 4 b fun i b => endWord (.ifIp i) b
    | 0x60 =>
      operand 1 b fun tag b =>
        if tag = 0 then tableOperand b fun rs b => endWord (.hostLoadRoutes (some rs)) b
        else if tag = 1 then endWord (.hostLoadRoutes none) b
        else .bad (.badLoaderTag (BitVec.ofNat 8 tag))
    | 0x61 => endWord .hostStart b
    | 0x62 => endWord .hostReset b
    | _ => .bad (.reservedOp c)

/-- Decoding of the bytes a port delivers. -/
def decode : Port → List Byte → Decoded
  | .rx, b => decodeFrame b
  | .op, b => decodeOp b

/-! ### The encoder -/

/-- The bytes of an ARP frame with operation `op` (R82, R84). -/
def encodeArp (op : Half) (h : ArpFrame) : List Byte :=
  beBytes 6 h.dst.toNat ++ beBytes 6 h.src.toNat ++ beBytes 2 etherArp.toNat ++
  beBytes 2 h.htype.toNat ++ beBytes 2 h.ptype.toNat ++ [h.hlen, h.plen] ++ beBytes 2 op.toNat ++
  beBytes 6 h.sha.toNat ++ beBytes 4 h.spa.toNat ++ beBytes 6 h.tha.toNat ++ beBytes 4 h.tpa.toNat ++
  h.pad

/-- The bytes of an IPv4 frame (R82, R86, R88). -/
def encodeIpv4 (h : Ipv4Frame) : List Byte :=
  beBytes 6 h.dst.toNat ++ beBytes 6 h.src.toNat ++ beBytes 2 etherIpv4.toNat ++
  [h.ver ++ h.ihl, h.tos] ++ beBytes 2 h.totalLen.toNat ++ beBytes 2 h.ident.toNat ++
  beBytes 2 h.frag.toNat ++ [h.ttl, h.proto] ++ beBytes 2 h.csum.toNat ++
  beBytes 4 h.ipSrc.toNat ++ beBytes 4 h.ipDst.toNat ++ [h.icmpType, h.icmpCode] ++
  beBytes 2 h.icmpCsum.toNat ++ beBytes 4 h.icmpRest.toNat ++ h.tail

/-- The bytes of a frame of another EtherType (R82). -/
def encodeEth (h : EthFrame) : List Byte :=
  beBytes 6 h.dst.toNat ++ beBytes 6 h.src.toNat ++ beBytes 2 h.etype.toNat ++ h.payload

/-- The selector of a frame register. -/
def encodeReg : FrameReg → Byte
  | .F => 0
  | .P => 1
  | .G => 2

/-- The 16 operand bytes of a route. -/
def encodeRoute (r : Route) : List Byte :=
  beBytes 4 r.pfx.toNat ++ beBytes 4 r.mask.toNat ++ beBytes 4 r.nextHop.toNat ++ beBytes 4 r.iface

/-- A counted sequence of routes. -/
def encodeTable (rs : List Route) : List Byte := beBytes 4 rs.length ++ rs.flatMap encodeRoute

/-- A counted byte sequence. -/
def encodeBytes (bs : List Byte) : List Byte := beBytes 4 bs.length ++ bs

/-- The bytes of an instruction: the frame itself for a frame class, the operation word otherwise. -/
def encode : Instr → List Byte
  | .arpRequest h => encodeArp 1 h
  | .arpReply h => encodeArp 2 h
  | .arpRsvd op h => encodeArp op h
  | .ipv4EchoReq h => encodeIpv4 h
  | .ipv4 h => encodeIpv4 h
  | .ethRsvd h => encodeEth h
  | .icmpEchoReply => [0x00]
  | .icmpDestUnreach x => [0x03, encodeReg x]
  | .icmpTimeExceeded => [0x0B]
  | .lpmBuild rs => 0x01 :: encodeTable rs
  | .lpmLookup d => 0x02 :: beBytes 4 d.toNat
  | .csum bs => 0x10 :: encodeBytes bs
  | .csumVerify bs => 0x11 :: encodeBytes bs
  | .csumIncr hc m m' => 0x12 :: (beBytes 2 hc.toNat ++ beBytes 2 m.toNat ++ beBytes 2 m'.toNat)
  | .icmpSynth x t => [0x20, encodeReg x, t]
  | .arpcLookup a => 0x30 :: beBytes 4 a.toNat
  | .arpcInsert a m => 0x31 :: (beBytes 4 a.toNat ++ beBytes 6 m.toNat)
  | .pqEnq x => [0x38, encodeReg x]
  | .pqDeq => [0x39]
  | .pqSize => [0x3A]
  | .pqDrain n => 0x3B :: beBytes 4 n.toNat
  | .arpReqEmit nh i => 0x3C :: (beBytes 4 nh.toNat ++ beBytes 4 i)
  | .l2Filter => [0x40]
  | .frameStep => [0x41]
  | .rx => [0x50]
  | .tx x => [0x51, encodeReg x]
  | .ifMac i => 0x52 :: beBytes 4 i
  | .ifIp i => 0x53 :: beBytes 4 i
  | .hostLoadRoutes (some rs) => 0x60 :: 0x00 :: encodeTable rs
  | .hostLoadRoutes none => [0x60, 0x01]
  | .hostStart => [0x61]
  | .hostReset => [0x62]

/-! ### Words as spec/opcode_table.json numbers them -/

/-- How many zero operand bytes follow an operation code when its operand words are zeros. -/
def operandBytes (code : Byte) : Nat :=
  match code.toNat with
  | 0x01 | 0x02 | 0x10 | 0x11 | 0x30 | 0x3B | 0x52 | 0x53 => 4
  | 0x03 | 0x38 | 0x51 => 1
  | 0x12 => 6
  | 0x20 => 2
  | 0x31 => 10
  | 0x3C => 8
  | 0x60 => 5
  | _ => 0

/-- An operation word of the table with its operand words zero. -/
def opWord (w : Nat) : List Byte :=
  BitVec.ofNat 8 w :: List.replicate (operandBytes (BitVec.ofNat 8 w)) 0

/-- Is a word of `nbits` bits an operation word (8 bits in the table) or a frame window? -/
def isOpWidth (nbits : Nat) : Bool := decide (nbits ≤ 8)

/-- The bytes of a frame window: the table writes its 42 bytes as one number, "byte 0 leftmost", so
byte 0 is the most significant byte of the 336 bits (log 8). -/
def windowBytes (w : Nat) : List Byte := beBytes windowLen w

/-- The instruction the decoder reads from a word of the table. -/
def decodeTableWord (nbits w : Nat) : Option Instr :=
  if isOpWidth nbits then (decodeOp (opWord w)).toOption
  else (decodeFrame (windowBytes w)).toOption

/-! ### The frame rows of the table, as masks over the 42-byte window -/

/-- The class a frame row names. -/
inductive FrameClass where
  | arpRequest
  | arpReply
  | arpRsvd
  | ipv4EchoReq
  | ipv4
  | ethRsvd
  deriving DecidableEq, Repr

/-- A frame row of spec/opcode_table.json: `window &&& mask = pattern` selects `cls`. -/
structure FrameRow where
  mask : BitVec 336
  pattern : BitVec 336
  cls : FrameClass
  deriving DecidableEq, Repr

/-- The six frame rows in the table's order of priority (R96). -/
def frameRows : List FrameRow := [
  ⟨0x000000000000000000000000ffff000000000000ffff0000000000000000000000000000000000000000#336,
   0x000000000000000000000000080600000000000000010000000000000000000000000000000000000000#336,
   .arpRequest⟩,
  ⟨0x000000000000000000000000ffff000000000000ffff0000000000000000000000000000000000000000#336,
   0x000000000000000000000000080600000000000000020000000000000000000000000000000000000000#336,
   .arpReply⟩,
  ⟨0x000000000000000000000000ffff00000000000000000000000000000000000000000000000000000000#336,
   0x000000000000000000000000080600000000000000000000000000000000000000000000000000000000#336,
   .arpRsvd⟩,
  ⟨0x000000000000000000000000ffff000000000000000000ff00000000000000000000ff00000000000000#336,
   0x000000000000000000000000080000000000000000000001000000000000000000000800000000000000#336,
   .ipv4EchoReq⟩,
  ⟨0x000000000000000000000000ffff00000000000000000000000000000000000000000000000000000000#336,
   0x000000000000000000000000080000000000000000000000000000000000000000000000000000000000#336,
   .ipv4⟩,
  ⟨0x000000000000000000000000000000000000000000000000000000000000000000000000000000000000#336,
   0x000000000000000000000000000000000000000000000000000000000000000000000000000000000000#336,
   .ethRsvd⟩]

/-- The class of the first row that matches a window: the table read as R96 says. -/
def classByTable (w : BitVec 336) : Option FrameClass :=
  (frameRows.find? fun r => w &&& r.mask == r.pattern).map FrameRow.cls

/-- The frame class of an instruction; operations have none. -/
def Instr.frameClass : Instr → Option FrameClass
  | .arpRequest _ => some .arpRequest
  | .arpReply _ => some .arpReply
  | .arpRsvd _ _ => some .arpRsvd
  | .ipv4EchoReq _ => some .ipv4EchoReq
  | .ipv4 _ => some .ipv4
  | .ethRsvd _ => some .ethRsvd
  | .icmpEchoReply | .icmpDestUnreach _ | .icmpTimeExceeded | .lpmBuild _ | .lpmLookup _ | .csum _
  | .csumVerify _ | .csumIncr _ _ _ | .icmpSynth _ _ | .arpcLookup _ | .arpcInsert _ _ | .pqEnq _
  | .pqDeq | .pqSize | .pqDrain _ | .arpReqEmit _ _ | .l2Filter | .frameStep | .rx | .tx _ | .ifMac _
  | .ifIp _ | .hostLoadRoutes _ | .hostStart | .hostReset => none

end Sys2Proof
end

