-- ==== Sys2Proof/Config.lean ====
section
/-! DEFINITION. The implementation parameters of spec/00_scope.md R9. They are OPEN in the spec, so
they are a record the state carries and no operation writes; every statement holds for every value.
`N_IF`, `IF_MAC` and `IF_IP` are the interface table of the state. -/

namespace Sys2Proof

/-- `LOCAL_SCOPE` (R9, 92_eei_decisions.md D5): what "a local interface address" means. -/
inductive LocalScope where
  | rxOnly
  | anyInterface
  deriving DecidableEq, Repr

/-- `ARP_DUP_POLICY` (R9, D6): what a reply for a cached address does. -/
inductive ArpDupPolicy where
  | keepFirst
  | overwrite
  deriving DecidableEq, Repr

/-- `ARP_REPLY_ETH` (R9, D16): the Ethernet addresses of an ARP reply. -/
inductive ArpReplyEth where
  | swap
  | ifaceMac
  deriving DecidableEq, Repr

/-- `SYNTH_TTL_FN` (R9, D7), a function from bytes to bytes held as plain data: the default
decrement modulo 256, or any other function as the table of its 256 values. -/
inductive TtlFn where
  | wrapDecrement
  | table (values : List Byte)
  deriving DecidableEq, Repr

/-- The order of the admission tests, on which the spec's texts differ (log 30): by length and then by
interface, as D12 rules, or by interface first, as R221 and R290 write. Not a parameter of R9. -/
inductive AdmissionOrder where
  | lengthFirst
  | ifaceFirst
  deriving DecidableEq, Repr

/-- The parameters of R9, and the order of the admission tests. `none` stands for the bound ∞. -/
structure Params where
  maxRoutes : Option Nat
  maxFrame : Nat
  arpcDepth : Option Nat
  pqDepth : Option Nat
  localScope : LocalScope
  arpDupPolicy : ArpDupPolicy
  synthTtlFn : TtlFn
  drainRewriteSrc : Bool
  arpReplyEth : ArpReplyEth
  arpreqTha : Mac
  admissionOrder : AdmissionOrder
  deriving DecidableEq, Repr

/-- The defaults of R9. DESIGN CHOICE (unsafe, log 1): `MAX_ROUTES` unbounded and `MAX_FRAME` 2048,
for which R9 gives no default. DESIGN CHOICE (log 30): the order of the admission tests is D12's. -/
def Params.defaults : Params where
  maxRoutes := none
  maxFrame := 2048
  arpcDepth := none
  pqDepth := none
  localScope := .rxOnly
  arpDupPolicy := .keepFirst
  synthTtlFn := .wrapDecrement
  drainRewriteSrc := true
  arpReplyEth := .swap
  arpreqTha := 0
  admissionOrder := .lengthFirst

end Sys2Proof
end

