-- ==== Sys2Proof/Machine/State.lean ====
section
/-! DEFINITION. The state of the engine (spec/10_state.md), as plain data: the registers, the status,
the tables, the boundary (what the receive port will offer, how the coming transmissions end, what
was transmitted), and the model's own operation and result ports. -/

namespace Sys2Proof.Machine

/-- A Frame (R22): the bytes `buf[0..len-1]` and the interface. The buffer is exactly `len` bytes
(92_eei_decisions.md D26), so `len` is its length and a byte at or beyond `len` does not exist. -/
structure Frame where
  buf : List Byte
  iface : Nat
  deriving DecidableEq, Repr

/-- A row of the interface table (R37). -/
structure IfRow where
  mac : Mac
  ip : Ip
  deriving DecidableEq, Repr

/-- An ARP cache entry (R33). -/
structure ArpEntry where
  ip : Ip
  mac : Mac
  deriving DecidableEq, Repr

/-- The values of the dispatch-state register (R27). -/
inductive Dsm where
  | sRx
  | sL2
  | sEtype
  | sArpOp
  | sArpReq
  | sArpLearn
  | sDrainNext
  | sDrainEntry
  | sIpLocal
  | sIpCsum
  | sIpTtl
  | sIpRoute
  | sIpDec
  | sIpResolve
  | sHalt
  deriving DecidableEq, Repr

/-- `run_state` (R29, R295). -/
inductive RunState where
  | unloaded
  | running
  | halted
  deriving DecidableEq, Repr

/-- `fault_cause` (R284). -/
inductive FaultCause where
  | none
  | loadError
  | rxIo
  | txIo
  | runtFrame
  | oversizeFrame
  | badIface
  | capacity
  deriving DecidableEq, Repr

/-- The outcome of a per-frame step (R281). -/
inductive OutcomeCode where
  | forwarded
  | queued
  | echoReply
  | timeExceeded
  | noRoute
  | arpReplied
  | arpLearned
  | dropL2
  | dropEtype
  | dropArpNotLocal
  | dropArpOp
  | dropLocal
  | dropCsum
  deriving DecidableEq, Repr

/-- The trace label of one disposal within a drain (R281). -/
inductive DrainLabel where
  | unreach
  | tx
  | keep
  deriving DecidableEq, Repr

/-- What the receive port offers next: a frame, or a fatal I/O error (R261, R262). -/
inductive RxItem where
  | frame (fr : Frame)
  | ioError
  deriving DecidableEq, Repr

/-- What a value-returning unit operation returned to its caller (the model's own port, log 5). -/
inductive UnitResult where
  | none
  | optRoute (r : Option Route)
  | optMac (m : Option Mac)
  | half (v : Half)
  | flag (b : Bool)
  | nat (n : Nat)
  | frame (fr : Frame)
  | mac (m : Mac)
  | ip (a : Ip)
  deriving DecidableEq, Repr

/-- The whole state. -/
structure State where
  /-- The parameters of R9 (log 1). -/
  cfg : Params
  /-- `IFTAB`; `N_IF` is its length (R37, log 2). -/
  iftab : List IfRow
  /-- The frame register `F` (R22). -/
  f : Frame
  /-- The drain's frame register `P` (R24). -/
  p : Frame
  /-- The ARP request buffer `G` (R23). -/
  g : Frame
  /-- `cur_dst` (R23). -/
  curDst : Ip
  /-- `cur_route` (R23). -/
  curRoute : Option Route
  /-- `cur_mac` (R23). -/
  curMac : Option Mac
  /-- `cur_ttl` (R23). -/
  curTtl : Byte
  /-- `cur_sum` (R23). -/
  curSum : Half
  /-- `drain_n` (R24). -/
  drainN : Nat
  /-- `drain_i` (R24). -/
  drainI : Nat
  /-- `drain_key` (R24). -/
  drainKey : Ip
  /-- The dispatch-state register (R27). -/
  dsm : Dsm
  /-- `run_state` (R29). -/
  runState : RunState
  /-- `fault_cause` (R29). -/
  faultCause : FaultCause
  /-- The route table `RT`, in load order (R31). -/
  rt : List Route
  /-- A `HOST.LOAD_ROUTES` has succeeded since reset (R269, log 11). -/
  loaded : Bool
  /-- The ARP cache `ARPC`, in order of creation (R34). -/
  arpc : List ArpEntry
  /-- The pending-frame queue `PQ`, head first (R36). -/
  pq : List Frame
  /-- What the receive port will offer, oldest first (R18, log 6). -/
  rxq : List RxItem
  /-- For the coming `TX` calls in order: does the collaborator report failure? Calls beyond the
  list succeed (R18, R264, log 6). -/
  txFail : List Bool
  /-- The frames transmitted, oldest first (R41). -/
  txTrace : List Frame
  /-- The outcomes of the finished per-frame steps, oldest first (R281). -/
  outcomes : List OutcomeCode
  /-- The labels of the drain's disposals, oldest first (R281). -/
  drainLabels : List DrainLabel
  /-- The dispatch states entered, oldest first (R27, log 12). -/
  dsmTrace : List Dsm
  /-- The operation port: operation words to be run one by one (the model's own, log 4). -/
  ops : List (List Byte)
  /-- The result port (the model's own, log 5). -/
  ret : UnitResult
  deriving DecidableEq, Repr

/-- The empty frame on interface 0: what the frame registers hold at reset. DESIGN CHOICE (unsafe,
log 3): R42 leaves them unspecified. -/
def Frame.empty : Frame := ⟨[], 0⟩

/-- The state right after reset (R42, R310). DESIGN CHOICE (unsafe): `cfg` (log 1), `iftab` (log 2),
the working registers (log 3), the boundary and the model's own ports (log 4, log 5, log 6). -/
def State.reset : State where
  cfg := Params.defaults
  iftab := [⟨0, 0⟩]
  f := Frame.empty
  p := Frame.empty
  g := Frame.empty
  curDst := 0
  curRoute := none
  curMac := none
  curTtl := 0
  curSum := 0
  drainN := 0
  drainI := 0
  drainKey := 0
  dsm := .sRx
  runState := .unloaded
  faultCause := .none
  rt := []
  loaded := false
  arpc := []
  pq := []
  rxq := []
  txFail := []
  txTrace := []
  outcomes := []
  drainLabels := []
  dsmTrace := [.sRx]
  ops := []
  ret := .none

/-- Where the model stops because the spec gives an access no meaning. The engine's own fatal errors
(R284) are not here: they are next states (R288). -/
inductive Fault where
  /-- A byte at or beyond `len` of a frame register would be read (R22: only bytes below `len` are
  defined). Raised by `L2.FILTER`, `PQ.DRAIN` and `ARP.REPLY` on a frame register or pending entry
  too short, which no run of the engine holds (R285). Safe: nothing is assumed of such a byte. -/
  | beyondFrame
  /-- An interface identifier at or beyond `N_IF` (R10, R286). Raised by `IF.MAC`, `IF.IP`,
  `L2.FILTER`, `ARP.REQ.EMIT`, `ARP.REQUEST`, `IPV4.ECHOREQ` and `IPV4`; the engine checks a frame's
  interface at admission and a Route's at load (log 31). Safe: nothing is assumed of such an interface. -/
  | noSuchInterface
  deriving DecidableEq, Repr

/-- Why the model refuses an instruction. -/
inductive Refusal where
  /-- An instruction that has no meaning yet, by its mnemonic. Raised by `exec`'s arms only. Safe. -/
  | notModelled (mnemonic : String)
  /-- `CSUM` or `CSUM.VERIFY` of an odd number of bytes (R149: a model should refuse). Safe. -/
  | oddChecksumLength
  /-- `PQ.DEQ` on an empty queue (R187, I11: refuse). Safe. -/
  | dequeueEmpty
  /-- `LPM.BUILD` of, or a lookup in, a table that breaks R121 (a model must not give it a meaning),
  or `LPM.BUILD` of one longer than `MAX_ROUTES` (R31, R268). Raised by `LPM.BUILD`, `LPM.LOOKUP`, `PQ.DRAIN`, `ARP.REPLY` and the IPv4 classes. Safe. -/
  | illFormedTable
  /-- The synthesizer on a frame shorter than 42 bytes or of another EtherType (the precondition of
  R160). Raised by the four `ICMP` operations and by a drain over such an entry. Safe. -/
  | synthPrecondition
  /-- `TX` of a frame outside R263's requirement on interface and length, which every caller of the
  engine meets. Raised by every operation that transmits. Safe. -/
  | txPrecondition
  /-- `HOST.LOAD_ROUTES` outside `UNLOADED`, or `HOST.START` outside `UNLOADED` or before a successful
  load (R267: "a model gives it no step there"; R269). Safe. -/
  | hostOpNotAllowed
  /-- `FRAME.STEP` in the middle of a step, a `dsm` no run of the engine rests at (R26, R28). Safe. -/
  | midStepState
  /-- The frame decoder answered an operation; it never does. Raised by `FRAME.STEP`. Safe. -/
  | notAFrameClass
  /-- Bytes at the operation port that are no operation word (R99, I21). Raised by `step`. Safe. -/
  | undecodable (e : DecodeError)
  deriving DecidableEq, Repr

end Sys2Proof.Machine
end

