-- ==== Sys2Proof/Machine/Ops.lean ====
section
/-! DEFINITION. The named operations over frame buffers, registers and status: big-endian field
access (spec/00_scope.md R12, R14), `raise Fault` (spec/60_exceptions.md R288), `drop` and `done`
(R14), and the control flow of a step. -/

namespace Sys2Proof.Machine

/-! ### Frame buffers (R51): offsets 0 to `len - 1`, one byte each -/

/-- Overwrite a buffer from offset `off` on with `bs`; a buffer never grows, and nothing outside the
written offsets changes. -/
def patch : Nat → List Byte → List Byte → List Byte
  | _, _, [] => []
  | 0, [], x :: buf => x :: buf
  | 0, b :: bs, _ :: buf => b :: patch 0 bs buf
  | off + 1, bs, x :: buf => x :: patch off bs buf

/-- `F.len` (R22). -/
def Frame.len (x : Frame) : Nat := x.buf.length

/-- `F[i]` (R11). Every caller has tested `i < len`. -/
def Frame.byte (x : Frame) (i : Nat) : Byte := byteAt x.buf i

/-- `F[off .. off+n-1]` (R11). -/
def Frame.slice (x : Frame) (off n : Nat) : List Byte := (x.buf.drop off).take n

/-- `MemRead(F, off, n)` (R12). -/
def Frame.memRead (x : Frame) (off n : Nat) : Nat := field x.buf off n

/-- `F[off ..] <- bs` (R14). -/
def Frame.writeBytes (x : Frame) (off : Nat) (bs : List Byte) : Frame :=
  { x with buf := patch off bs x.buf }

/-- `MemWrite(F, off, n, v)` (R12). -/
def Frame.memWrite (x : Frame) (off n v : Nat) : Frame := x.writeBytes off (beBytes n v)

/-- `F[i] <- b` (R14). -/
def Frame.setByte (x : Frame) (i : Nat) (b : Byte) : Frame := x.writeBytes i [b]

/-- `swap(F[a..a+n-1], F[c..c+n-1])`: both reads before both writes (R14). -/
def Frame.swap (x : Frame) (a c n : Nat) : Frame :=
  (x.writeBytes a (x.slice c n)).writeBytes c (x.slice a n)

/-- `F.len <- n` for `n ≤ len` (R161 step 7): the bytes beyond are no longer defined. -/
def Frame.truncate (x : Frame) (n : Nat) : Frame := { x with buf := x.buf.take n }

/-! The frame buffer space as (offset, byte) pairs, and its one canonical form. -/

/-- A buffer as the list of its (offset, byte) cells. -/
def Frame.cells (x : Frame) : List Host.Cell := x.buf.zipIdx.map fun c => (c.2, c.1)

/-- The canonical form of a frame buffer: offsets 0, 1, 2, … each listed once, in order. An offset
not listed (at or beyond `len`) has no value. -/
def Memory.wf (m : List Host.Cell) : Bool := m.map Prod.fst == List.range m.length

/-! ### Registers -/

/-- The frame register an operand names. -/
def State.frame (s : State) : FrameReg → Frame
  | .F => s.f
  | .P => s.p
  | .G => s.g

/-- Write a frame register. -/
def State.setFrame (s : State) (x : FrameReg) (fr : Frame) : State :=
  match x with
  | .F => { s with f := fr }
  | .P => { s with p := fr }
  | .G => { s with g := fr }

/-- `N_IF` (R9, R37). -/
def State.nIf (s : State) : Nat := s.iftab.length

/-- `dsm <- S` (R14), recorded in the dispatch trace (log 12). -/
def State.enter (s : State) (d : Dsm) : State :=
  { s with dsm := d, dsmTrace := s.dsmTrace ++ [d] }

/-- `drop(reason)` and `done(outcome)` (R14): back to the receive state, with the step's label. -/
def State.finish (s : State) (o : OutcomeCode) : State :=
  { s with dsm := .sRx, dsmTrace := s.dsmTrace ++ [.sRx], outcomes := s.outcomes ++ [o] }

/-- `raise Fault(cause)` (R288): the one way the engine stops. It writes the cause, the run state and
`dsm`, and nothing else; what the step did before stays done (R67). -/
def State.raise (s : State) (c : FaultCause) : State :=
  { s with
    dsm := .sHalt, dsmTrace := s.dsmTrace ++ [.sHalt], runState := .halted, faultCause := c }

/-- A frame handed to the transmit port (R263, R41). -/
def State.sent (s : State) (fr : Frame) : State := { s with txTrace := s.txTrace ++ [fr] }

/-- Does the coming `TX` call fail (R264)? -/
def State.txFails (s : State) : Bool := s.txFail.headD false

/-- The result of one `TX` call is used up. -/
def State.popTx (s : State) : State := { s with txFail := s.txFail.tail }

/-! ### Control flow within a step -/

/-- What a part of a step ends in: the step goes on, the step has ended (after `drop`, `done`,
`raise Fault`, or because no frame is offered), or the model stops. -/
inductive Flow where
  | go (s : State)
  | ended (s : State)
  | fault (r : Fault)
  | refused (r : Refusal)
  deriving DecidableEq, Repr

/-- The outcomes of a step of this machine. -/
abbrev Out := Host.Outcome State Fault Refusal

/-- Go on with `k` unless the step has ended. -/
def Flow.andThen (x : Flow) (k : State → Flow) : Flow :=
  match x with
  | .go s => k s
  | .ended s => .ended s
  | .fault r => .fault r
  | .refused r => .refused r

/-- Go on with an instruction's meaning unless the step has ended. -/
def Flow.thenOut (x : Flow) (k : State → Out) : Out :=
  match x with
  | .go s => k s
  | .ended s => .next s
  | .fault r => .fault r
  | .refused r => .refused r

/-- The outcome of a step that ends here. -/
def Flow.out (x : Flow) : Out := x.thenOut .next

/-- Operations other than the host's act only in `RUNNING` (R295); one that does not act changes
nothing (R288; log 10). -/
def whenRunning (s : State) (k : Out) : Out :=
  if s.runState = .running then k else .next s

/-- `n < bound`, where `none` is ∞ (R9, R73). -/
def below (n : Nat) : Option Nat → Bool
  | none => true
  | some b => decide (n < b)

/-- `n ≤ bound`, where `none` is ∞. -/
def atMost (n : Nat) : Option Nat → Bool
  | none => true
  | some b => decide (n ≤ b)

/-! ### What a host may observe (R38) -/

/-- The status values of R38. -/
structure Status where
  rtN : Nat
  arpcN : Nat
  pqN : Nat
  runState : RunState
  faultCause : FaultCause
  deriving DecidableEq, Repr

/-- The status a host reads, at any time (R38, R296). -/
def State.status (s : State) : Status :=
  ⟨s.rt.length, s.arpc.length, s.pq.length, s.runState, s.faultCause⟩

end Sys2Proof.Machine
end

