-- ==== Sys2Proof/Machine/Flags.lean ====
section
/-! DEFINITION. The engine has no condition codes (spec/10_state.md R29). What stands here are the
computations in their place: one's-complement arithmetic with end-around carry
(spec/42_checksum.md R140 to R144), and the numeric codes of the status registers and labels
(R27, R29, R281, R284). -/

namespace Sys2Proof.Machine

/-! ### One's-complement arithmetic -/

/-- `S(bs)`: the sum of the 16-bit words, earlier byte high, as a natural number (R140). Defined by
the spec for even lengths only; a last odd byte is not summed, and every use tests the length
(R149). -/
def wordSum : List Byte → Nat
  | hi :: lo :: rest => hi.toNat * 256 + lo.toNat + wordSum rest
  | [_] => 0
  | [] => 0

/-- `fold16(s)` in the closed form of R141. -/
def fold16 (s : Nat) : Nat := if s = 0 then 0 else (s - 1) % 0xFFFF + 1

/-- `fold16(s)` as the loop of R141, with at most `fuel` rounds. -/
def fold16Loop : Nat → Nat → Nat
  | 0, s => s
  | fuel + 1, s => if s > 0xFFFF then fold16Loop fuel (s % 2 ^ 16 + s / 2 ^ 16) else s

/-- `~x` on 16-bit values (R144). -/
def compl16 (x : Nat) : Nat := 0xFFFF - x

/-- `OCSUM(bs)` (R141). -/
def ocsum (bs : List Byte) : Nat := fold16 (wordSum bs)

/-- `CSUM(bs)` (R142). -/
def csum (bs : List Byte) : Half := BitVec.ofNat 16 (compl16 (ocsum bs))

/-- `CSUM.VERIFY(bs)` (R143). -/
def csumVerify (bs : List Byte) : Bool := csum bs == 0

/-- `CSUM.INCR(hc, m, m')` (R144). -/
def csumIncr (hc m m' : Half) : Half :=
  BitVec.ofNat 16 (compl16 (fold16 (compl16 hc.toNat + compl16 m.toNat + m'.toNat)))

/-! ### Codes -/

/-- The 5-bit code of a dispatch state (R27). -/
def Dsm.code : Dsm → BitVec 5
  | .sRx => 0
  | .sL2 => 1
  | .sEtype => 2
  | .sArpOp => 3
  | .sArpReq => 4
  | .sArpLearn => 5
  | .sDrainNext => 6
  | .sDrainEntry => 7
  | .sIpLocal => 8
  | .sIpCsum => 9
  | .sIpTtl => 10
  | .sIpRoute => 11
  | .sIpDec => 12
  | .sIpResolve => 13
  | .sHalt => 14

/-- The 2-bit code of `run_state` (R29). -/
def RunState.code : RunState → BitVec 2
  | .unloaded => 0
  | .running => 1
  | .halted => 2

/-- The 3-bit code of `fault_cause` (R284). -/
def FaultCause.code : FaultCause → BitVec 3
  | .none => 0
  | .loadError => 1
  | .rxIo => 2
  | .txIo => 3
  | .runtFrame => 4
  | .oversizeFrame => 5
  | .badIface => 6
  | .capacity => 7

/-- The 8-bit code of an outcome (R281). -/
def OutcomeCode.code : OutcomeCode → Byte
  | .forwarded => 0x00
  | .queued => 0x01
  | .echoReply => 0x02
  | .timeExceeded => 0x03
  | .noRoute => 0x04
  | .arpReplied => 0x05
  | .arpLearned => 0x06
  | .dropL2 => 0x10
  | .dropEtype => 0x11
  | .dropArpNotLocal => 0x12
  | .dropArpOp => 0x13
  | .dropLocal => 0x14
  | .dropCsum => 0x15

/-- A silent drop (R281: codes `0x10` to `0x1F`). -/
def OutcomeCode.isDrop : OutcomeCode → Bool
  | .forwarded | .queued | .echoReply | .timeExceeded | .noRoute | .arpReplied | .arpLearned => false
  | .dropL2 | .dropEtype | .dropArpNotLocal | .dropArpOp | .dropLocal | .dropCsum => true

/-- The transitions of `dsm` that R27 lists; any state may go to `S_HALT`. -/
def Dsm.edge : Dsm → Dsm → Bool
  | _, .sHalt => true
  | .sRx, .sL2 => true
  | .sL2, .sEtype | .sL2, .sRx => true
  | .sEtype, .sArpOp | .sEtype, .sIpLocal | .sEtype, .sRx => true
  | .sArpOp, .sArpReq | .sArpOp, .sArpLearn | .sArpOp, .sRx => true
  | .sArpReq, .sRx => true
  | .sArpLearn, .sDrainNext => true
  | .sDrainNext, .sDrainEntry | .sDrainNext, .sRx => true
  | .sDrainEntry, .sDrainNext => true
  | .sIpLocal, .sIpCsum | .sIpLocal, .sRx => true
  | .sIpCsum, .sIpTtl | .sIpCsum, .sRx => true
  | .sIpTtl, .sIpRoute | .sIpTtl, .sRx => true
  | .sIpRoute, .sIpDec | .sIpRoute, .sRx => true
  | .sIpDec, .sIpResolve => true
  | .sIpResolve, .sRx => true
  | _, _ => false

end Sys2Proof.Machine
end

