-- ==== Sys2Proof/Machine/Operands.lean ====
section
/-! DEFINITION. The operands of the engine's operations: the fields of a frame register at the
offsets of spec/30_encoding.md R82 to R94, the frame an instruction word is, the interface a frame
register names, and the local-address test. -/

namespace Sys2Proof.Machine

/-- `BCAST` (R13). PRESUMED by the spec itself (93_implementation_defined.md G2; log 18). -/
def bcast : Mac := 0xFFFFFFFFFFFF

/-! ### Fields (R94) -/

/-- `eth.dst` (R82). -/
def Frame.ethDst (x : Frame) : Mac := BitVec.ofNat 48 (x.memRead 0 6)

/-- `eth.src` (R82). -/
def Frame.ethSrc (x : Frame) : Mac := BitVec.ofNat 48 (x.memRead 6 6)

/-- `eth.type` (R82). -/
def Frame.ethType (x : Frame) : Half := BitVec.ofNat 16 (x.memRead 12 2)

/-- `arp.op` (R84). -/
def Frame.arpOp (x : Frame) : Half := BitVec.ofNat 16 (x.memRead 20 2)

/-- `arp.sha` (R84). -/
def Frame.arpSha (x : Frame) : Mac := BitVec.ofNat 48 (x.memRead 22 6)

/-- `arp.spa` (R84). -/
def Frame.arpSpa (x : Frame) : Ip := BitVec.ofNat 32 (x.memRead 28 4)

/-- `arp.tha` (R84). -/
def Frame.arpTha (x : Frame) : Mac := BitVec.ofNat 48 (x.memRead 32 6)

/-- `arp.tpa` (R84). -/
def Frame.arpTpa (x : Frame) : Ip := BitVec.ofNat 32 (x.memRead 38 4)

/-- `ip.ver` (R86). -/
def Frame.ipVer (x : Frame) : BitVec 4 := (x.byte 14).extractLsb' 4 4

/-- `ip.ihl` (R86). -/
def Frame.ipIhl (x : Frame) : BitVec 4 := (x.byte 14).extractLsb' 0 4

/-- `ip.len` (R86). -/
def Frame.ipLen (x : Frame) : Half := BitVec.ofNat 16 (x.memRead 16 2)

/-- `ip.ttl` (R86). -/
def Frame.ipTtl (x : Frame) : Byte := x.byte 22

/-- `ip.proto` (R86). -/
def Frame.ipProto (x : Frame) : Byte := x.byte 23

/-- The checksum word that holds the TTL, `ip.ttl ‖ ip.proto` (R95). -/
def Frame.ttlWord (x : Frame) : Half := BitVec.ofNat 16 (x.memRead 22 2)

/-- `ip.csum` (R86). -/
def Frame.ipCsum (x : Frame) : Half := BitVec.ofNat 16 (x.memRead 24 2)

/-- `ip.src` (R86). -/
def Frame.ipSrc (x : Frame) : Ip := BitVec.ofNat 32 (x.memRead 26 4)

/-- `ip.dst` (R86). -/
def Frame.ipDst (x : Frame) : Ip := BitVec.ofNat 32 (x.memRead 30 4)

/-- `icmp.type` (R88). -/
def Frame.icmpType (x : Frame) : Byte := x.byte 34

/-- `icmp.code` (R88). -/
def Frame.icmpCode (x : Frame) : Byte := x.byte 35

/-- `icmp.csum` (R88). -/
def Frame.icmpCsum (x : Frame) : Half := BitVec.ofNat 16 (x.memRead 36 2)

/-- `icmp.rest` (R88). -/
def Frame.icmpRest (x : Frame) : BitVec 32 := BitVec.ofNat 32 (x.memRead 38 4)

/-- The 20 bytes the IPv4 header checksum covers, whatever `ip.ihl` says (R87, R147). -/
def Frame.ipHeader (x : Frame) : List Byte := x.slice 14 20

/-- The 8 bytes the ICMP checksum of a synthesized frame covers (R148). -/
def Frame.icmpHeader (x : Frame) : List Byte := x.slice 34 8

/-- `F[23] == 1 and F[34] == 8`: an echo request (R230). -/
def Frame.isEchoRequest (x : Frame) : Bool := x.ipProto == 1 && x.icmpType == 8

/-! ### The frame that is the instruction word -/

/-- A frame-class instruction's operand is the frame in `F` (R191, R198, R229): the word's bytes, on
the interface `F` arrived on. -/
def State.loadF (s : State) (bytes : List Byte) : State := { s with f := { s.f with buf := bytes } }

/-! ### Interfaces (R37) -/

/-- Row `i` of `IFTAB`, if `i < N_IF`. -/
def State.ifRow (s : State) (i : Nat) : Option IfRow := s.iftab[i]?

/-- The local-address test under `LOCAL_SCOPE` for a frame received on interface `i`
(R9, R191, R231). -/
def State.isLocal (s : State) (i : Nat) (a : Ip) : Bool :=
  match s.cfg.localScope with
  | .rxOnly => (s.ifRow i).any fun row => row.ip == a
  | .anyInterface => s.iftab.any fun row => row.ip == a

/-- `SYNTH_TTL_FN` (R9, R168): the default decrement modulo 256, or the table's value. A table
shorter than 256 entries answers the default where it has no entry. -/
def ttlApply (fn : TtlFn) (t : Byte) : Byte :=
  match fn with
  | .wrapDecrement => t - 1
  | .table values => values.getD t.toNat (t - 1)

end Sys2Proof.Machine
end

