-- ==== Sys2Proof/Machine/Checksum.lean ====
section
/-! DEFINITION. The checksum unit as operations (spec/42_checksum.md R142 to R144, R149). It has no
state; a result goes to the caller (log 5). -/

namespace Sys2Proof.Machine

/-- `CSUM(bs)` (R142); an odd number of bytes is refused (R149). -/
def execCsum (bs : List Byte) (s : State) : Out :=
  whenRunning s <|
    if bs.length % 2 = 0 then .next { s with ret := .half (csum bs) }
    else .refused .oddChecksumLength

/-- `CSUM.VERIFY(bs)` (R143); an odd number of bytes is refused (R149). -/
def execCsumVerify (bs : List Byte) (s : State) : Out :=
  whenRunning s <|
    if bs.length % 2 = 0 then .next { s with ret := .flag (csumVerify bs) }
    else .refused .oddChecksumLength

/-- `CSUM.INCR(old_checksum, old_field, new_field)` (R144). -/
def execCsumIncr (hc m m' : Half) (s : State) : Out :=
  whenRunning s (.next { s with ret := .half (csumIncr hc m m') })

end Sys2Proof.Machine
end

