-- ==== Sys2Proof/Machine/Icmp.lean ====
section
/-! DEFINITION. The ICMP frame synthesizer (spec/43_icmp_synth.md). -/

namespace Sys2Proof.Machine

/-- Steps 1 to 3 of R161: the swaps, header length 5, protocol 1, total length 28. -/
def synthAddresses (x : Frame) : Frame :=
  ((((x.swap 0 6 6).swap 26 30 4).setByte 14 ((x.byte 14 &&& 0xF0) ||| 0x05)).setByte 23 1).memWrite
    16 2 28

/-- Step 4 of R161: the TTL, then the IP checksum from scratch (90_conflicts.md C2). -/
def synthIpSum (fn : TtlFn) (x : Frame) : Frame :=
  let y := (x.setByte 22 (ttlApply fn (x.byte 22))).memWrite 24 2 0
  y.memWrite 24 2 (csum y.ipHeader).toNat

/-- Steps 5 and 6 of R161: code 0, the type, then the ICMP checksum over the 8-byte header
(90_conflicts.md C3). -/
def synthIcmp (t : Byte) (x : Frame) : Frame :=
  let y := ((x.setByte 35 0).setByte 34 t).memWrite 36 2 0
  y.memWrite 36 2 (csum y.icmpHeader).toNat

/-- The effects of `ICMP.SYNTH(X, t)` on the frame, in order (R161), for any 8-bit `t` (R167). -/
def synthFrame (fn : TtlFn) (t : Byte) (x : Frame) : Frame :=
  (synthIcmp t (synthIpSum fn (synthAddresses x))).truncate windowLen

/-- The precondition of R160. -/
def Frame.synthReady (x : Frame) : Bool := decide (windowLen ≤ x.len) && x.ethType == etherIpv4

/-- `ICMP.SYNTH(X, t)` (R160, R161). -/
def synthOp (x : FrameReg) (t : Byte) (s : State) : Flow :=
  if (s.frame x).synthReady then .go (s.setFrame x (synthFrame s.cfg.synthTtlFn t (s.frame x)))
  else .refused .synthPrecondition

/-- `ICMP.SYNTH(X, t)` (R161). -/
def execIcmpSynth (x : FrameReg) (t : Byte) (s : State) : Out :=
  whenRunning s (synthOp x t s).out

/-- `ICMP.ECHO_REPLY` = `ICMP.SYNTH(F, 0x00)` (R164). -/
def execIcmpEchoReply (s : State) : Out :=
  whenRunning s (synthOp .F 0x00 s).out

/-- `ICMP.DEST_UNREACH` = `ICMP.SYNTH(X, 0x03)` (R165). -/
def execIcmpDestUnreach (x : FrameReg) (s : State) : Out :=
  whenRunning s (synthOp x 0x03 s).out

/-- `ICMP.TIME_EXCEEDED` = `ICMP.SYNTH(F, 0x0B)` (R166). -/
def execIcmpTimeExceeded (s : State) : Out :=
  whenRunning s (synthOp .F 0x0B s).out

end Sys2Proof.Machine
end

