-- ==== Sys2Proof/Machine/Lpm.lean ====
section
/-! DEFINITION. The longest-prefix-match engine (spec/41_lpm_lookup.md). Lookup is the reference scan
of R122 over `RT`; the trie of R127 is defined beside it and is a function of `RT` alone (R32, R126,
log 19). -/

namespace Sys2Proof.Machine

/-! ### Routes (R30, R121, R124) -/

/-- The contiguous mask of length `l`: `2^32 - 2^(32-l)` (R30). -/
def maskOf (l : Nat) : Ip := BitVec.ofNat 32 (2 ^ 32 - 2 ^ (32 - l))

/-- `masklen(mask)`: for a contiguous mask its count of one bits (R124). -/
def maskLen (m : Ip) : Nat := (List.range 32).countP fun k => m.getLsbD k

/-- A mask of the form of R30. -/
def contiguous (m : Ip) : Bool := (List.range 33).any fun l => m == maskOf l

/-- A Route that satisfies R121 (a), (b), (c). -/
def routeWf (nIf : Nat) (r : Route) : Bool :=
  contiguous r.mask && r.pfx == r.pfx &&& r.mask && decide (r.iface < nIf)

/-- A well-formed table (R121). -/
def tableWf (nIf : Nat) (rt : List Route) : Bool := rt.all (routeWf nIf)

/-- `(D & r.mask) == r.prefix` (R122). -/
def routeMatches (d : Ip) (r : Route) : Bool := d &&& r.mask == r.pfx

/-! ### The reference lookup (R122, R123) -/

/-- The strictly longer of the best so far and a matching Route (R122: the comparison is strict, so
the first inserted wins a tie). -/
def better (best : Option Route) (r : Route) : Option Route :=
  match best with
  | none => some r
  | some b => if maskLen r.mask > maskLen b.mask then some r else some b

/-- The loop of R122 from the best so far. -/
def lpmScan (d : Ip) : List Route → Option Route → Option Route
  | [], best => best
  | r :: rest, best => lpmScan d rest (if routeMatches d r then better best r else best)

/-- `LPM.LOOKUP(D)` over a table (R122). -/
def lpmLookup (rt : List Route) (d : Ip) : Option Route := lpmScan d rt none

/-! ### The trie (R127) -/

/-- A node of the trie: an absent child is `leaf`. `term` is the index of the Route that ends here. -/
inductive Trie where
  | leaf
  | node (term : Option Nat) (child0 child1 : Trie)
  deriving DecidableEq, Repr

/-- The top `l` bits of an address, bit 31 first (R127). -/
def topBits (l : Nat) (a : Ip) : List Bool := (List.range l).map fun k => a.getMsbD k

/-- Walk down `path`, creating nodes, and mark its end unless it is marked (R127: first inserted
wins). -/
def Trie.insert (i : Nat) : List Bool → Trie → Trie
  | [], .leaf => .node (some i) .leaf .leaf
  | [], .node t c0 c1 => .node (t.or (some i)) c0 c1
  | false :: path, .leaf => .node none (Trie.insert i path .leaf) .leaf
  | true :: path, .leaf => .node none .leaf (Trie.insert i path .leaf)
  | false :: path, .node t c0 c1 => .node t (Trie.insert i path c0) c1
  | true :: path, .node t c0 c1 => .node t c0 (Trie.insert i path c1)

/-- Insert the routes from index `i` on. -/
def Trie.buildFrom : Nat → List Route → Trie → Trie
  | _, [], t => t
  | i, r :: rest, t => Trie.buildFrom (i + 1) rest (t.insert i (topBits (maskLen r.mask) r.pfx))

/-- The trie of a table: `LPM.BUILD`'s structure (R120, R127). -/
def Trie.build (rt : List Route) : Trie := Trie.buildFrom 0 rt (.node none .leaf .leaf)

/-- Walk down the key's bits, keeping the deepest mark seen (R127). -/
def Trie.walk : List Bool → Trie → Option Nat → Option Nat
  | _, .leaf, best => best
  | [], .node t _ _, best => t.or best
  | false :: path, .node t c0 _, best => Trie.walk path c0 (t.or best)
  | true :: path, .node t _ c1, best => Trie.walk path c1 (t.or best)

/-- The lookup of R127 in the trie of a table. -/
def trieLookup (rt : List Route) (d : Ip) : Option Route :=
  ((Trie.build rt).walk (topBits 32 d) none).bind fun i => rt[i]?

/-- `TRIE` (R32): derived from `RT`. -/
def State.trie (s : State) : Trie := Trie.build s.rt

/-! ### The operations -/

/-- A lookup into `cur_route` (R122). A model must not give it a meaning on an ill-formed table
(R121). -/
def lookupOp (d : Ip) (s : State) : Flow :=
  if tableWf s.nIf s.rt then .go { s with curRoute := lpmLookup s.rt d }
  else .refused .illFormedTable

/-- A table the engine accepts: at most `MAX_ROUTES` entries (R31, R73), each well formed (R121). -/
def State.loadable (s : State) (entries : List Route) : Bool :=
  atMost entries.length s.cfg.maxRoutes && tableWf s.nIf entries

/-- `LPM.BUILD(entries)` (R120): only while `UNLOADED`; a table the load refuses is refused before it
(R121, R268). -/
def execLpmBuild (entries : List Route) (s : State) : Out :=
  if s.runState = .unloaded then
    if s.loadable entries then .next { s with rt := entries } else .refused .illFormedTable
  else .next s

/-- `LPM.LOOKUP(D)` (R122): the result is the caller's `cur_route`. -/
def execLpmLookup (d : Ip) (s : State) : Out :=
  whenRunning s ((lookupOp d s).andThen fun t => .go { t with ret := .optRoute t.curRoute }).out

end Sys2Proof.Machine
end

