-- ==== Sys2Proof/Machine/Ports.lean ====
section
/-! DEFINITION. The ports `RX`, `TX`, `IF.MAC`, `IF.IP` (spec/46_host_interface.md R261 to R266), and
the admission of what `RX` delivers (spec/45_dispatch.md R221). -/

namespace Sys2Proof.Machine

/-- A receive called in this state waits: it may be called, and nothing is offered (R261, R301). -/
def State.awaitsFrame (s : State) : Bool :=
  s.runState == .running && s.dsm == .sRx && s.rxq.isEmpty

/-- `RX()` before admission (R261, R262): with no frame offered the call waits and nothing changes
(log 6); an I/O error raises `RX_IO`; otherwise the frame is consumed, loaded into `F`, and
`dsm <- S_L2`. -/
def rxOp (s : State) : Flow :=
  match s.rxq with
  | [] => .ended s
  | .ioError :: rest => .ended ({ s with rxq := rest }.raise .rxIo)
  | .frame fr :: rest => .go ({ s with rxq := rest, f := fr }.enter .sL2)

/-- The cause admission finds in the frame in `F`, the first of its tests that holds (R221). The order
of the tests is D12's or the one R221 and R290 write, as the parameter says (log 30). -/
def State.admissionFault (s : State) : Option FaultCause :=
  let badIface := decide (s.nIf ≤ s.f.iface)
  let oversize := decide (s.cfg.maxFrame < s.f.len)
  let runt := decide (s.f.len < ethHeaderLen)
  match s.cfg.admissionOrder with
  | .lengthFirst =>
    if runt then some .runtFrame else if oversize then some .oversizeFrame
    else if badIface then some .badIface else none
  | .ifaceFirst =>
    if badIface then some .badIface else if oversize then some .oversizeFrame
    else if runt then some .runtFrame else none

/-- Admission of the frame in `F` (R221). -/
def admitOp (s : State) : Flow :=
  match s.admissionFault with
  | some c => .ended (s.raise c)
  | none => .go s

/-- A receive with all its faults: R262's and the admission faults of R221 (R261, R73). -/
def receiveOp (s : State) : Flow := (rxOp s).andThen admitOp

/-- What `TX` requires of its frame, and every caller guarantees (R263). -/
def State.txReady (s : State) (fr : Frame) : Bool :=
  decide (fr.iface < s.nIf) && decide (ethHeaderLen ≤ fr.len) && decide (fr.len ≤ s.cfg.maxFrame)

/-- `TX` of a frame (R263, R264): appended to the output trace, or `TX_IO` if the collaborator
reports failure; a frame whose transmission failed counts as not sent. -/
def txFrame (fr : Frame) (s : State) : Flow :=
  if s.txReady fr then
    if s.txFails then .ended (s.popTx.raise .txIo) else .go (s.popTx.sent fr)
  else .refused .txPrecondition

/-- `RX` (R261). "Called only in state `S_RX` with `run_state = RUNNING`": elsewhere it does not act. -/
def execRx (s : State) : Out :=
  whenRunning s (if s.dsm = .sRx then (receiveOp s).out else .next s)

/-- `TX(X)` (R263). -/
def execTx (x : FrameReg) (s : State) : Out :=
  whenRunning s (txFrame (s.frame x) s).out

/-- `IF.MAC(i)` (R265). -/
def execIfMac (i : Nat) (s : State) : Out :=
  whenRunning s <|
    match s.ifRow i with
    | some row => .next { s with ret := .mac row.mac }
    | none => .fault .noSuchInterface

/-- `IF.IP(i)` (R266). -/
def execIfIp (i : Nat) (s : State) : Out :=
  whenRunning s <|
    match s.ifRow i with
    | some row => .next { s with ret := .ip row.ip }
    | none => .fault .noSuchInterface

end Sys2Proof.Machine
end

