-- ==== Sys2Proof/Machine/Tables.lean ====
section
/-! DEFINITION. The ARP cache and the pending-frame queue as operations (spec/44_arp.md R180 to
R188). -/

namespace Sys2Proof.Machine

/-! ### The ARP cache -/

/-- `ARPC.LOOKUP(a)` over a cache: the first entry with that key (R180). -/
def arpLookup : List ArpEntry → Ip → Option Mac
  | [], _ => none
  | e :: rest, a => if e.ip = a then some e.mac else arpLookup rest a

/-- `ARPC[i].mac <- m` for the first entry with key `a` (R182, `overwrite`; log 25). -/
def arpReplace : List ArpEntry → Ip → Mac → List ArpEntry
  | [], _, _ => []
  | e :: rest, a, m => if e.ip = a then { e with mac := m } :: rest else e :: arpReplace rest a m

/-- `ARPC.INSERT(a, m)` (R182, R73). -/
def arpInsertOp (a : Ip) (m : Mac) (s : State) : Flow :=
  match arpLookup s.arpc a with
  | some _ =>
    match s.cfg.arpDupPolicy with
    | .keepFirst => .go s
    | .overwrite => .go { s with arpc := arpReplace s.arpc a m }
  | none =>
    if below s.arpc.length s.cfg.arpcDepth then .go { s with arpc := s.arpc ++ [⟨a, m⟩] }
    else .ended (s.raise .capacity)

/-! ### The pending-frame queue -/

/-- `PQ.ENQ` of a frame: a copy at the tail (R186, R71, R73). -/
def pqEnqOp (fr : Frame) (s : State) : Flow :=
  if below s.pq.length s.cfg.pqDepth then .go { s with pq := s.pq ++ [fr] }
  else .ended (s.raise .capacity)

/-- `P <- PQ.DEQ()` (R187): an empty queue is refused (93_implementation_defined.md I11). -/
def pqDeqOp (s : State) : Flow :=
  match s.pq with
  | [] => .refused .dequeueEmpty
  | q :: rest => .go { s with pq := rest, p := q }

/-! ### The operations -/

/-- `ARPC.LOOKUP(a)` (R180). -/
def execArpcLookup (a : Ip) (s : State) : Out :=
  whenRunning s (.next { s with ret := .optMac (arpLookup s.arpc a) })

/-- `ARPC.INSERT(a, m)` (R182). -/
def execArpcInsert (a : Ip) (m : Mac) (s : State) : Out :=
  whenRunning s (arpInsertOp a m s).out

/-- `PQ.ENQ(X)` (R186). -/
def execPqEnq (x : FrameReg) (s : State) : Out :=
  whenRunning s (pqEnqOp (s.frame x) s).out

/-- `PQ.DEQ()` (R187): the entry moves into `P` (R24) and is returned. -/
def execPqDeq (s : State) : Out :=
  whenRunning s ((pqDeqOp s).andThen fun t => .go { t with ret := .frame t.p }).out

/-- `PQ.SIZE()` (R188). -/
def execPqSize (s : State) : Out :=
  whenRunning s (.next { s with ret := .nat s.pq.length })

end Sys2Proof.Machine
end

