-- ==== Sys2Proof/Machine/Arp.lean ====
section
/-! DEFINITION. The ARP protocol handler, the queue drain and the request generator
(spec/44_arp.md R190 to R207). -/

namespace Sys2Proof.Machine

/-! ### Requests (R191, R192) -/

/-- The reply built in place in the request's frame, in the order of R191; the sender fields are
copied to the target fields before they are overwritten (R318). -/
def arpReplyFrame (eth : ArpReplyEth) (row : IfRow) (x : Frame) : Frame :=
  let y := x.writeBytes 32 (x.slice 22 6)
  let y := y.writeBytes 38 (y.slice 28 4)
  let y := y.memWrite 22 6 row.mac.toNat
  let y := y.memWrite 28 4 row.ip.toNat
  let y := y.memWrite 20 2 2
  match eth with
  | .swap => y.swap 0 6 6
  | .ifaceMac => (y.writeBytes 0 (y.slice 6 6)).memWrite 6 6 row.mac.toNat

/-- The handler's request arm on the frame in `F` (R191). -/
def arpRequestFlow (s : State) : Flow :=
  match s.ifRow s.f.iface with
  | none => .fault .noSuchInterface
  | some row =>
    if s.isLocal s.f.iface s.f.arpTpa then
      let t := { s.enter .sArpReq with f := arpReplyFrame s.cfg.arpReplyEth row s.f }
      (txFrame t.f t).andThen fun u => .ended (u.finish .arpReplied)
    else .ended ((s.enter .sArpReq).finish .dropArpNotLocal)

/-- `ARP.REQUEST` (R191). -/
def execArpRequest (h : ArpFrame) (s : State) : Out :=
  whenRunning s (arpRequestFlow ((s.loadF (encodeArp 1 h)).enter .sArpOp)).out

/-- `ARP.RSVD` (R194). -/
def execArpRsvd (op : Half) (h : ArpFrame) (s : State) : Out :=
  whenRunning s (.next (((s.loadF (encodeArp op h)).enter .sArpOp).finish .dropArpOp))

/-! ### The drain (R200, R201) -/

/-- A disposal has ended with its label (R281). -/
def State.labelled (s : State) (l : DrainLabel) : State :=
  { s with drainLabels := s.drainLabels ++ [l] }

/-- Case (a) of R201: no route. -/
def disposeUnreach (s : State) : Flow :=
  (synthOp .P 0x03 s).andThen fun s => (txFrame s.p s).andThen fun s => .go (s.labelled .unreach)

/-- The frame released in case (b) of R201: the resolved address, the outgoing interface's own
address if `DRAIN_REWRITE_SRC`, and the transmit interface. -/
def releaseFrame (rewriteSrc : Bool) (outMac mac : Mac) (r : Route) (x : Frame) : Frame :=
  let y := x.memWrite 0 6 mac.toNat
  let y := if rewriteSrc then y.memWrite 6 6 outMac.toNat else y
  { y with iface := r.iface }

/-- Case (b) of R201: the awaited next hop is resolved. -/
def disposeRelease (r : Route) (mac : Mac) (s : State) : Flow :=
  match s.ifRow r.iface with
  | none => .fault .noSuchInterface
  | some row =>
    let t := { s with p := releaseFrame s.cfg.drainRewriteSrc row.mac mac r s.p }
    (txFrame t.p t).andThen fun u => .go (u.labelled .tx)

/-- Case (c) of R201: the entry waits for another reply. -/
def disposeKeep (s : State) : Flow :=
  (pqEnqOp s.p s).andThen fun s => .go (s.labelled .keep)

/-- Cases (b) and (c) of R201, with the cache consulted for the drain's key. -/
def disposeRouted (r : Route) (s : State) : Flow :=
  let t := { s with curMac := arpLookup s.arpc s.drainKey }
  match t.curMac with
  | some mac => if r.nextHop = t.drainKey then disposeRelease r mac t else disposeKeep t
  | none => disposeKeep t

/-- Disposal of the dequeued entry in `P` (R201). -/
def disposeOp (s : State) : Flow :=
  if s.p.len < 34 then .fault .beyondFrame
  else
    (lookupOp s.p.ipDst { s with curDst := s.p.ipDst }).andThen fun s =>
      match s.curRoute with
      | none => disposeUnreach s
      | some r => disposeRouted r s

/-- One round of the drain: dequeue, count, dispose (R200). -/
def drainEntry (s : State) : Flow :=
  (pqDeqOp (s.enter .sDrainEntry)).andThen fun s => disposeOp { s with drainI := s.drainI + 1 }

/-- The loop of R200, `while drain_i < drain_n`; the snapshot `drain_n` is taken once, before it, and
is also the bound on the rounds. -/
def drainLoop : Nat → State → Flow
  | 0, s => .go ((s.enter .sDrainNext).enter .sRx)
  | n + 1, s =>
    let t := s.enter .sDrainNext
    if t.drainI < t.drainN then (drainEntry t).andThen (drainLoop n) else .go (t.enter .sRx)

/-- `PQ.DRAIN(N)` (R200). -/
def drainOp (key : Ip) (s : State) : Flow :=
  drainLoop s.pq.length { s with drainKey := key, drainN := s.pq.length, drainI := 0 }

/-- `PQ.DRAIN(N)` (R200). Only `ARP.REPLY` invokes it, from `S_ARP_LEARN`. DESIGN CHOICE (unsafe for a
claim about `dsm`, log 12): run by itself it enters `S_DRAIN_NEXT` from the state it is called in, which
is no edge of R27, and leaves `dsm` at `S_RX`. -/
def execPqDrain (n : Ip) (s : State) : Out :=
  whenRunning s (drainOp n s).out

/-! ### Replies (R198, R199) -/

/-- The handler's reply arm on the frame in `F`: insert, then drain (R198). -/
def arpReplyFlow (s : State) : Flow :=
  (arpInsertOp s.f.arpSpa s.f.arpSha (s.enter .sArpLearn)).andThen fun t =>
    (drainOp s.f.arpSpa t).andThen fun u => .ended { u with outcomes := u.outcomes ++ [.arpLearned] }

/-- `ARP.REPLY` (R198). -/
def execArpReply (h : ArpFrame) (s : State) : Out :=
  whenRunning s (arpReplyFlow ((s.loadF (encodeArp 2 h)).enter .sArpOp)).out

/-! ### The request generator (R205) -/

/-- The 42 bytes of an emitted request (R205). -/
def arpRequestFor (tha : Mac) (row : IfRow) (nh : Ip) : List Byte :=
  encodeArp 1 {
    dst := bcast, src := row.mac, htype := 1, ptype := 0x0800, hlen := 6, plen := 4,
    sha := row.mac, spa := row.ip, tha := tha, tpa := nh, pad := [] }

/-- `ARP.REQ.EMIT(nh, i)`: built in `G`, apart from `F` and the queued copy, and transmitted (R205,
R314). -/
def arpReqEmitOp (nh : Ip) (i : Nat) (s : State) : Flow :=
  match s.ifRow i with
  | none => .fault .noSuchInterface
  | some row =>
    let t := { s with g := ⟨arpRequestFor s.cfg.arpreqTha row nh, i⟩ }
    txFrame t.g t

/-- `ARP.REQ.EMIT(nh, i)` (R205). -/
def execArpReqEmit (nh : Ip) (i : Nat) (s : State) : Out :=
  whenRunning s (arpReqEmitOp nh i s).out

end Sys2Proof.Machine
end

