-- ==== Sys2Proof/Machine/Ipv4.lean ====
section
/-! DEFINITION. The IPv4 path, steps 3a to 3g (spec/45_dispatch.md R229 to R237), one definition for
each dispatch state. -/

namespace Sys2Proof.Machine

/-- Make an ICMP frame of `F`, send it back out the interface it arrived on, and end the step
(R230, R233, R234). -/
def replyIcmp (t : Byte) (o : OutcomeCode) (s : State) : Flow :=
  (synthOp .F t s).andThen fun s => (txFrame s.f s).andThen fun s => .ended (s.finish o)

/-- The frame the hit path sends (R236). -/
def forwardFrame (outMac mac : Mac) (r : Route) (x : Frame) : Frame :=
  { ((x.memWrite 6 6 outMac.toNat).memWrite 0 6 mac.toNat) with iface := r.iface }

/-- Step 3g, hit (R236). -/
def ipForward (r : Route) (mac : Mac) (s : State) : Flow :=
  match s.ifRow r.iface with
  | none => .fault .noSuchInterface
  | some row =>
    let t := { s with f := forwardFrame row.mac mac r s.f }
    (txFrame t.f t).andThen fun u => .ended (u.finish .forwarded)

/-- Step 3g, miss (R237): enqueue a copy, then ask for the next hop out the Route's interface. -/
def ipQueue (r : Route) (s : State) : Flow :=
  (pqEnqOp s.f s).andThen fun s =>
    (arpReqEmitOp r.nextHop r.iface s).andThen fun s => .ended (s.finish .queued)

/-- Step 3g: the cache is asked for the next hop, never for the destination (R236, R237). -/
def ipResolve (r : Route) (s : State) : Flow :=
  let t := { s.enter .sIpResolve with curMac := arpLookup s.arpc r.nextHop }
  match t.curMac with
  | some mac => ipForward r mac t
  | none => ipQueue r t

/-- The frame after step 3f: the TTL one less, the header checksum updated incrementally (R235). -/
def decFrame (x : Frame) : Frame :=
  (x.setByte 22 (x.byte 22 - 1)).memWrite 24 2
    (csumIncr x.ipCsum x.ttlWord (x.ttlWord - 0x0100)).toNat

/-- Step 3f (R235). The new checksum is the checksum in flight, `cur_sum` (R23, log 14). -/
def ipDec (r : Route) (s : State) : Flow :=
  ipResolve r
    { s.enter .sIpDec with
      curSum := csumIncr s.f.ipCsum s.f.ttlWord (s.f.ttlWord - 0x0100), f := decFrame s.f }

/-- Step 3e (R234). -/
def ipRoute (s : State) : Flow :=
  (lookupOp s.curDst (s.enter .sIpRoute)).andThen fun s =>
    match s.curRoute with
    | none => replyIcmp 0x03 .noRoute s
    | some r => ipDec r s

/-- Step 3d (R233): the test is on the received TTL, held in `cur_ttl` (R23, log 14). -/
def ipTtl (s : State) : Flow :=
  let t := { s.enter .sIpTtl with curTtl := s.f.ipTtl }
  if t.curTtl ≤ 1 then replyIcmp 0x0B .timeExceeded t else ipRoute t

/-- Step 3c (R232). -/
def ipCsumTest (s : State) : Flow :=
  let t := s.enter .sIpCsum
  if csumVerify t.f.ipHeader then ipTtl t else .ended (t.finish .dropCsum)

/-- Steps 3a and 3b (R230, R231): 3a asks for the receiving interface's own address, 3b for a local
address under `LOCAL_SCOPE`. -/
def ipLocal (s : State) : Flow :=
  let t := { s.enter .sIpLocal with curDst := s.f.ipDst }
  match t.ifRow t.f.iface with
  | none => .fault .noSuchInterface
  | some row =>
    if t.curDst = row.ip ∧ t.f.isEchoRequest then replyIcmp 0x00 .echoReply t
    else if t.isLocal t.f.iface t.curDst then .ended (t.finish .dropLocal)
    else ipCsumTest t

/-- `IPV4` (R229). -/
def execIpv4 (h : Ipv4Frame) (s : State) : Out :=
  whenRunning s (ipLocal (s.loadF (encodeIpv4 h))).out

/-- `IPV4.ECHOREQ` (R230 within R229). -/
def execIpv4EchoReq (h : Ipv4Frame) (s : State) : Out :=
  whenRunning s (ipLocal (s.loadF (encodeIpv4 h))).out

end Sys2Proof.Machine
end

