-- ==== Sys2Proof/Machine/FrameStep.lean ====
section
/-! DEFINITION. The per-frame step (spec/45_dispatch.md R220 to R226): receive and admission (Ports),
link-layer filter, class decode, and the class's own meaning. -/

namespace Sys2Proof.Machine

/-- `L2.FILTER` for a frame received on an interface with that link-layer address (R222). -/
def l2Accepts (row : IfRow) (x : Frame) : Bool := x.ethDst == row.mac || x.ethDst == bcast

/-- The link-layer filter as a stage of the step (R222). -/
def l2Stage (s : State) : Flow :=
  match s.ifRow s.f.iface with
  | none => .fault .noSuchInterface
  | some row => if l2Accepts row s.f then .go (s.enter .sEtype) else .ended (s.finish .dropL2)

/-- `L2.FILTER(F)` (R222) as an operation by itself: the answer goes to the caller. -/
def execL2Filter (s : State) : Out :=
  whenRunning s <|
    match s.ifRow s.f.iface with
    | none => .fault .noSuchInterface
    | some row =>
      if s.f.len < 6 then .fault .beyondFrame
      else .next { s with ret := .flag (l2Accepts row s.f) }

/-- `ETH.RSVD` (R224). -/
def execEthRsvd (h : EthFrame) (s : State) : Out :=
  whenRunning s (.next ((s.loadF (encodeEth h)).finish .dropEtype))

/-- The meaning of a frame class. -/
def runClass (i : Instr) (s : State) : Out :=
  match i with
  | .arpRequest h => execArpRequest h s
  | .arpReply h => execArpReply h s
  | .arpRsvd op h => execArpRsvd op h s
  | .ipv4EchoReq h => execIpv4EchoReq h s
  | .ipv4 h => execIpv4 h s
  | .ethRsvd h => execEthRsvd h s
  | .icmpEchoReply | .icmpDestUnreach _ | .icmpTimeExceeded | .lpmBuild _ | .lpmLookup _ | .csum _
  | .csumVerify _ | .csumIncr _ _ _ | .icmpSynth _ _ | .arpcLookup _ | .arpcInsert _ _ | .pqEnq _
  | .pqDeq | .pqSize | .pqDrain _ | .arpReqEmit _ _ | .l2Filter | .frameStep | .rx | .tx _ | .ifMac _
  | .ifIp _ | .hostLoadRoutes _ | .hostStart | .hostReset => .refused .notAFrameClass

/-- Class decode of the frame in `F` (R223, R225, R226, R96) and its meaning. -/
def dispatchFrame (s : State) : Out :=
  match decodeFrame s.f.buf with
  | .ok i => runClass i s
  | .bad _ => .next (s.raise .runtFrame)

/-- What follows admission: filter and dispatch (R220). -/
def processFrame (s : State) : Out := (l2Stage s).thenOut dispatchFrame

/-- `FRAME.STEP` (R220): from `S_RX` it receives first; from `S_L2` (after an `RX` by itself) it goes
on with the frame in `F`, admitting it again, which changes nothing for a frame `RX` admitted
(log 12). -/
def execFrameStep (s : State) : Out :=
  whenRunning s <|
    match s.dsm with
    | .sRx => (receiveOp s).thenOut processFrame
    | .sL2 => (admitOp s).thenOut processFrame
    | .sEtype | .sArpOp | .sArpReq | .sArpLearn | .sDrainNext | .sDrainEntry | .sIpLocal | .sIpCsum
    | .sIpTtl | .sIpRoute | .sIpDec | .sIpResolve | .sHalt => .refused .midStepState

end Sys2Proof.Machine
end

