-- ==== Sys2Proof/Machine/HostOps.lean ====
section
/-! DEFINITION. The host operations (spec/46_host_interface.md R267 to R270), fetching from the
operation port, and what a call of an operation needs in place (log 7). -/

namespace Sys2Proof.Machine

/-- `HOST.LOAD_ROUTES(entries)` (R267, R268); `none` is the loader's error. -/
def execHostLoadRoutes (entries : Option (List Route)) (s : State) : Out :=
  if s.runState = .unloaded then
    match entries with
    | none => .next (s.raise .loadError)
    | some rs =>
      if s.loadable rs then .next { s with rt := rs, loaded := true }
      else .next (s.raise .loadError)
  else .refused .hostOpNotAllowed

/-- `HOST.START` (R269). -/
def execHostStart (s : State) : Out :=
  if s.runState = .unloaded ∧ s.loaded then .next { s with runState := .running, dsm := .sRx }
  else .refused .hostOpNotAllowed

/-- `HOST.RESET` (R270, R43): every state element takes its reset value. The interface table and the
parameters are not reset by the engine (R42); what stands outside the engine, the frames still to
be offered, the results of the coming transmissions, the output trace and its labels, and the
operations still to be run, stays (log 20). -/
def State.hostReset (s : State) : State :=
  { State.reset with
    cfg := s.cfg, iftab := s.iftab, rxq := s.rxq, txFail := s.txFail, txTrace := s.txTrace,
    outcomes := s.outcomes, drainLabels := s.drainLabels, ops := s.ops }

/-- `HOST.RESET` (R270). -/
def execHostReset (s : State) : Out := .next s.hostReset

/-! ### Fetching -/

/-- The next operation: the first word at the operation port, or, with none there, the engine's own
loop, `FRAME.STEP` for ever (R220, R269). The word is taken, except that of a receive that waits: its
call "does not return until the environment has a frame" (R261), so it stays first (log 29). -/
def fetch (s : State) : Decoded × State :=
  match s.ops with
  | [] => (.ok .frameStep, s)
  | w :: rest =>
    let d := decodeOp w
    (d, if d.receives && s.awaitsFrame then s else { s with ops := rest })

/-! ### Placing an instruction (log 7) -/

/-- The smallest IPv4 frame: EtherType `0x0800`, every other byte zero, on interface 0. -/
def blankIpv4 : Frame :=
  ⟨List.replicate 12 0 ++ beBytes 2 etherIpv4.toNat ++ List.replicate 28 0, 0⟩

/-- The engine waiting for a frame in its loop. -/
def State.inLoop (s : State) : State :=
  { s with runState := .running, faultCause := .none, dsm := .sRx, loaded := true }

/-- The engine before `HOST.START`. -/
def State.beforeStart (s : State) : State :=
  { s with runState := .unloaded, faultCause := .none, dsm := .sRx }

/-- What the call of an operation needs in place besides its word: the run state it acts in (R295),
for `HOST.START` a successful load (R269), and the operand that its contract requires in `F`
(R160, R222, R263), in the queue (R187) or at the receive port (R261). -/
def State.forCall (s : State) (code : Byte) : State :=
  match code.toNat with
  | 0x01 | 0x60 => s.beforeStart
  | 0x61 => { s.beforeStart with loaded := true }
  | 0x62 => s
  | 0x00 | 0x03 | 0x0B | 0x20 | 0x40 | 0x51 => { s.inLoop with f := blankIpv4 }
  | 0x39 => { s.inLoop with pq := blankIpv4 :: s.pq }
  | 0x41 | 0x50 => { s.inLoop with rxq := .frame blankIpv4 :: s.rxq }
  | _ => s.inLoop

/-- A table word placed where the next step fetches it: an operation word at the operation port, a
frame window at the receive port, on interface 0. -/
def State.place (s : State) (nbits w : Nat) : State :=
  if isOpWidth nbits then
    let t := s.forCall (BitVec.ofNat 8 w)
    { t with ops := opWord w :: t.ops }
  else
    { s.inLoop with rxq := .frame ⟨windowBytes w, 0⟩ :: s.rxq, ops := [] }

end Sys2Proof.Machine
end

