-- ==== Sys2Proof/Machine/Dispatch.lean ====
section
/-! DEFINITION. One arm for each row of spec/opcode_table.json. -/

namespace Sys2Proof.Machine

def exec (i : Instr) (s : State) : Host.Outcome State Fault Refusal :=
  match i with
  | .arpRequest h => Sys2Proof.Machine.execArpRequest h s
  | .arpReply h => Sys2Proof.Machine.execArpReply h s
  | .arpRsvd op h => Sys2Proof.Machine.execArpRsvd op h s
  | .ipv4EchoReq h => Sys2Proof.Machine.execIpv4EchoReq h s
  | .ipv4 h => Sys2Proof.Machine.execIpv4 h s
  | .ethRsvd h => Sys2Proof.Machine.execEthRsvd h s
  | .icmpEchoReply => Sys2Proof.Machine.execIcmpEchoReply s
  | .icmpDestUnreach x => Sys2Proof.Machine.execIcmpDestUnreach x s
  | .icmpTimeExceeded => Sys2Proof.Machine.execIcmpTimeExceeded s
  | .lpmBuild entries => Sys2Proof.Machine.execLpmBuild entries s
  | .lpmLookup d => Sys2Proof.Machine.execLpmLookup d s
  | .csum bs => Sys2Proof.Machine.execCsum bs s
  | .csumVerify bs => Sys2Proof.Machine.execCsumVerify bs s
  | .csumIncr oldSum oldField newField => Sys2Proof.Machine.execCsumIncr oldSum oldField newField s
  | .icmpSynth x t => Sys2Proof.Machine.execIcmpSynth x t s
  | .arpcLookup a => Sys2Proof.Machine.execArpcLookup a s
  | .arpcInsert a m => Sys2Proof.Machine.execArpcInsert a m s
  | .pqEnq x => Sys2Proof.Machine.execPqEnq x s
  | .pqDeq => Sys2Proof.Machine.execPqDeq s
  | .pqSize => Sys2Proof.Machine.execPqSize s
  | .pqDrain n => Sys2Proof.Machine.execPqDrain n s
  | .arpReqEmit nh n => Sys2Proof.Machine.execArpReqEmit nh n s
  | .l2Filter => Sys2Proof.Machine.execL2Filter s
  | .frameStep => Sys2Proof.Machine.execFrameStep s
  | .rx => Sys2Proof.Machine.execRx s
  | .tx x => Sys2Proof.Machine.execTx x s
  | .ifMac n => Sys2Proof.Machine.execIfMac n s
  | .ifIp n => Sys2Proof.Machine.execIfIp n s
  | .hostLoadRoutes entries => Sys2Proof.Machine.execHostLoadRoutes entries s
  | .hostStart => Sys2Proof.Machine.execHostStart s
  | .hostReset => Sys2Proof.Machine.execHostReset s

end Sys2Proof.Machine
end

