-- ==== Sys2Proof/Machine/Step.lean ====
section
/-! DEFINITION. One step: fetch the next operation and run it. With nothing at the operation port and
the engine running, that operation is `FRAME.STEP` (spec/45_dispatch.md R220). -/

namespace Sys2Proof.Machine

/-- One step of the machine. A step that runs a receive with no frame offered leaves the state as it is,
its word at the operation port too (R261, log 29). -/
def step (s : State) : Host.Outcome State Fault Refusal :=
  match fetch s with
  | (.ok i, t) => exec i t
  | (.bad e, _) => .refused (.undecodable e)

/-- A word of spec/opcode_table.json placed where the next step fetches its instruction (log 7). -/
def State.withFetchWord (s : State) (nbits w : Nat) : State := s.place nbits w

end Sys2Proof.Machine
end

