-- ==== Sys2Proof/Safety.lean ====
section
/-! DEFINITION. What counts as a safe run, in the terms the statements use: the launch premises of
spec/70_reset_and_hazards.md R313, the invariants of spec/10_state.md R29 to R36 and R40, the
postcondition of the synthesizer (spec/43_icmp_synth.md R162), frames built field by field, what a
drain keeps and sends (spec/44_arp.md R201), and legal dispatch traces (R27). -/

namespace Sys2Proof.Machine

/-! ### Premises -/

/-- A frame the environment must keep to (R272, R313 P4). -/
def State.frameOk (s : State) (fr : Frame) : Bool :=
  decide (fr.iface < s.nIf) && decide (ethHeaderLen ≤ fr.len) && decide (fr.len ≤ s.cfg.maxFrame) &&
    (!(fr.ethType == etherArp || fr.ethType == etherIpv4) || decide (windowLen ≤ fr.len))

/-- No coming transmission fails (R313 P5). -/
def State.txNeverFails (s : State) : Bool := s.txFail.all (! ·)

/-- The frame passes the link-layer filter of the interface it arrives on (R222). -/
def State.accepts (s : State) (fr : Frame) : Bool :=
  (s.ifRow fr.iface).any fun row => l2Accepts row fr

/-- The step on this frame enqueues it: a transit packet with a valid header, a live TTL, a Route, and
a next hop that is not in the cache (R237). -/
def State.enqueues (s : State) (fr : Frame) : Bool :=
  s.accepts fr && fr.ethType == etherIpv4 && !s.isLocal fr.iface fr.ipDst &&
    csumVerify fr.ipHeader && decide (2 ≤ fr.ipTtl) &&
    (lpmLookup s.rt fr.ipDst).any fun r => arpLookup s.arpc r.nextHop == none

/-- The step on this frame inserts a new key: a reply whose sender is not in the cache (R198, R182). -/
def State.insertsNewKey (s : State) (fr : Frame) : Bool :=
  s.accepts fr && fr.ethType == etherArp && fr.arpOp == 2 && arpLookup s.arpc fr.arpSpa == none

/-- R313 P6 for the step on this frame: room in the queue if it enqueues, room in the cache if it
inserts a new key. A drain puts back only what it has dequeued, so a queue within its bound has room
there. -/
def State.hasRoomFor (s : State) (fr : Frame) : Bool :=
  (!s.enqueues fr || below s.pq.length s.cfg.pqDepth) &&
    (!s.insertsNewKey fr || below s.arpc.length s.cfg.arpcDepth)

/-! ### Invariants -/

/-- The tables: a well-formed route table within its bound (R30, R31), unique cache keys within the
cache's bound (R34), a queue within its bound (R36). -/
def State.tablesOk (s : State) : Bool :=
  tableWf s.nIf s.rt && atMost s.rt.length s.cfg.maxRoutes &&
    decide (s.arpc.map ArpEntry.ip).Nodup && atMost s.arpc.length s.cfg.arpcDepth &&
    atMost s.pq.length s.cfg.pqDepth

/-- The status: `run_state = HALTED` iff `fault_cause ≠ NONE` iff `dsm = S_HALT` (R27, R29, R288), and
a running engine has loaded a table (R269). -/
def State.statusOk (s : State) : Bool :=
  ((s.runState == .halted) == (s.faultCause != .none)) &&
    ((s.runState == .halted) == (s.dsm == .sHalt)) &&
    (!(s.runState == .running) || s.loaded)

/-- What any pending entry must be for a drain to dispose of it: an IPv4 frame of at least 42 and at
most `MAX_FRAME` bytes on an interface that exists (R35, R40, R221, R226). -/
def State.entryOk (s : State) (q : Frame) : Bool :=
  decide (windowLen ≤ q.len) && decide (q.len ≤ s.cfg.maxFrame) && decide (q.iface < s.nIf) &&
    q.ethType == etherIpv4

/-- R40 (a) and (b) for one pending entry: besides `entryOk`, a checksum-valid header, TTL at least 1,
a Route, and a next hop the cache does not hold. -/
def State.pendingOk (s : State) (q : Frame) : Bool :=
  s.entryOk q && csumVerify q.ipHeader && decide (1 ≤ q.ipTtl) &&
    match lpmLookup s.rt q.ipDst with
    | none => false
    | some r => arpLookup s.arpc r.nextHop == none

/-- The engine by itself, with nothing at the operation port: tables and status in order, and while
running it rests in `S_RX` with every pending entry as R40 says. `MAX_FRAME ≥ 42` is R9's bound. -/
def State.engineOk (s : State) : Bool :=
  decide (windowLen ≤ s.cfg.maxFrame) && s.ops.isEmpty && s.tablesOk && s.statusOk &&
    (!(s.runState == .running) || (s.dsm == .sRx && s.pq.all s.pendingOk))

/-! ### Frames by their fields -/

/-- A local address for a frame received on the interface of `row` (R9, R191, R231). -/
abbrev State.ownAddress (s : State) (row : IfRow) (a : Ip) : Prop :=
  (s.cfg.localScope = .rxOnly ∧ a = row.ip) ∨
    (s.cfg.localScope = .anyInterface ∧ ∃ other ∈ s.iftab, a = other.ip)

/-- The 20 bytes of an IPv4 header (R86). -/
def ipv4Header (h : Ipv4Frame) : List Byte :=
  [h.ver ++ h.ihl, h.tos] ++ beBytes 2 h.totalLen.toNat ++ beBytes 2 h.ident.toNat ++
  beBytes 2 h.frag.toNat ++ [h.ttl, h.proto] ++ beBytes 2 h.csum.toNat ++
  beBytes 4 h.ipSrc.toNat ++ beBytes 4 h.ipDst.toNat

/-- The 8 bytes of an ICMP header (R88). -/
def icmpBytes (h : Ipv4Frame) : List Byte :=
  [h.icmpType, h.icmpCode] ++ beBytes 2 h.icmpCsum.toNat ++ beBytes 4 h.icmpRest.toNat

/-- The frame with its header checksum computed fresh (R147). -/
def withIpSum (h : Ipv4Frame) : Ipv4Frame :=
  { h with csum := csum (ipv4Header { h with csum := 0 }) }

/-- The ICMP frame R161 makes of an IPv4 frame, field by field: both checksums computed fresh, all the
other fields kept. -/
def synthFields (fn : TtlFn) (t : Byte) (h : Ipv4Frame) : Ipv4Frame :=
  let y := withIpSum { h with
    dst := h.src, src := h.dst, ihl := 5, totalLen := 28, ttl := ttlApply fn h.ttl, proto := 1,
    ipSrc := h.ipDst, ipDst := h.ipSrc, icmpType := t, icmpCode := 0, icmpCsum := 0, tail := [] }
  { y with icmpCsum := csum (icmpBytes y) }

/-- The frame after step 3f (R235): the TTL one less, the header checksum as computed from scratch. -/
def decFields (h : Ipv4Frame) : Ipv4Frame := withIpSum { h with ttl := h.ttl - 1 }

/-- A pending entry by its fields: the IPv4 frame and the interface it arrived on (R35). -/
abbrev Pending := Ipv4Frame × Nat

/-- The pending entry as a frame. -/
def pendingFrame (e : Pending) : Frame := ⟨encodeIpv4 e.1, e.2⟩

/-- The 42 bytes of an emitted ARP request, as R205 lists them. -/
def requestBytes (tha : Mac) (row : IfRow) (nh : Ip) : List Byte :=
  List.replicate 6 0xFF ++ beBytes 6 row.mac.toNat ++
  [0x08, 0x06, 0x00, 0x01, 0x08, 0x00, 6, 4, 0x00, 0x01] ++
  beBytes 6 row.mac.toNat ++ beBytes 4 row.ip.toNat ++ beBytes 6 tha.toNat ++ beBytes 4 nh.toNat

/-- R162: `y` is what `ICMP.SYNTH(x, t)` makes of `x`. -/
structure SynthPost (fn : TtlFn) (t : Byte) (x y : Frame) : Prop where
  len : y.len = 42
  iface : y.iface = x.iface
  ipValid : csumVerify y.ipHeader = true
  icmpValid : csumVerify y.icmpHeader = true
  ethDst : y.ethDst = x.ethSrc
  ethSrc : y.ethSrc = x.ethDst
  ipSrc : y.ipSrc = x.ipDst
  ipDst : y.ipDst = x.ipSrc
  ihl : y.ipIhl = 5
  ver : y.ipVer = x.ipVer
  proto : y.ipProto = 1
  totalLen : y.ipLen = 28
  ttl : y.ipTtl = ttlApply fn x.ipTtl
  icmpType : y.icmpType = t
  icmpCode : y.icmpCode = 0
  kept : ∀ i, i = 12 ∨ i = 13 ∨ i = 15 ∨ (18 ≤ i ∧ i ≤ 21) ∨ (38 ≤ i ∧ i ≤ 41) → y.buf[i]? = x.buf[i]?

/-! ### The drain (R200 to R202) -/

/-- The cache after `ARPC.INSERT(a, m)` with room for a new key (R182). -/
def State.learns (s : State) (a : Ip) (m : Mac) : List ArpEntry :=
  match arpLookup s.arpc a, s.cfg.arpDupPolicy with
  | none, _ => s.arpc ++ [⟨a, m⟩]
  | some _, .keepFirst => s.arpc
  | some _, .overwrite => arpReplace s.arpc a m

/-- The frame case (b) of R201 sends of an entry. -/
def State.released (s : State) (mac : Mac) (row : IfRow) (r : Route) (h : Ipv4Frame) : Frame :=
  ⟨encodeIpv4 { h with dst := mac, src := if s.cfg.drainRewriteSrc then row.mac else h.src }, r.iface⟩

/-- The frame a drain for `key` sends for one entry; none if it is kept (R201). -/
def State.drainSends (s : State) (key : Ip) (e : Pending) : Option Frame :=
  match lpmLookup s.rt e.1.ipDst with
  | none => some ⟨encodeIpv4 (synthFields s.cfg.synthTtlFn 3 e.1), e.2⟩
  | some r =>
    match arpLookup s.arpc key, s.iftab[r.iface]? with
    | some mac, some row => if r.nextHop = key then some (s.released mac row r e.1) else none
    | _, _ => none

/-- How a drain for `key` disposes of one entry: case (a), (b) or (c) of R201. -/
def State.drainCase (s : State) (key : Ip) (e : Pending) : DrainLabel :=
  match lpmLookup s.rt e.1.ipDst with
  | none => .unreach
  | some r => if r.nextHop = key ∧ arpLookup s.arpc key ≠ none then .tx else .keep

/-- The entries a drain for `key` puts back. -/
def State.drainKeeps (s : State) (key : Ip) (e : Pending) : Bool := s.drainCase key e == .keep

/-- Entries a drain can dispose of: they fit a frame buffer and name an interface (R35, R221). -/
def State.drainable (s : State) (es : List Pending) : Bool :=
  es.all fun e => decide (windowLen + e.1.tail.length ≤ s.cfg.maxFrame) && decide (e.2 < s.nIf)

/-- A state with the frame register `F` blanked, for statements about everything but `F`. -/
def Out.blankF : Out → Out
  | .next t => .next { t with f := Frame.empty }
  | .fault r => .fault r
  | .refused r => .refused r

/-! ### Dispatch traces (R27) -/

/-- Each state is followed by one that R27's table lists. -/
def legalTrace : List Dsm → Bool
  | a :: b :: rest => a.edge b && legalTrace (b :: rest)
  | [_] => true
  | [] => true

/-- The trace is legal and ends in the present state. -/
def State.traceOk (s : State) : Bool := legalTrace s.dsmTrace && s.dsmTrace.getLast? == some s.dsm

end Sys2Proof.Machine
end

