-- ==== Sys2Proof/Certificates/Slice0/Obligations.lean ====
section
/-! DEFINITION. The statements for the provers, in the order of the spec's files: encoding, steps,
checksum, lookup, synthesizer, tables, ARP, IPv4 path, ports and host, whole machine. A statement that
gives a next state as a record says by it that every other field is unchanged. -/

open Sys2Proof Sys2Proof.Machine

/-! ### Encoding (spec/30_encoding.md) -/

/-- Decoding what was encoded gives the instruction back: no operand loses a bit. The operand layout
of operation words is the model's own (log 4). -/
def Obligations.DecodeInvertsEncode : Prop :=
  ∀ i : Instr, i.wellFormed = true → decode i.port (encode i) = .ok i

/-- A frame that decodes is exactly the word of the instruction it decodes to, which is well formed. -/
def Obligations.FrameDecodeLosesNoBit : Prop :=
  ∀ (b : List Byte) (i : Instr), decodeFrame b = .ok i →
    i.wellFormed = true ∧ i.port = .rx ∧ encode i = b

/-- An operation word that decodes is exactly the word of the instruction it decodes to, which is well
formed. The operand layout is the model's own (log 4). -/
def Obligations.OperationDecodeLosesNoBit : Prop :=
  ∀ (b : List Byte) (i : Instr), decodeOp b = .ok i →
    i.wellFormed = true ∧ i.port = .op ∧ encode i = b

/-- R96: the six tests in order, on the bytes of the frame; with R101 and R102, whatever no earlier
test takes is reserved. A shorter frame is a runt unless its EtherType is reserved and its Ethernet
header complete (R104, R225, R226). -/
def Obligations.FramesAreClassifiedInOrder : Prop :=
  ∀ b : List Byte,
    (42 ≤ b.length →
      ∃ i, decodeFrame b = .ok i ∧ i.frameClass = some (
        if b[12]? = some 0x08 ∧ b[13]? = some 0x06 then
          if b[20]? = some 0x00 ∧ b[21]? = some 0x01 then .arpRequest
          else if b[20]? = some 0x00 ∧ b[21]? = some 0x02 then .arpReply
          else .arpRsvd
        else if b[12]? = some 0x08 ∧ b[13]? = some 0x00 then
          if b[23]? = some 0x01 ∧ b[34]? = some 0x08 then .ipv4EchoReq else .ipv4
        else .ethRsvd)) ∧
    (b.length < 42 →
      if 14 ≤ b.length ∧ ¬(b[12]? = some 0x08 ∧ (b[13]? = some 0x06 ∨ b[13]? = some 0x00)) then
        ∃ h, decodeFrame b = .ok (.ethRsvd h)
      else decodeFrame b = .bad .runtFrame)

/-- The masks and patterns of spec/opcode_table.json over the first 42 bytes, read in the table's order
of priority, select the class the decoder gives. -/
def Obligations.TableMasksSelectTheClass : Prop :=
  ∀ (b : List Byte) (i : Instr), 42 ≤ b.length → decodeFrame b = .ok i →
    classByTable (BitVec.ofNat 336 (beNat (b.take 42))) = i.frameClass

/-- Words written out byte by byte from R82 to R99 decode to the instructions they stand for. The
bytes after an operation code are the model's layout (log 4). -/
def Obligations.SpecWordsDecode : Prop :=
  decodeFrame ([0xff, 0xff, 0xff, 0xff, 0xff, 0xff, 0x02, 0x00, 0x00, 0x00, 0xaa, 0x01, 0x08, 0x06,
      0x00, 0x01, 0x08, 0x00, 0x06, 0x04, 0x00, 0x01, 0x02, 0x00, 0x00, 0x00, 0xaa, 0x01,
      192, 168, 0, 9, 0, 0, 0, 0, 0, 0, 192, 168, 0, 1]) =
    .ok (.arpRequest {
      dst := 0xffffffffffff, src := 0x02000000aa01, htype := 1, ptype := 0x0800, hlen := 6, plen := 4,
      sha := 0x02000000aa01, spa := 0xC0A80009, tha := 0, tpa := 0xC0A80001, pad := [] }) ∧
  decodeFrame ([0x02, 0, 0, 0, 1, 0, 0x02, 0, 0, 0, 0xaa, 0x01, 0x86, 0xDD, 7]) =
    .ok (.ethRsvd { dst := 0x020000000100, src := 0x02000000aa01, etype := 0x86DD, payload := [7] }) ∧
  decodeOp [0x00] = .ok .icmpEchoReply ∧
  decodeOp [0x0B] = .ok .icmpTimeExceeded ∧
  decodeOp [0x02, 10, 1, 2, 4] = .ok (.lpmLookup 0x0A010204) ∧
  decodeOp [0x12, 0xB1, 0xE6, 0x40, 0x06, 0x3F, 0x06] = .ok (.csumIncr 0xB1E6 0x4006 0x3F06) ∧
  decodeOp [0x31, 192, 168, 2, 2, 2, 0, 0, 0, 0xcc, 2] =
    .ok (.arpcInsert 0xC0A80202 0x02000000cc02) ∧
  decodeOp [0x41] = .ok .frameStep ∧
  decodeOp [0x51, 0x02] = .ok (.tx .G) ∧
  decodeOp [0x62] = .ok .hostReset

/-- An operation code that neither R98 nor R99 lists is refused by name (93_implementation_defined.md
I21), whatever follows it. -/
def Obligations.ReservedOperationCodesAreRefused : Prop :=
  ∀ (c : Byte) (b : List Byte),
    c ∉ ([0x00, 0x03, 0x0B, 0x01, 0x02, 0x10, 0x11, 0x12, 0x20, 0x30, 0x31, 0x38, 0x39, 0x3A, 0x3B,
      0x3C, 0x40, 0x41, 0x50, 0x51, 0x52, 0x53, 0x60, 0x61, 0x62] : List Byte) →
    decodeOp (c :: b) = .bad (.reservedOp c)

/-! ### Steps (spec/45_dispatch.md R220 to R226, spec/46_host_interface.md R261, R262) -/

/-- A step runs the operation whose word is first at the operation port (log 4) and takes the word; a
receive that waits does not return (R261), so it leaves the state as it is and its word there (log 29);
bytes that are no word are refused. With no word there a step runs `FRAME.STEP` (R220). -/
def Obligations.StepRunsTheOperationWord : Prop :=
  ∀ (s : State) (w : List Byte) (rest : List (List Byte)),
    (s.ops = [] → step s = exec .frameStep s) ∧
    (s.ops = w :: rest →
      (∀ i, decodeOp w = .ok i →
        let waits := (i = .rx ∨ i = .frameStep) ∧ s.runState = .running ∧ s.dsm = .sRx ∧ s.rxq = []
        (waits → step s = .next s) ∧ (¬ waits → step s = exec i { s with ops := rest })) ∧
      (∀ e, decodeOp w = .bad e → step s = .refused (.undecodable e)))

/-- R220: in the loop, a frame that is admitted, passes the link-layer filter and decodes to an
instruction is run by exactly one step, as that instruction on the state with the frame in `F`. -/
def Obligations.StepRunsTheReceivedFrame : Prop :=
  ∀ (s : State) (fr : Frame) (rest : List RxItem) (row : IfRow) (i : Instr),
    s.ops = [] → s.runState = .running → s.dsm = .sRx → s.rxq = .frame fr :: rest →
    s.iftab[fr.iface]? = some row → 14 ≤ fr.buf.length → fr.buf.length ≤ s.cfg.maxFrame →
    (fr.ethDst = row.mac ∨ fr.ethDst = 0xFFFFFFFFFFFF) → decodeFrame fr.buf = .ok i →
    step s = exec i { s with
      rxq := rest, f := fr, dsm := .sEtype, dsmTrace := s.dsmTrace ++ [.sL2, .sEtype] }

/-- R261 and R262: `RX` loads the frame that is offered and enters `S_L2` if the frame is admissible (if
not, `AdmissionTestsInOrder`), and from there `FRAME.STEP` does what it does from `S_RX`; an I/O error
halts the engine with `RX_IO`. With nothing offered the engine waits: the model gives that a step that
changes nothing (log 6). Where R261 does not allow the call, nothing happens (log 10), and `FRAME.STEP`
in the middle of a step is refused (log 12). -/
def Obligations.ReceiveLoadsOneFrame : Prop :=
  ∀ s : State, s.runState = .running →
    (s.dsm = .sRx →
      (∀ (fr : Frame) (rest : List RxItem), s.rxq = .frame fr :: rest →
        fr.iface < s.iftab.length → 14 ≤ fr.buf.length → fr.buf.length ≤ s.cfg.maxFrame →
        let t : State := { s with
          rxq := rest, f := fr, dsm := .sL2, dsmTrace := s.dsmTrace ++ [.sL2] }
        exec .rx s = .next t ∧ exec .frameStep t = exec .frameStep s) ∧
      (∀ rest : List RxItem, s.rxq = .ioError :: rest →
        let t : State := { s with
          rxq := rest, dsm := .sHalt, dsmTrace := s.dsmTrace ++ [.sHalt],
          runState := .halted, faultCause := .rxIo }
        exec .rx s = .next t ∧ exec .frameStep s = .next t) ∧
      (s.rxq = [] → exec .rx s = .next s ∧ exec .frameStep s = .next s)) ∧
    (s.dsm ≠ .sRx → exec .rx s = .next s) ∧
    (s.dsm ≠ .sRx → s.dsm ≠ .sL2 → exec .frameStep s = .refused .midStepState)

/-- R221, R73: a frame shorter than an Ethernet header, one that is too long and one on an interface
that does not exist halt the engine with their cause, in `FRAME.STEP` and in `RX` by itself, whose faults
these are too (R261). Tested in that order, which is D12's, or the other way round, as R221 and R290
write: the parameter is the model's own (log 30). -/
def Obligations.AdmissionTestsInOrder : Prop :=
  ∀ (s : State) (fr : Frame) (rest : List RxItem),
    s.runState = .running → s.dsm = .sRx → s.rxq = .frame fr :: rest →
    let t : State := { s with
      rxq := rest, f := fr, dsm := .sHalt, dsmTrace := s.dsmTrace ++ [.sL2, .sHalt],
      runState := .halted }
    ∀ i : Instr, i = .frameStep ∨ i = .rx →
      (s.cfg.admissionOrder = .lengthFirst →
        (fr.buf.length < 14 → exec i s = .next { t with faultCause := .runtFrame }) ∧
        (14 ≤ fr.buf.length → s.cfg.maxFrame < fr.buf.length →
          exec i s = .next { t with faultCause := .oversizeFrame }) ∧
        (14 ≤ fr.buf.length → fr.buf.length ≤ s.cfg.maxFrame → s.iftab.length ≤ fr.iface →
          exec i s = .next { t with faultCause := .badIface })) ∧
      (s.cfg.admissionOrder = .ifaceFirst →
        (s.iftab.length ≤ fr.iface → exec i s = .next { t with faultCause := .badIface }) ∧
        (fr.iface < s.iftab.length → s.cfg.maxFrame < fr.buf.length →
          exec i s = .next { t with faultCause := .oversizeFrame }) ∧
        (fr.iface < s.iftab.length → fr.buf.length ≤ s.cfg.maxFrame → fr.buf.length < 14 →
          exec i s = .next { t with faultCause := .runtFrame }))

/-- R222, R225, R226: an admitted frame to another address is dropped whatever else it is; one that
passes and whose EtherType is ARP or IPv4 but that is shorter than 42 bytes halts the engine. -/
def Obligations.FilterComesBeforePathEntry : Prop :=
  ∀ (s : State) (fr : Frame) (rest : List RxItem) (row : IfRow),
    s.runState = .running → s.dsm = .sRx → s.rxq = .frame fr :: rest →
    s.iftab[fr.iface]? = some row → 14 ≤ fr.buf.length → fr.buf.length ≤ s.cfg.maxFrame →
    (fr.ethDst ≠ row.mac → fr.ethDst ≠ 0xFFFFFFFFFFFF →
      exec .frameStep s = .next { s with
        rxq := rest, f := fr, dsm := .sRx, dsmTrace := s.dsmTrace ++ [.sL2, .sRx],
        outcomes := s.outcomes ++ [.dropL2] }) ∧
    ((fr.ethDst = row.mac ∨ fr.ethDst = 0xFFFFFFFFFFFF) →
      (fr.ethType = 0x0806 ∨ fr.ethType = 0x0800) → fr.buf.length < 42 →
      exec .frameStep s = .next { s with
        rxq := rest, f := fr, dsm := .sHalt, dsmTrace := s.dsmTrace ++ [.sL2, .sEtype, .sHalt],
        runState := .halted, faultCause := .runtFrame })

/-- R288 and R295: an engine that is not running changes nothing, except by the host operations and
`LPM.BUILD`; a halted one is left by `HOST.RESET` only. That an operation that does not act answers the
unchanged state is the model's choice (log 10). -/
def Obligations.StoppedEngineChangesNothing : Prop :=
  ∀ (i : Instr) (s : State),
    (s.runState ≠ .running → (∀ e, i ≠ .lpmBuild e) → (∀ e, i ≠ .hostLoadRoutes e) → i ≠ .hostStart →
      i ≠ .hostReset → exec i s = .next s) ∧
    (s.runState ≠ .unloaded → (∀ e, exec (.lpmBuild e) s = .next s) ∧
      (∀ e, exec (.hostLoadRoutes e) s = .refused .hostOpNotAllowed) ∧
      exec .hostStart s = .refused .hostOpNotAllowed)

/-! ### Checksum (spec/42_checksum.md) -/

/-- R141: the folding loop, given enough rounds, is the closed form; it is congruent to its argument
modulo `0xFFFF`, fits 16 bits, is 0 only for 0, and takes every positive multiple of `0xFFFF` to
`0xFFFF`. `OCSUM` is the folded sum. -/
def Obligations.FoldingLoopIsTheClosedForm : Prop :=
  ∀ s fuel : Nat, s ≤ fuel →
    fold16Loop fuel s = fold16 s ∧ fold16 s % 0xFFFF = s % 0xFFFF ∧ fold16 s ≤ 0xFFFF ∧
      (fold16 s = 0 ↔ s = 0) ∧ (0 < s → s % 0xFFFF = 0 → fold16 s = 0xFFFF) ∧
      ∀ bs : List Byte, wordSum bs = s → ocsum bs = fold16Loop fuel s

/-- R140 to R142, R149: `CSUM` of an even number of bytes returns the complement of the folded sum of
its big-endian words; of an odd number it is refused. -/
def Obligations.CsumReturnsTheComplementedSum : Prop :=
  ∀ (s : State) (bs : List Byte), s.runState = .running →
    (bs.length % 2 = 0 →
      ∃ c : Half, exec (.csum bs) s = .next { s with ret := .half c } ∧
        c.toNat = 0xFFFF - fold16 (∑ j ∈ Finset.range (bs.length / 2),
          ((bs.getD (2 * j) 0).toNat * 256 + (bs.getD (2 * j + 1) 0).toNat))) ∧
    (bs.length % 2 = 1 → exec (.csum bs) s = .refused .oddChecksumLength)

/-- R143: `CSUM.VERIFY` answers whether the word sum is a positive multiple of `0xFFFF`. -/
def Obligations.VerifyTestsTheFoldedSum : Prop :=
  ∀ (s : State) (bs : List Byte), s.runState = .running →
    (bs.length % 2 = 0 →
      ∃ b : Bool, exec (.csumVerify bs) s = .next { s with ret := .flag b } ∧
        (b = true ↔ csum bs = 0) ∧
        (b = true ↔ 0 < wordSum bs ∧ wordSum bs % 0xFFFF = 0)) ∧
    (bs.length % 2 = 1 → exec (.csumVerify bs) s = .refused .oddChecksumLength)

/-- R144: `CSUM.INCR` returns `~fold16(~hc + ~m + m')`, the fold being the loop of R141. -/
def Obligations.IncrReturnsTheFormula : Prop :=
  ∀ (s : State) (hc m m' : Half), s.runState = .running →
    ∃ c : Half, exec (.csumIncr hc m m') s = .next { s with ret := .half c } ∧
      c.toNat = 0xFFFF - fold16Loop 3 ((~~~hc).toNat + (~~~m).toNat + m'.toNat)

/-- R150: a header that carries the checksum of itself with the field zeroed verifies. -/
def Obligations.GeneratedChecksumVerifies : Prop :=
  ∀ pre post : List Byte, pre.length % 2 = 0 → post.length % 2 = 0 →
    csumVerify (pre ++ beBytes 2 (csum (pre ++ [0, 0] ++ post)).toNat ++ post) = true

/-- R145: for a header that verifies, with the checksum field at `c` and another word at `a`, the
incremental update for a new value of that word is the checksum recomputed from scratch, under the two
provisos of the rule, which the TTL decrement of a packet with TTL at least 2 meets. -/
def Obligations.IncrementalUpdateIsRecomputation : Prop :=
  ∀ (hd : List Byte) (c a : Nat) (m' : Half),
    hd.length % 2 = 0 → c % 2 = 0 → a % 2 = 0 → c ≠ a → c + 2 ≤ hd.length → a + 2 ≤ hd.length →
    csumVerify hd = true →
    let hc : Half := BitVec.ofNat 16 (field hd c 2)
    let m : Half := BitVec.ofNat 16 (field hd a 2)
    let z := patch c [0, 0] (patch a (beBytes 2 m'.toNat) hd)
    (0 < (~~~hc).toNat + (~~~m).toNat + m'.toNat ∧ (∃ b ∈ z, b ≠ 0)) ∨
      (0x0200 ≤ m.toNat ∧ m' = m - 0x0100) →
    csumIncr hc m m' = csum z

/-! ### Lookup (spec/41_lpm_lookup.md) -/

/-- R130, with R123: the Route returned matches, no matching Route is longer, and none of the same
length stands before it; none is returned exactly when none matches. -/
def Obligations.LookupReturnsLongestFirst : Prop :=
  ∀ (rt : List Route) (d : Ip),
    match lpmLookup rt d with
    | none => ∀ r ∈ rt, d &&& r.mask ≠ r.pfx
    | some r => ∃ k : Nat, rt[k]? = some r ∧ d &&& r.mask = r.pfx ∧
        ∀ (j : Nat) (q : Route), rt[j]? = some q → d &&& q.mask = q.pfx →
          maskLen q.mask < maskLen r.mask ∨ (maskLen q.mask = maskLen r.mask ∧ k ≤ j)

/-- R124: the mask length of the contiguous mask of length `l` is `l`, and lengths order masks as their
values do. -/
def Obligations.MaskLengthOrdersMasks : Prop :=
  ∀ l k : Nat, l ≤ 32 → k ≤ 32 →
    maskLen (maskOf l) = l ∧ (maskLen (maskOf k) < maskLen (maskOf l) ↔ maskOf k < maskOf l)

/-- R126, R127: on a well-formed table the trie's lookup is the reference lookup. -/
def Obligations.TrieLookupIsTheScan : Prop :=
  ∀ (nIf : Nat) (rt : List Route) (d : Ip),
    tableWf nIf rt = true → trieLookup rt d = lpmLookup rt d

/-- R122 as an operation: the result goes to `cur_route` (and to the model's result port, log 5), and
nothing else changes; on an ill-formed table it is refused (R121). -/
def Obligations.LookupWritesCurRouteOnly : Prop :=
  ∀ (s : State) (d : Ip), s.runState = .running →
    (tableWf s.iftab.length s.rt = true →
      exec (.lpmLookup d) s = .next { s with
        curRoute := lpmLookup s.rt d, ret := .optRoute (lpmLookup s.rt d) }) ∧
    (tableWf s.iftab.length s.rt = false → exec (.lpmLookup d) s = .refused .illFormedTable)

/-- R120, R121: `LPM.BUILD` makes the entries, in order, the route table; it gives a table that R121 or
`MAX_ROUTES` forbids no meaning (log 15). -/
def Obligations.BuildSetsTheTable : Prop :=
  ∀ (s : State) (entries : List Route), s.runState = .unloaded →
    let good := (∀ r ∈ entries, (∃ l ≤ 32, r.mask = maskOf l) ∧ r.pfx = r.pfx &&& r.mask ∧
        r.iface < s.iftab.length) ∧ ∀ m, s.cfg.maxRoutes = some m → entries.length ≤ m
    (good → exec (.lpmBuild entries) s = .next { s with rt := entries }) ∧
    (¬ good → exec (.lpmBuild entries) s = .refused .illFormedTable)

/-! ### Synthesizer (spec/43_icmp_synth.md) -/

/-- R162, R167: on a frame register that R160 admits, for every 8-bit type, `ICMP.SYNTH` writes that
register only, and the frame written satisfies the postcondition. -/
def Obligations.SynthMeetsItsPostcondition : Prop :=
  ∀ (s : State) (x : FrameReg) (t : Byte), s.runState = .running →
    42 ≤ (s.frame x).buf.length → (s.frame x).ethType = 0x0800 →
    ∃ y : Frame, exec (.icmpSynth x t) s = .next (s.setFrame x y) ∧
      SynthPost s.cfg.synthTtlFn t (s.frame x) y

/-- R161: the effect of `ICMP.SYNTH` on every field of the frame, with both checksums computed from
scratch over the final header. -/
def Obligations.SynthRewritesEveryField : Prop :=
  ∀ (s : State) (x : FrameReg) (t : Byte) (h : Ipv4Frame) (i : Nat),
    s.runState = .running → s.frame x = ⟨encodeIpv4 h, i⟩ →
    exec (.icmpSynth x t) s =
      .next (s.setFrame x ⟨encodeIpv4 (synthFields s.cfg.synthTtlFn t h), i⟩)

/-- R164 to R166: the three forms are the synthesizer on `F`, `X`, `F` with types 0, 3 and 11, and they
complete on every frame that R160 admits; on any other they, and the synthesizer itself, are refused:
the model's choice (log 16). -/
def Obligations.SynthFormsHaveFixedTypes : Prop :=
  ∀ (s : State) (h : Ipv4Frame) (i : Nat), s.runState = .running →
    (s.f = ⟨encodeIpv4 h, i⟩ →
      exec .icmpEchoReply s =
        .next { s with f := ⟨encodeIpv4 (synthFields s.cfg.synthTtlFn 0 h), i⟩ } ∧
      exec .icmpTimeExceeded s =
        .next { s with f := ⟨encodeIpv4 (synthFields s.cfg.synthTtlFn 11 h), i⟩ }) ∧
    (∀ x : FrameReg, s.frame x = ⟨encodeIpv4 h, i⟩ →
      exec (.icmpDestUnreach x) s =
        .next (s.setFrame x ⟨encodeIpv4 (synthFields s.cfg.synthTtlFn 3 h), i⟩)) ∧
    (s.f.buf.length < 42 ∨ s.f.ethType ≠ 0x0800 →
      exec .icmpEchoReply s = .refused .synthPrecondition ∧
      exec .icmpTimeExceeded s = .refused .synthPrecondition) ∧
    ∀ x : FrameReg, (s.frame x).buf.length < 42 ∨ (s.frame x).ethType ≠ 0x0800 →
      exec (.icmpDestUnreach x) s = .refused .synthPrecondition ∧
      ∀ t : Byte, exec (.icmpSynth x t) s = .refused .synthPrecondition

/-! ### Cache and queue (spec/44_arp.md R180 to R188) -/

/-- R180: the address of the first entry in creation order whose key is `a`, or a miss; reading changes
nothing but the model's result port (log 5). -/
def Obligations.CacheLookupFindsTheFirst : Prop :=
  ∀ (s : State) (a : Ip), s.runState = .running →
    exec (.arpcLookup a) s = .next { s with
      ret := .optMac ((s.arpc.find? fun e => e.ip == a).map ArpEntry.mac) }

/-- R182: a key that is present changes nothing under `keep_first` and its address under `overwrite`
(keys are unique, R34, `TablesStayInOrder`); a new key goes to the end, or raises `CAPACITY` when the
cache is full. -/
def Obligations.CacheInsertFollowsThePolicy : Prop :=
  ∀ (s : State) (a : Ip) (m : Mac), s.runState = .running →
    (∀ before e after, s.arpc = before ++ e :: after → e.ip = a → (∀ q ∈ before, q.ip ≠ a) →
      (s.cfg.arpDupPolicy = .keepFirst → exec (.arpcInsert a m) s = .next s) ∧
      (s.cfg.arpDupPolicy = .overwrite → (∀ q ∈ after, q.ip ≠ a) →
        exec (.arpcInsert a m) s = .next { s with arpc := before ++ ⟨a, m⟩ :: after })) ∧
    ((∀ q ∈ s.arpc, q.ip ≠ a) →
      ((∀ d, s.cfg.arpcDepth = some d → s.arpc.length < d) →
        exec (.arpcInsert a m) s = .next { s with arpc := s.arpc ++ [⟨a, m⟩] }) ∧
      (∀ d, s.cfg.arpcDepth = some d → d ≤ s.arpc.length →
        exec (.arpcInsert a m) s = .next { s with
          dsm := .sHalt, dsmTrace := s.dsmTrace ++ [.sHalt],
          runState := .halted, faultCause := .capacity }))

/-- R186 to R188: `PQ.ENQ` puts a copy of the register at the tail or raises `CAPACITY`; `PQ.DEQ` moves
the head into `P` and returns it, and is refused on an empty queue (93_implementation_defined.md I11);
`PQ.SIZE` returns the number of entries. -/
def Obligations.QueueIsFirstInFirstOut : Prop :=
  ∀ (s : State) (x : FrameReg), s.runState = .running →
    ((∀ d, s.cfg.pqDepth = some d → s.pq.length < d) →
      exec (.pqEnq x) s = .next { s with pq := s.pq ++ [s.frame x] }) ∧
    (∀ d, s.cfg.pqDepth = some d → d ≤ s.pq.length →
      exec (.pqEnq x) s = .next { s with
        dsm := .sHalt, dsmTrace := s.dsmTrace ++ [.sHalt],
        runState := .halted, faultCause := .capacity }) ∧
    (∀ q rest, s.pq = q :: rest →
      exec .pqDeq s = .next { s with pq := rest, p := q, ret := .frame q }) ∧
    (s.pq = [] → exec .pqDeq s = .refused .dequeueEmpty) ∧
    exec .pqSize s = .next { s with ret := .nat s.pq.length }

/-! ### ARP (spec/44_arp.md R190 to R207) -/

/-- R191, with R192 and R264: a request for a local address is answered in place on the receiving
interface, with the requester's addresses as targets; any other is dropped; a transmission that fails
halts the engine. -/
def Obligations.ArpRequestIsAnsweredInPlace : Prop :=
  ∀ (s : State) (h : ArpFrame) (row : IfRow),
    s.runState = .running → s.iftab[s.f.iface]? = some row →
    let y : Frame := ⟨encodeArp 2 { h with
      dst := h.src, src := if s.cfg.arpReplyEth = .swap then h.dst else row.mac,
      sha := row.mac, spa := row.ip, tha := h.sha, tpa := h.spa }, s.f.iface⟩
    (¬ s.ownAddress row h.tpa →
      exec (.arpRequest h) s = .next { s with
        f := ⟨encodeArp 1 h, s.f.iface⟩, dsm := .sRx,
        dsmTrace := s.dsmTrace ++ [.sArpOp, .sArpReq, .sRx],
        outcomes := s.outcomes ++ [.dropArpNotLocal] }) ∧
    (s.ownAddress row h.tpa → 42 + h.pad.length ≤ s.cfg.maxFrame → s.txFails = false →
      exec (.arpRequest h) s = .next { s with
        f := y, txFail := s.txFail.tail, txTrace := s.txTrace ++ [y], dsm := .sRx,
        dsmTrace := s.dsmTrace ++ [.sArpOp, .sArpReq, .sRx],
        outcomes := s.outcomes ++ [.arpReplied] }) ∧
    (s.ownAddress row h.tpa → 42 + h.pad.length ≤ s.cfg.maxFrame → s.txFails = true →
      exec (.arpRequest h) s = .next { s with
        f := y, txFail := s.txFail.tail, dsm := .sHalt,
        dsmTrace := s.dsmTrace ++ [.sArpOp, .sArpReq, .sHalt],
        runState := .halted, faultCause := .txIo })

/-- R194, R224: a frame with a reserved ARP operation or a reserved EtherType is dropped; it stays in
`F`, and nothing is transmitted or stored. -/
def Obligations.ReservedFramesAreDropped : Prop :=
  ∀ (s : State) (op : Half) (a : ArpFrame) (h : EthFrame), s.runState = .running →
    exec (.arpRsvd op a) s = .next { s with
      f := ⟨encodeArp op a, s.f.iface⟩, dsm := .sRx, dsmTrace := s.dsmTrace ++ [.sArpOp, .sRx],
      outcomes := s.outcomes ++ [.dropArpOp] } ∧
    exec (.ethRsvd h) s = .next { s with
      f := ⟨encodeEth h, s.f.iface⟩, dsm := .sRx, dsmTrace := s.dsmTrace ++ [.sRx],
      outcomes := s.outcomes ++ [.dropEtype] }

/-- R200, R201: a drain visits each entry that was queued, once, oldest first, and disposes of it by its
case: what it sends, what it puts back, in order, and nothing else; only the drain's own registers, the
queue, the traces and the results of the transmissions change. That `PQ.DRAIN` run by itself enters its
loop from the state it is called in and leaves `dsm` at `S_RX` is the model's choice (log 12). An entry too short to hold a destination, which no run
of the engine queues, stops (log 9). -/
def Obligations.DrainDisposesOfEachEntryOnce : Prop :=
  ∀ (s : State) (key : Ip), s.runState = .running →
    (∀ es : List Pending,
      tableWf s.iftab.length s.rt = true → s.pq = es.map pendingFrame →
      s.drainable es = true → atMost s.pq.length s.cfg.pqDepth = true → s.txNeverFails = true →
      ∃ t : State, exec (.pqDrain key) s = .next t ∧
        t.pq = (es.filter (s.drainKeeps key)).map pendingFrame ∧
        t.txTrace = s.txTrace ++ es.filterMap (s.drainSends key) ∧
        t.txFail = s.txFail.drop (es.filterMap (s.drainSends key)).length ∧
        t.drainLabels = s.drainLabels ++ es.map (s.drainCase key) ∧
        t.drainKey = key ∧ t.drainN = es.length ∧ t.drainI = es.length ∧ t.dsm = .sRx ∧
        t.dsmTrace = s.dsmTrace ++ es.flatMap (fun _ => [.sDrainNext, .sDrainEntry]) ++
          [.sDrainNext, .sRx] ∧
        t = { s with
          p := t.p, curDst := t.curDst, curRoute := t.curRoute, curMac := t.curMac,
          drainN := t.drainN, drainI := t.drainI, drainKey := t.drainKey, dsm := t.dsm, pq := t.pq,
          txFail := t.txFail, txTrace := t.txTrace, drainLabels := t.drainLabels,
          dsmTrace := t.dsmTrace }) ∧
    (∀ q rest, s.pq = q :: rest → q.buf.length < 34 →
      exec (.pqDrain key) s = .fault .beyondFrame)

/-- R67 for a drain: when the transmission for `e` fails after those for `before` succeeded, what was
sent stays sent, `e` is lost, the entries not visited stay in order before those put back, and the
engine halts with `TX_IO`. -/
def Obligations.FailedDrainStaysPartlyDone : Prop :=
  ∀ (s : State) (key : Ip) (before : List Pending) (e : Pending) (after : List Pending)
    (more : List Bool),
    s.runState = .running → tableWf s.iftab.length s.rt = true →
    s.pq = (before ++ e :: after).map pendingFrame → s.drainable (before ++ e :: after) = true →
    atMost s.pq.length s.cfg.pqDepth = true → s.drainSends key e ≠ none →
    s.txFail =
      List.replicate (before.filterMap (s.drainSends key)).length false ++ true :: more →
    ∃ t : State, exec (.pqDrain key) s = .next t ∧
      t.runState = .halted ∧ t.faultCause = .txIo ∧ t.dsm = .sHalt ∧
      t.pq = (after ++ before.filter (s.drainKeeps key)).map pendingFrame ∧
      t.txTrace = s.txTrace ++ before.filterMap (s.drainSends key) ∧ t.txFail = more ∧
      t.arpc = s.arpc ∧ t.rt = s.rt ∧ t.outcomes = s.outcomes

/-- R198, R202: a reply teaches the cache its sender, then releases: the entries with no Route are sent
as unreachable errors and those that wait for the sender as themselves, in queue order; the others stay
in their order; the step ends as `ARP_LEARNED`. With no room for a new key it raises `CAPACITY`. -/
def Obligations.ArpReplyLearnsAndReleases : Prop :=
  ∀ (s : State) (h : ArpFrame) (es : List Pending), s.runState = .running →
    (tableWf s.iftab.length s.rt = true → s.pq = es.map pendingFrame → s.drainable es = true →
      atMost s.pq.length s.cfg.pqDepth = true → s.txNeverFails = true →
      (arpLookup s.arpc h.spa ≠ none ∨ below s.arpc.length s.cfg.arpcDepth = true) →
      ∃ t : State, exec (.arpReply h) s = .next t ∧
        t.arpc = s.learns h.spa h.sha ∧
        t.pq = (es.filter fun e =>
          (lpmLookup s.rt e.1.ipDst).any fun r => r.nextHop != h.spa).map pendingFrame ∧
        t.txTrace = s.txTrace ++
          es.filterMap (State.drainSends { s with arpc := s.learns h.spa h.sha } h.spa) ∧
        t.outcomes = s.outcomes ++ [.arpLearned] ∧ t.dsm = .sRx ∧ t.runState = .running ∧
        t.faultCause = s.faultCause ∧ t.rt = s.rt ∧ t.f = ⟨encodeArp 2 h, s.f.iface⟩ ∧ t.g = s.g ∧
        t.rxq = s.rxq ∧ t.curTtl = s.curTtl ∧ t.curSum = s.curSum ∧ t.loaded = s.loaded ∧
        t.ops = s.ops ∧ t.ret = s.ret ∧ t.cfg = s.cfg ∧ t.iftab = s.iftab) ∧
    (arpLookup s.arpc h.spa = none → below s.arpc.length s.cfg.arpcDepth = false →
      exec (.arpReply h) s = .next { s with
        f := ⟨encodeArp 2 h, s.f.iface⟩, dsm := .sHalt,
        dsmTrace := s.dsmTrace ++ [.sArpOp, .sArpLearn, .sHalt],
        runState := .halted, faultCause := .capacity })

/-- R204 and scenario 3 of the source, on an empty queue with the reply next and transmissions that
succeed, as those beyond the model's list do (log 6): a packet that misses the cache is queued and one
request goes out; the reply then releases, byte for byte, the frame that the hit path would have sent at
once, or, without `DRAIN_REWRITE_SRC`, that frame with the original sender's Ethernet address, with
nothing else transmitted. -/
def Obligations.PendingFrameLeavesAsOnTheHitPath : Prop :=
  ∀ (s : State) (h : Ipv4Frame) (row : IfRow) (r : Route) (a : ArpFrame),
    s.runState = .running → s.iftab[s.f.iface]? = some row → tableWf s.iftab.length s.rt = true →
    42 + h.tail.length ≤ s.cfg.maxFrame → h.ipDst ≠ row.ip → ¬ s.ownAddress row h.ipDst →
    csumVerify (ipv4Header h) = true → 2 ≤ h.ttl.toNat → lpmLookup s.rt h.ipDst = some r →
    arpLookup s.arpc r.nextHop = none → s.pq = [] → s.txFail = [] →
    below s.pq.length s.cfg.pqDepth = true → below s.arpc.length s.cfg.arpcDepth = true →
    a.spa = r.nextHop →
    ∃ (hit queued released : State) (y z request : Frame),
      exec (.ipv4 h) { s with arpc := s.arpc ++ [⟨r.nextHop, a.sha⟩] } = .next hit ∧
      hit.txTrace = s.txTrace ++ [y] ∧
      exec (.ipv4 h) s = .next queued ∧ queued.txTrace = s.txTrace ++ [request] ∧
      exec (.arpReply a) queued = .next released ∧
      released.txTrace = s.txTrace ++ [request, z] ∧ released.pq = [] ∧
      (s.cfg.drainRewriteSrc = true → z = y) ∧
      (s.cfg.drainRewriteSrc = false →
        z.iface = y.iface ∧ z.buf = patch 6 (beBytes 6 h.src.toNat) y.buf)

/-- R205, R206: one broadcast request for the next hop, built in `G` from the outgoing interface's own
addresses and sent on it; `F` and the queue are untouched. That an interface that does not exist stops
is the model's own (log 31). -/
def Obligations.RequestIsBuiltInG : Prop :=
  ∀ (s : State) (nh : Ip) (i : Nat), s.runState = .running →
    (∀ row, s.iftab[i]? = some row → 42 ≤ s.cfg.maxFrame →
      let g : Frame := ⟨requestBytes s.cfg.arpreqTha row nh, i⟩
      g.buf.length = 42 ∧
      (s.txFails = false →
        exec (.arpReqEmit nh i) s = .next { s with
          g := g, txFail := s.txFail.tail, txTrace := s.txTrace ++ [g] }) ∧
      (s.txFails = true →
        exec (.arpReqEmit nh i) s = .next { s with
          g := g, txFail := s.txFail.tail, dsm := .sHalt, dsmTrace := s.dsmTrace ++ [.sHalt],
          runState := .halted, faultCause := .txIo })) ∧
    (s.iftab.length ≤ i → exec (.arpReqEmit nh i) s = .fault .noSuchInterface)

/-- R85, R199: two replies with the same sender addresses have the same effect on everything but `F`,
whatever their other fields, padding and Ethernet addresses. -/
def Obligations.ArpReplyReadsSenderFieldsOnly : Prop :=
  ∀ (s : State) (h k : ArpFrame), h.spa = k.spa → h.sha = k.sha →
    Out.blankF (exec (.arpReply h) s) = Out.blankF (exec (.arpReply k) s)

/-! ### IPv4 path (spec/45_dispatch.md R229 to R237) -/

/-- R230: an echo request to the receiving interface's own address is answered on that interface, with
no test of its checksums or its TTL. -/
def Obligations.EchoRequestIsAnswered : Prop :=
  ∀ (s : State) (h : Ipv4Frame) (row : IfRow) (i : Instr), i = .ipv4 h ∨ i = .ipv4EchoReq h →
    s.runState = .running → s.iftab[s.f.iface]? = some row → 42 ≤ s.cfg.maxFrame →
    h.ipDst = row.ip → h.proto = 1 → h.icmpType = 8 →
    let y : Frame := ⟨encodeIpv4 (synthFields s.cfg.synthTtlFn 0 h), s.f.iface⟩
    (s.txFails = false →
      exec i s = .next { s with
        f := y, curDst := h.ipDst, txFail := s.txFail.tail, txTrace := s.txTrace ++ [y],
        dsm := .sRx, dsmTrace := s.dsmTrace ++ [.sIpLocal, .sRx],
        outcomes := s.outcomes ++ [.echoReply] }) ∧
    (s.txFails = true →
      exec i s = .next { s with
        f := y, curDst := h.ipDst, txFail := s.txFail.tail,
        dsm := .sHalt, dsmTrace := s.dsmTrace ++ [.sIpLocal, .sHalt],
        runState := .halted, faultCause := .txIo })

/-- R231, R232: anything else to a local address is dropped, whatever its checksum; then a packet whose
header does not verify is dropped. -/
def Obligations.LocalAndCorruptPacketsAreDropped : Prop :=
  ∀ (s : State) (h : Ipv4Frame) (row : IfRow) (i : Instr), i = .ipv4 h ∨ i = .ipv4EchoReq h →
    s.runState = .running → s.iftab[s.f.iface]? = some row →
    ¬(h.ipDst = row.ip ∧ h.proto = 1 ∧ h.icmpType = 8) →
    (s.ownAddress row h.ipDst →
      exec i s = .next { s with
        f := ⟨encodeIpv4 h, s.f.iface⟩, curDst := h.ipDst,
        dsm := .sRx, dsmTrace := s.dsmTrace ++ [.sIpLocal, .sRx],
        outcomes := s.outcomes ++ [.dropLocal] }) ∧
    (¬ s.ownAddress row h.ipDst → csumVerify (ipv4Header h) = false →
      exec i s = .next { s with
        f := ⟨encodeIpv4 h, s.f.iface⟩, curDst := h.ipDst,
        dsm := .sRx, dsmTrace := s.dsmTrace ++ [.sIpLocal, .sIpCsum, .sRx],
        outcomes := s.outcomes ++ [.dropCsum] })

/-- R233, R264: a transit packet with a valid header and TTL 0 or 1 is answered with a time-exceeded
error on the receiving interface; the route table is not consulted; a transmission that fails halts the
engine. That `cur_ttl` takes the received TTL is the model's (log 14). -/
def Obligations.ExpiredPacketGetsTimeExceeded : Prop :=
  ∀ (s : State) (h : Ipv4Frame) (row : IfRow) (i : Instr), i = .ipv4 h ∨ i = .ipv4EchoReq h →
    s.runState = .running → s.iftab[s.f.iface]? = some row → 42 ≤ s.cfg.maxFrame →
    h.ipDst ≠ row.ip → ¬ s.ownAddress row h.ipDst → csumVerify (ipv4Header h) = true →
    h.ttl.toNat ≤ 1 →
    let y : Frame := ⟨encodeIpv4 (synthFields s.cfg.synthTtlFn 11 h), s.f.iface⟩
    let t : State := { s with
      f := y, curDst := h.ipDst, curTtl := h.ttl, txFail := s.txFail.tail }
    let passed := s.dsmTrace ++ [.sIpLocal, .sIpCsum, .sIpTtl]
    (s.txFails = false →
      exec i s = .next { t with
        txTrace := s.txTrace ++ [y], dsm := .sRx, dsmTrace := passed ++ [.sRx],
        outcomes := s.outcomes ++ [.timeExceeded] }) ∧
    (s.txFails = true →
      exec i s = .next { t with
        dsm := .sHalt, dsmTrace := passed ++ [.sHalt], runState := .halted, faultCause := .txIo })

/-- R234, R264: a transit packet with a valid header and a live TTL but no Route is answered with a
destination-unreachable error on the receiving interface; a transmission that fails halts the engine.
That `cur_ttl` takes the received TTL is the model's (log 14). -/
def Obligations.UnroutablePacketGetsUnreachable : Prop :=
  ∀ (s : State) (h : Ipv4Frame) (row : IfRow) (i : Instr), i = .ipv4 h ∨ i = .ipv4EchoReq h →
    s.runState = .running → s.iftab[s.f.iface]? = some row → 42 ≤ s.cfg.maxFrame →
    tableWf s.iftab.length s.rt = true →
    h.ipDst ≠ row.ip → ¬ s.ownAddress row h.ipDst → csumVerify (ipv4Header h) = true →
    2 ≤ h.ttl.toNat → lpmLookup s.rt h.ipDst = none →
    let y : Frame := ⟨encodeIpv4 (synthFields s.cfg.synthTtlFn 3 h), s.f.iface⟩
    let t : State := { s with
      f := y, curDst := h.ipDst, curTtl := h.ttl, curRoute := none, txFail := s.txFail.tail }
    let passed := s.dsmTrace ++ [.sIpLocal, .sIpCsum, .sIpTtl, .sIpRoute]
    (s.txFails = false →
      exec i s = .next { t with
        txTrace := s.txTrace ++ [y], dsm := .sRx, dsmTrace := passed ++ [.sRx],
        outcomes := s.outcomes ++ [.noRoute] }) ∧
    (s.txFails = true →
      exec i s = .next { t with
        dsm := .sHalt, dsmTrace := passed ++ [.sHalt], runState := .halted, faultCause := .txIo })

/-- R235, R236, R264: a routed packet whose next hop is in the cache leaves on the Route's interface with
the TTL one less, the header checksum as computed from scratch, and the two Ethernet addresses
rewritten; no other byte differs; a transmission that fails halts the engine. The values of `cur_ttl` and
`cur_sum` are the model's (log 14). -/
def Obligations.RoutedPacketIsForwarded : Prop :=
  ∀ (s : State) (h : Ipv4Frame) (row out : IfRow) (r : Route) (mac : Mac) (i : Instr),
    i = .ipv4 h ∨ i = .ipv4EchoReq h →
    s.runState = .running → s.iftab[s.f.iface]? = some row →
    42 + h.tail.length ≤ s.cfg.maxFrame → tableWf s.iftab.length s.rt = true →
    h.ipDst ≠ row.ip → ¬ s.ownAddress row h.ipDst → csumVerify (ipv4Header h) = true →
    2 ≤ h.ttl.toNat → lpmLookup s.rt h.ipDst = some r → arpLookup s.arpc r.nextHop = some mac →
    s.iftab[r.iface]? = some out →
    let y : Frame := ⟨encodeIpv4 { decFields h with dst := mac, src := out.mac }, r.iface⟩
    let t : State := { s with
      f := y, curDst := h.ipDst, curTtl := h.ttl, curRoute := some r, curMac := some mac,
      curSum := (decFields h).csum, txFail := s.txFail.tail }
    let passed := s.dsmTrace ++ [.sIpLocal, .sIpCsum, .sIpTtl, .sIpRoute, .sIpDec, .sIpResolve]
    (s.txFails = false →
      exec i s = .next { t with
        txTrace := s.txTrace ++ [y], dsm := .sRx, dsmTrace := passed ++ [.sRx],
        outcomes := s.outcomes ++ [.forwarded] }) ∧
    (s.txFails = true →
      exec i s = .next { t with
        dsm := .sHalt, dsmTrace := passed ++ [.sHalt], runState := .halted, faultCause := .txIo })

/-- R237: on a miss a copy of the decremented frame, its Ethernet header as received, goes to the tail of
the queue and one request for the next hop goes out the Route's interface; a full queue raises
`CAPACITY` before any request is sent. The values of `cur_ttl` and `cur_sum` are the model's (log 14). -/
def Obligations.UnresolvedPacketIsQueued : Prop :=
  ∀ (s : State) (h : Ipv4Frame) (row out : IfRow) (r : Route) (i : Instr),
    i = .ipv4 h ∨ i = .ipv4EchoReq h →
    s.runState = .running → s.iftab[s.f.iface]? = some row → 42 ≤ s.cfg.maxFrame →
    tableWf s.iftab.length s.rt = true →
    h.ipDst ≠ row.ip → ¬ s.ownAddress row h.ipDst → csumVerify (ipv4Header h) = true →
    2 ≤ h.ttl.toNat → lpmLookup s.rt h.ipDst = some r → arpLookup s.arpc r.nextHop = none →
    s.iftab[r.iface]? = some out →
    let q : Frame := ⟨encodeIpv4 (decFields h), s.f.iface⟩
    let g : Frame := ⟨requestBytes s.cfg.arpreqTha out r.nextHop, r.iface⟩
    let t : State := { s with
      f := q, curDst := h.ipDst, curTtl := h.ttl, curRoute := some r, curMac := none,
      curSum := (decFields h).csum }
    let passed := s.dsmTrace ++ [.sIpLocal, .sIpCsum, .sIpTtl, .sIpRoute, .sIpDec, .sIpResolve]
    (below s.pq.length s.cfg.pqDepth = true → s.txFails = false →
      exec i s = .next { t with
        pq := s.pq ++ [q], g := g, txFail := s.txFail.tail, txTrace := s.txTrace ++ [g],
        dsm := .sRx, dsmTrace := passed ++ [.sRx], outcomes := s.outcomes ++ [.queued] }) ∧
    (below s.pq.length s.cfg.pqDepth = true → s.txFails = true →
      exec i s = .next { t with
        pq := s.pq ++ [q], g := g, txFail := s.txFail.tail,
        dsm := .sHalt, dsmTrace := passed ++ [.sHalt], runState := .halted, faultCause := .txIo }) ∧
    (below s.pq.length s.cfg.pqDepth = false →
      exec i s = .next { t with
        dsm := .sHalt, dsmTrace := passed ++ [.sHalt],
        runState := .halted, faultCause := .capacity })

/-! ### Ports and host (spec/46_host_interface.md) -/

/-- R263, R264: a frame that meets the requirement goes to the output trace, or, when the collaborator
reports failure, halts the engine and does not count as sent (log 22); one that does not is refused. -/
def Obligations.TransmitAppendsToTheTrace : Prop :=
  ∀ (s : State) (x : FrameReg), s.runState = .running →
    let fr := s.frame x
    let ready := fr.iface < s.iftab.length ∧ 14 ≤ fr.buf.length ∧ fr.buf.length ≤ s.cfg.maxFrame
    (ready → s.txFails = false →
      exec (.tx x) s = .next { s with
        txFail := s.txFail.tail, txTrace := s.txTrace ++ [fr] }) ∧
    (ready → s.txFails = true →
      exec (.tx x) s = .next { s with
        txFail := s.txFail.tail, dsm := .sHalt, dsmTrace := s.dsmTrace ++ [.sHalt],
        runState := .halted, faultCause := .txIo }) ∧
    (¬ ready → exec (.tx x) s = .refused .txPrecondition)

/-- R264, over all operations: if the next transmission is to fail, then whatever one operation does,
nothing is transmitted, and either no transmission was tried or the engine has halted with `TX_IO`. -/
def Obligations.FailedTransmissionHalts : Prop :=
  ∀ (i : Instr) (s t : State) (rest : List Bool),
    s.txFail = true :: rest → exec i s = .next t →
    t.txTrace = s.txTrace ∧
      (t.txFail = s.txFail ∨
        (t.txFail = rest ∧ t.runState = .halted ∧ t.faultCause = .txIo ∧ t.dsm = .sHalt ∧
          t.outcomes = s.outcomes))

/-- R265, R266: the interface table is read and nothing else changes but the model's result port
(log 5); an identifier that is no interface stops: the model's own (log 31). -/
def Obligations.InterfaceReadsArePure : Prop :=
  ∀ (s : State) (i : Nat), s.runState = .running →
    (∀ row, s.iftab[i]? = some row →
      exec (.ifMac i) s = .next { s with ret := .mac row.mac } ∧
      exec (.ifIp i) s = .next { s with ret := .ip row.ip }) ∧
    (s.iftab.length ≤ i →
      exec (.ifMac i) s = .fault .noSuchInterface ∧ exec (.ifIp i) s = .fault .noSuchInterface)

/-- R222: the link-layer filter answers whether the first six bytes of `F` are the receiving
interface's address or all ones; the answer goes to the model's result port (log 5). A frame too short
to hold them (log 9), or on no interface (log 31), stops. -/
def Obligations.FilterAcceptsOwnAndBroadcast : Prop :=
  ∀ (s : State) (d : Mac) (rest : List Byte), s.runState = .running →
    (∀ row, s.iftab[s.f.iface]? = some row → s.f.buf = beBytes 6 d.toNat ++ rest →
      exec .l2Filter s = .next { s with
        ret := .flag (decide (d = row.mac ∨ d = 0xFFFFFFFFFFFF)) }) ∧
    (s.iftab.length ≤ s.f.iface → exec .l2Filter s = .fault .noSuchInterface) ∧
    (s.f.iface < s.iftab.length → s.f.buf.length < 6 → exec .l2Filter s = .fault .beyondFrame)

/-- R267, R268: while unloaded, a well-formed sequence within the bound becomes the route table, again
as often as it is loaded; an ill-formed or too long one, or the loader's own error, halts the engine.
The record of a successful load is the model's bit (log 11). -/
def Obligations.LoadRoutesChecksTheTable : Prop :=
  ∀ (s : State) (entries : List Route), s.runState = .unloaded →
    let good := (∀ r ∈ entries, (∃ l ≤ 32, r.mask = maskOf l) ∧ r.pfx = r.pfx &&& r.mask ∧
        r.iface < s.iftab.length) ∧ ∀ m, s.cfg.maxRoutes = some m → entries.length ≤ m
    let failed : State := { s with
      dsm := .sHalt, dsmTrace := s.dsmTrace ++ [.sHalt],
      runState := .halted, faultCause := .loadError }
    (good → exec (.hostLoadRoutes (some entries)) s = .next { s with rt := entries, loaded := true }) ∧
    (¬ good → exec (.hostLoadRoutes (some entries)) s = .next failed) ∧
    exec (.hostLoadRoutes none) s = .next failed

/-- R269: after a successful load the engine starts in `S_RX`; before one, `HOST.START` is refused. -/
def Obligations.StartNeedsALoadedTable : Prop :=
  ∀ s : State, s.runState = .unloaded →
    (s.loaded = true → exec .hostStart s = .next { s with runState := .running, dsm := .sRx }) ∧
    (s.loaded = false → exec .hostStart s = .refused .hostOpNotAllowed)

/-- R270, R43: in every state `HOST.RESET` completes; the tables are empty, nothing is transmitted, and
the configuration stays. What stands outside the engine stays too: the model's choice (log 20). -/
def Obligations.ResetEmptiesTheTables : Prop :=
  ∀ s : State, ∃ t : State, exec .hostReset s = .next t ∧
    t.runState = .unloaded ∧ t.faultCause = .none ∧ t.dsm = .sRx ∧ t.rt = [] ∧ t.arpc = [] ∧
    t.pq = [] ∧ t.loaded = false ∧ t.cfg = s.cfg ∧ t.iftab = s.iftab ∧ t.txTrace = s.txTrace ∧
    t.rxq = s.rxq ∧ t.txFail = s.txFail ∧ t.outcomes = s.outcomes ∧ t.ops = s.ops

/-- R42: what reset leaves, as a host may observe it and in the tables; a lookup in the empty table's
trie finds nothing. -/
def Obligations.ResetValues : Prop :=
  State.reset.runState.code = 0 ∧ State.reset.faultCause.code = 0 ∧ State.reset.dsm.code = 0 ∧
    State.reset.rt = [] ∧ State.reset.arpc = [] ∧ State.reset.pq = [] ∧
    State.reset.trie = .node none .leaf .leaf ∧
    State.reset.status = ⟨0, 0, 0, .unloaded, .none⟩

/-! ### The whole machine -/

/-- R31, R37, R70: no operation changes the parameters or the interface table, and only the load, the
build and reset change the route table, none of them while the engine runs, except reset. -/
def Obligations.ConfigurationIsConstant : Prop :=
  ∀ (i : Instr) (s t : State), exec i s = .next t →
    t.cfg = s.cfg ∧ t.iftab = s.iftab ∧ (s.runState = .running → i ≠ .hostReset → t.rt = s.rt)

/-- R238, R239, R28: a frame step either waits, which leaves the state as it is (the model's choice,
log 6), or halts the engine, or ends in exactly one outcome with the engine back in `S_RX`: a drop
transmits nothing, a queued frame one request, the five answering outcomes the one frame in `F`; and each
outcome touches the tables that R239 gives it. -/
def Obligations.EveryFrameEndsInOneAction : Prop :=
  ∀ s t : State, s.runState = .running → exec .frameStep s = .next t →
    (s.dsm = .sRx ∧ s.rxq = [] ∧ t = s) ∨
    (t.runState = .halted ∧ t.dsm = .sHalt ∧ t.faultCause ≠ .none ∧ t.outcomes = s.outcomes) ∨
    ∃ (o : OutcomeCode) (sent : List Frame),
      t.runState = .running ∧ t.dsm = .sRx ∧ t.faultCause = s.faultCause ∧
      t.outcomes = s.outcomes ++ [o] ∧ t.txTrace = s.txTrace ++ sent ∧
      t.rt = s.rt ∧ t.iftab = s.iftab ∧
      (o.isDrop = true → sent = []) ∧
      (o = .queued → sent = [t.g] ∧ t.pq = s.pq ++ [t.f]) ∧
      (o = .forwarded ∨ o = .echoReply ∨ o = .timeExceeded ∨ o = .noRoute ∨ o = .arpReplied →
        sent = [t.f]) ∧
      (o ≠ .arpLearned → t.arpc = s.arpc) ∧
      (o ≠ .arpLearned → o ≠ .queued → t.pq = s.pq) ∧
      (o = .arpLearned → t.pq.Sublist s.pq ∧ s.arpc.length ≤ t.arpc.length ∧
        t.arpc.length ≤ s.arpc.length + 1)

/-- R30, R31, R34, R36: every step keeps the route table well formed and within its bound, the cache
keys unique and within their bound, and the queue within its bound. -/
def Obligations.TablesStayInOrder : Prop :=
  ∀ s t : State, s.tablesOk = true → step s = .next t → t.tablesOk = true

/-- R29, R27, R269: every step keeps `run_state = HALTED` iff `fault_cause ≠ NONE` iff `dsm = S_HALT`,
and a running engine has loaded a table. -/
def Obligations.StatusStaysConsistent : Prop :=
  ∀ s t : State, s.statusOk = true → step s = .next t → t.statusOk = true

/-- R40, R285, R286: the engine by itself never stops the model, whatever frames arrive and however
transmissions end, and every step keeps its invariant: each pending entry is a valid IPv4 frame with a
live TTL and a Route, and waits for a next hop the cache does not hold. -/
def Obligations.EngineNeverStopsAndKeepsItsInvariant : Prop :=
  ∀ s : State, s.engineOk = true → ∃ t : State, step s = .next t ∧ t.engineOk = true

/-- R313: under the launch premises P1 to P6 for the frame that is offered, from every state of the
engine's invariant, the step on it raises no fault, ends with exactly one outcome, and keeps the
invariant and the premise P5, so that the same holds of the next frame. -/
def Obligations.PremisesRuleOutFaults : Prop :=
  ∀ (s : State) (fr : Frame) (rest : List RxItem),
    s.engineOk = true → s.runState = .running → s.rxq = .frame fr :: rest →
    s.frameOk fr = true → s.txNeverFails = true → s.hasRoomFor fr = true →
    ∃ (t : State) (o : OutcomeCode), exec .frameStep s = .next t ∧ t.runState = .running ∧
      t.faultCause = .none ∧ t.dsm = .sRx ∧ t.rxq = rest ∧ t.outcomes = s.outcomes ++ [o] ∧
      t.engineOk = true ∧ t.txNeverFails = true

/-- The invariants hold at reset, and R311: reset, a successful load and a start, from any state with
nothing at the operation port and the bound R9 puts on `MAX_FRAME`, give a running engine that meets
the engine's invariant. -/
def Obligations.StartUpMeetsTheInvariants : Prop :=
  State.reset.tablesOk = true ∧ State.reset.statusOk = true ∧ State.reset.engineOk = true ∧
  State.reset.traceOk = true ∧
  ∀ (s a b c : State) (entries : List Route), s.ops = [] → 42 ≤ s.cfg.maxFrame →
    exec .hostReset s = .next a → exec (.hostLoadRoutes (some entries)) a = .next b →
    exec .hostStart b = .next c → c.engineOk = true ∧ c.runState = .running ∧ c.rt = entries

/-- R27, R28: with nothing at the operation port, each step goes through dispatch states only by the
transitions R27 lists. -/
def Obligations.DispatchTraceStaysLegal : Prop :=
  ∀ s t : State, s.ops = [] → s.traceOk = true → step s = .next t → t.traceOk = true
end

