-- ==== Sys2Proof/Laws/State.lean ====
section
/-! SUPPORT. One lemma per field per update of the state, each true by rfl: no later proof unfolds a
record update. -/

namespace Sys2Proof.Machine

variable (s : State)

/-! ### `dsm <- S` (R14) -/

@[simp] theorem State.enter_cfg (d : Dsm) : (s.enter d).cfg = s.cfg := rfl
@[simp] theorem State.enter_iftab (d : Dsm) : (s.enter d).iftab = s.iftab := rfl
@[simp] theorem State.enter_f (d : Dsm) : (s.enter d).f = s.f := rfl
@[simp] theorem State.enter_p (d : Dsm) : (s.enter d).p = s.p := rfl
@[simp] theorem State.enter_g (d : Dsm) : (s.enter d).g = s.g := rfl
@[simp] theorem State.enter_curDst (d : Dsm) : (s.enter d).curDst = s.curDst := rfl
@[simp] theorem State.enter_curRoute (d : Dsm) : (s.enter d).curRoute = s.curRoute := rfl
@[simp] theorem State.enter_curMac (d : Dsm) : (s.enter d).curMac = s.curMac := rfl
@[simp] theorem State.enter_curTtl (d : Dsm) : (s.enter d).curTtl = s.curTtl := rfl
@[simp] theorem State.enter_curSum (d : Dsm) : (s.enter d).curSum = s.curSum := rfl
@[simp] theorem State.enter_drainN (d : Dsm) : (s.enter d).drainN = s.drainN := rfl
@[simp] theorem State.enter_drainI (d : Dsm) : (s.enter d).drainI = s.drainI := rfl
@[simp] theorem State.enter_drainKey (d : Dsm) : (s.enter d).drainKey = s.drainKey := rfl
@[simp] theorem State.enter_dsm (d : Dsm) : (s.enter d).dsm = d := rfl
@[simp] theorem State.enter_runState (d : Dsm) : (s.enter d).runState = s.runState := rfl
@[simp] theorem State.enter_faultCause (d : Dsm) : (s.enter d).faultCause = s.faultCause := rfl
@[simp] theorem State.enter_rt (d : Dsm) : (s.enter d).rt = s.rt := rfl
@[simp] theorem State.enter_loaded (d : Dsm) : (s.enter d).loaded = s.loaded := rfl
@[simp] theorem State.enter_arpc (d : Dsm) : (s.enter d).arpc = s.arpc := rfl
@[simp] theorem State.enter_pq (d : Dsm) : (s.enter d).pq = s.pq := rfl
@[simp] theorem State.enter_rxq (d : Dsm) : (s.enter d).rxq = s.rxq := rfl
@[simp] theorem State.enter_txFail (d : Dsm) : (s.enter d).txFail = s.txFail := rfl
@[simp] theorem State.enter_txTrace (d : Dsm) : (s.enter d).txTrace = s.txTrace := rfl
@[simp] theorem State.enter_outcomes (d : Dsm) : (s.enter d).outcomes = s.outcomes := rfl
@[simp] theorem State.enter_drainLabels (d : Dsm) : (s.enter d).drainLabels = s.drainLabels := rfl
@[simp] theorem State.enter_dsmTrace (d : Dsm) : (s.enter d).dsmTrace = s.dsmTrace ++ [d] := rfl
@[simp] theorem State.enter_ops (d : Dsm) : (s.enter d).ops = s.ops := rfl
@[simp] theorem State.enter_ret (d : Dsm) : (s.enter d).ret = s.ret := rfl

/-! ### `drop` and `done` (R14) -/

@[simp] theorem State.finish_cfg (o : OutcomeCode) : (s.finish o).cfg = s.cfg := rfl
@[simp] theorem State.finish_iftab (o : OutcomeCode) : (s.finish o).iftab = s.iftab := rfl
@[simp] theorem State.finish_f (o : OutcomeCode) : (s.finish o).f = s.f := rfl
@[simp] theorem State.finish_p (o : OutcomeCode) : (s.finish o).p = s.p := rfl
@[simp] theorem State.finish_g (o : OutcomeCode) : (s.finish o).g = s.g := rfl
@[simp] theorem State.finish_curDst (o : OutcomeCode) : (s.finish o).curDst = s.curDst := rfl
@[simp] theorem State.finish_curRoute (o : OutcomeCode) : (s.finish o).curRoute = s.curRoute := rfl
@[simp] theorem State.finish_curMac (o : OutcomeCode) : (s.finish o).curMac = s.curMac := rfl
@[simp] theorem State.finish_curTtl (o : OutcomeCode) : (s.finish o).curTtl = s.curTtl := rfl
@[simp] theorem State.finish_curSum (o : OutcomeCode) : (s.finish o).curSum = s.curSum := rfl
@[simp] theorem State.finish_drainN (o : OutcomeCode) : (s.finish o).drainN = s.drainN := rfl
@[simp] theorem State.finish_drainI (o : OutcomeCode) : (s.finish o).drainI = s.drainI := rfl
@[simp] theorem State.finish_drainKey (o : OutcomeCode) : (s.finish o).drainKey = s.drainKey := rfl
@[simp] theorem State.finish_dsm (o : OutcomeCode) : (s.finish o).dsm = .sRx := rfl
@[simp] theorem State.finish_runState (o : OutcomeCode) : (s.finish o).runState = s.runState := rfl
@[simp] theorem State.finish_faultCause (o : OutcomeCode) : (s.finish o).faultCause = s.faultCause := rfl
@[simp] theorem State.finish_rt (o : OutcomeCode) : (s.finish o).rt = s.rt := rfl
@[simp] theorem State.finish_loaded (o : OutcomeCode) : (s.finish o).loaded = s.loaded := rfl
@[simp] theorem State.finish_arpc (o : OutcomeCode) : (s.finish o).arpc = s.arpc := rfl
@[simp] theorem State.finish_pq (o : OutcomeCode) : (s.finish o).pq = s.pq := rfl
@[simp] theorem State.finish_rxq (o : OutcomeCode) : (s.finish o).rxq = s.rxq := rfl
@[simp] theorem State.finish_txFail (o : OutcomeCode) : (s.finish o).txFail = s.txFail := rfl
@[simp] theorem State.finish_txTrace (o : OutcomeCode) : (s.finish o).txTrace = s.txTrace := rfl
@[simp] theorem State.finish_outcomes (o : OutcomeCode) : (s.finish o).outcomes = s.outcomes ++ [o] := rfl
@[simp] theorem State.finish_drainLabels (o : OutcomeCode) : (s.finish o).drainLabels = s.drainLabels := rfl
@[simp] theorem State.finish_dsmTrace (o : OutcomeCode) : (s.finish o).dsmTrace = s.dsmTrace ++ [.sRx] := rfl
@[simp] theorem State.finish_ops (o : OutcomeCode) : (s.finish o).ops = s.ops := rfl
@[simp] theorem State.finish_ret (o : OutcomeCode) : (s.finish o).ret = s.ret := rfl

/-! ### `raise Fault` (R288) -/

@[simp] theorem State.raise_cfg (c : FaultCause) : (s.raise c).cfg = s.cfg := rfl
@[simp] theorem State.raise_iftab (c : FaultCause) : (s.raise c).iftab = s.iftab := rfl
@[simp] theorem State.raise_f (c : FaultCause) : (s.raise c).f = s.f := rfl
@[simp] theorem State.raise_p (c : FaultCause) : (s.raise c).p = s.p := rfl
@[simp] theorem State.raise_g (c : FaultCause) : (s.raise c).g = s.g := rfl
@[simp] theorem State.raise_curDst (c : FaultCause) : (s.raise c).curDst = s.curDst := rfl
@[simp] theorem State.raise_curRoute (c : FaultCause) : (s.raise c).curRoute = s.curRoute := rfl
@[simp] theorem State.raise_curMac (c : FaultCause) : (s.raise c).curMac = s.curMac := rfl
@[simp] theorem State.raise_curTtl (c : FaultCause) : (s.raise c).curTtl = s.curTtl := rfl
@[simp] theorem State.raise_curSum (c : FaultCause) : (s.raise c).curSum = s.curSum := rfl
@[simp] theorem State.raise_drainN (c : FaultCause) : (s.raise c).drainN = s.drainN := rfl
@[simp] theorem State.raise_drainI (c : FaultCause) : (s.raise c).drainI = s.drainI := rfl
@[simp] theorem State.raise_drainKey (c : FaultCause) : (s.raise c).drainKey = s.drainKey := rfl
@[simp] theorem State.raise_dsm (c : FaultCause) : (s.raise c).dsm = .sHalt := rfl
@[simp] theorem State.raise_runState (c : FaultCause) : (s.raise c).runState = .halted := rfl
@[simp] theorem State.raise_faultCause (c : FaultCause) : (s.raise c).faultCause = c := rfl
@[simp] theorem State.raise_rt (c : FaultCause) : (s.raise c).rt = s.rt := rfl
@[simp] theorem State.raise_loaded (c : FaultCause) : (s.raise c).loaded = s.loaded := rfl
@[simp] theorem State.raise_arpc (c : FaultCause) : (s.raise c).arpc = s.arpc := rfl
@[simp] theorem State.raise_pq (c : FaultCause) : (s.raise c).pq = s.pq := rfl
@[simp] theorem State.raise_rxq (c : FaultCause) : (s.raise c).rxq = s.rxq := rfl
@[simp] theorem State.raise_txFail (c : FaultCause) : (s.raise c).txFail = s.txFail := rfl
@[simp] theorem State.raise_txTrace (c : FaultCause) : (s.raise c).txTrace = s.txTrace := rfl
@[simp] theorem State.raise_outcomes (c : FaultCause) : (s.raise c).outcomes = s.outcomes := rfl
@[simp] theorem State.raise_drainLabels (c : FaultCause) : (s.raise c).drainLabels = s.drainLabels := rfl
@[simp] theorem State.raise_dsmTrace (c : FaultCause) : (s.raise c).dsmTrace = s.dsmTrace ++ [.sHalt] := rfl
@[simp] theorem State.raise_ops (c : FaultCause) : (s.raise c).ops = s.ops := rfl
@[simp] theorem State.raise_ret (c : FaultCause) : (s.raise c).ret = s.ret := rfl

/-! ### a transmission (R263) -/

@[simp] theorem State.sent_cfg (fr : Frame) : (s.sent fr).cfg = s.cfg := rfl
@[simp] theorem State.sent_iftab (fr : Frame) : (s.sent fr).iftab = s.iftab := rfl
@[simp] theorem State.sent_f (fr : Frame) : (s.sent fr).f = s.f := rfl
@[simp] theorem State.sent_p (fr : Frame) : (s.sent fr).p = s.p := rfl
@[simp] theorem State.sent_g (fr : Frame) : (s.sent fr).g = s.g := rfl
@[simp] theorem State.sent_curDst (fr : Frame) : (s.sent fr).curDst = s.curDst := rfl
@[simp] theorem State.sent_curRoute (fr : Frame) : (s.sent fr).curRoute = s.curRoute := rfl
@[simp] theorem State.sent_curMac (fr : Frame) : (s.sent fr).curMac = s.curMac := rfl
@[simp] theorem State.sent_curTtl (fr : Frame) : (s.sent fr).curTtl = s.curTtl := rfl
@[simp] theorem State.sent_curSum (fr : Frame) : (s.sent fr).curSum = s.curSum := rfl
@[simp] theorem State.sent_drainN (fr : Frame) : (s.sent fr).drainN = s.drainN := rfl
@[simp] theorem State.sent_drainI (fr : Frame) : (s.sent fr).drainI = s.drainI := rfl
@[simp] theorem State.sent_drainKey (fr : Frame) : (s.sent fr).drainKey = s.drainKey := rfl
@[simp] theorem State.sent_dsm (fr : Frame) : (s.sent fr).dsm = s.dsm := rfl
@[simp] theorem State.sent_runState (fr : Frame) : (s.sent fr).runState = s.runState := rfl
@[simp] theorem State.sent_faultCause (fr : Frame) : (s.sent fr).faultCause = s.faultCause := rfl
@[simp] theorem State.sent_rt (fr : Frame) : (s.sent fr).rt = s.rt := rfl
@[simp] theorem State.sent_loaded (fr : Frame) : (s.sent fr).loaded = s.loaded := rfl
@[simp] theorem State.sent_arpc (fr : Frame) : (s.sent fr).arpc = s.arpc := rfl
@[simp] theorem State.sent_pq (fr : Frame) : (s.sent fr).pq = s.pq := rfl
@[simp] theorem State.sent_rxq (fr : Frame) : (s.sent fr).rxq = s.rxq := rfl
@[simp] theorem State.sent_txFail (fr : Frame) : (s.sent fr).txFail = s.txFail := rfl
@[simp] theorem State.sent_txTrace (fr : Frame) : (s.sent fr).txTrace = s.txTrace ++ [fr] := rfl
@[simp] theorem State.sent_outcomes (fr : Frame) : (s.sent fr).outcomes = s.outcomes := rfl
@[simp] theorem State.sent_drainLabels (fr : Frame) : (s.sent fr).drainLabels = s.drainLabels := rfl
@[simp] theorem State.sent_dsmTrace (fr : Frame) : (s.sent fr).dsmTrace = s.dsmTrace := rfl
@[simp] theorem State.sent_ops (fr : Frame) : (s.sent fr).ops = s.ops := rfl
@[simp] theorem State.sent_ret (fr : Frame) : (s.sent fr).ret = s.ret := rfl

/-! ### one used-up `TX` result (R264) -/

@[simp] theorem State.popTx_cfg : s.popTx.cfg = s.cfg := rfl
@[simp] theorem State.popTx_iftab : s.popTx.iftab = s.iftab := rfl
@[simp] theorem State.popTx_f : s.popTx.f = s.f := rfl
@[simp] theorem State.popTx_p : s.popTx.p = s.p := rfl
@[simp] theorem State.popTx_g : s.popTx.g = s.g := rfl
@[simp] theorem State.popTx_curDst : s.popTx.curDst = s.curDst := rfl
@[simp] theorem State.popTx_curRoute : s.popTx.curRoute = s.curRoute := rfl
@[simp] theorem State.popTx_curMac : s.popTx.curMac = s.curMac := rfl
@[simp] theorem State.popTx_curTtl : s.popTx.curTtl = s.curTtl := rfl
@[simp] theorem State.popTx_curSum : s.popTx.curSum = s.curSum := rfl
@[simp] theorem State.popTx_drainN : s.popTx.drainN = s.drainN := rfl
@[simp] theorem State.popTx_drainI : s.popTx.drainI = s.drainI := rfl
@[simp] theorem State.popTx_drainKey : s.popTx.drainKey = s.drainKey := rfl
@[simp] theorem State.popTx_dsm : s.popTx.dsm = s.dsm := rfl
@[simp] theorem State.popTx_runState : s.popTx.runState = s.runState := rfl
@[simp] theorem State.popTx_faultCause : s.popTx.faultCause = s.faultCause := rfl
@[simp] theorem State.popTx_rt : s.popTx.rt = s.rt := rfl
@[simp] theorem State.popTx_loaded : s.popTx.loaded = s.loaded := rfl
@[simp] theorem State.popTx_arpc : s.popTx.arpc = s.arpc := rfl
@[simp] theorem State.popTx_pq : s.popTx.pq = s.pq := rfl
@[simp] theorem State.popTx_rxq : s.popTx.rxq = s.rxq := rfl
@[simp] theorem State.popTx_txFail : s.popTx.txFail = s.txFail.tail := rfl
@[simp] theorem State.popTx_txTrace : s.popTx.txTrace = s.txTrace := rfl
@[simp] theorem State.popTx_outcomes : s.popTx.outcomes = s.outcomes := rfl
@[simp] theorem State.popTx_drainLabels : s.popTx.drainLabels = s.drainLabels := rfl
@[simp] theorem State.popTx_dsmTrace : s.popTx.dsmTrace = s.dsmTrace := rfl
@[simp] theorem State.popTx_ops : s.popTx.ops = s.ops := rfl
@[simp] theorem State.popTx_ret : s.popTx.ret = s.ret := rfl

/-! ### the instruction word in `F` -/

@[simp] theorem State.loadF_cfg (bs : List Byte) : (s.loadF bs).cfg = s.cfg := rfl
@[simp] theorem State.loadF_iftab (bs : List Byte) : (s.loadF bs).iftab = s.iftab := rfl
@[simp] theorem State.loadF_f (bs : List Byte) : (s.loadF bs).f = ⟨bs, s.f.iface⟩ := rfl
@[simp] theorem State.loadF_p (bs : List Byte) : (s.loadF bs).p = s.p := rfl
@[simp] theorem State.loadF_g (bs : List Byte) : (s.loadF bs).g = s.g := rfl
@[simp] theorem State.loadF_curDst (bs : List Byte) : (s.loadF bs).curDst = s.curDst := rfl
@[simp] theorem State.loadF_curRoute (bs : List Byte) : (s.loadF bs).curRoute = s.curRoute := rfl
@[simp] theorem State.loadF_curMac (bs : List Byte) : (s.loadF bs).curMac = s.curMac := rfl
@[simp] theorem State.loadF_curTtl (bs : List Byte) : (s.loadF bs).curTtl = s.curTtl := rfl
@[simp] theorem State.loadF_curSum (bs : List Byte) : (s.loadF bs).curSum = s.curSum := rfl
@[simp] theorem State.loadF_drainN (bs : List Byte) : (s.loadF bs).drainN = s.drainN := rfl
@[simp] theorem State.loadF_drainI (bs : List Byte) : (s.loadF bs).drainI = s.drainI := rfl
@[simp] theorem State.loadF_drainKey (bs : List Byte) : (s.loadF bs).drainKey = s.drainKey := rfl
@[simp] theorem State.loadF_dsm (bs : List Byte) : (s.loadF bs).dsm = s.dsm := rfl
@[simp] theorem State.loadF_runState (bs : List Byte) : (s.loadF bs).runState = s.runState := rfl
@[simp] theorem State.loadF_faultCause (bs : List Byte) : (s.loadF bs).faultCause = s.faultCause := rfl
@[simp] theorem State.loadF_rt (bs : List Byte) : (s.loadF bs).rt = s.rt := rfl
@[simp] theorem State.loadF_loaded (bs : List Byte) : (s.loadF bs).loaded = s.loaded := rfl
@[simp] theorem State.loadF_arpc (bs : List Byte) : (s.loadF bs).arpc = s.arpc := rfl
@[simp] theorem State.loadF_pq (bs : List Byte) : (s.loadF bs).pq = s.pq := rfl
@[simp] theorem State.loadF_rxq (bs : List Byte) : (s.loadF bs).rxq = s.rxq := rfl
@[simp] theorem State.loadF_txFail (bs : List Byte) : (s.loadF bs).txFail = s.txFail := rfl
@[simp] theorem State.loadF_txTrace (bs : List Byte) : (s.loadF bs).txTrace = s.txTrace := rfl
@[simp] theorem State.loadF_outcomes (bs : List Byte) : (s.loadF bs).outcomes = s.outcomes := rfl
@[simp] theorem State.loadF_drainLabels (bs : List Byte) : (s.loadF bs).drainLabels = s.drainLabels := rfl
@[simp] theorem State.loadF_dsmTrace (bs : List Byte) : (s.loadF bs).dsmTrace = s.dsmTrace := rfl
@[simp] theorem State.loadF_ops (bs : List Byte) : (s.loadF bs).ops = s.ops := rfl
@[simp] theorem State.loadF_ret (bs : List Byte) : (s.loadF bs).ret = s.ret := rfl

/-! ### a drain label (R281) -/

@[simp] theorem State.labelled_cfg (l : DrainLabel) : (s.labelled l).cfg = s.cfg := rfl
@[simp] theorem State.labelled_iftab (l : DrainLabel) : (s.labelled l).iftab = s.iftab := rfl
@[simp] theorem State.labelled_f (l : DrainLabel) : (s.labelled l).f = s.f := rfl
@[simp] theorem State.labelled_p (l : DrainLabel) : (s.labelled l).p = s.p := rfl
@[simp] theorem State.labelled_g (l : DrainLabel) : (s.labelled l).g = s.g := rfl
@[simp] theorem State.labelled_curDst (l : DrainLabel) : (s.labelled l).curDst = s.curDst := rfl
@[simp] theorem State.labelled_curRoute (l : DrainLabel) : (s.labelled l).curRoute = s.curRoute := rfl
@[simp] theorem State.labelled_curMac (l : DrainLabel) : (s.labelled l).curMac = s.curMac := rfl
@[simp] theorem State.labelled_curTtl (l : DrainLabel) : (s.labelled l).curTtl = s.curTtl := rfl
@[simp] theorem State.labelled_curSum (l : DrainLabel) : (s.labelled l).curSum = s.curSum := rfl
@[simp] theorem State.labelled_drainN (l : DrainLabel) : (s.labelled l).drainN = s.drainN := rfl
@[simp] theorem State.labelled_drainI (l : DrainLabel) : (s.labelled l).drainI = s.drainI := rfl
@[simp] theorem State.labelled_drainKey (l : DrainLabel) : (s.labelled l).drainKey = s.drainKey := rfl
@[simp] theorem State.labelled_dsm (l : DrainLabel) : (s.labelled l).dsm = s.dsm := rfl
@[simp] theorem State.labelled_runState (l : DrainLabel) : (s.labelled l).runState = s.runState := rfl
@[simp] theorem State.labelled_faultCause (l : DrainLabel) : (s.labelled l).faultCause = s.faultCause := rfl
@[simp] theorem State.labelled_rt (l : DrainLabel) : (s.labelled l).rt = s.rt := rfl
@[simp] theorem State.labelled_loaded (l : DrainLabel) : (s.labelled l).loaded = s.loaded := rfl
@[simp] theorem State.labelled_arpc (l : DrainLabel) : (s.labelled l).arpc = s.arpc := rfl
@[simp] theorem State.labelled_pq (l : DrainLabel) : (s.labelled l).pq = s.pq := rfl
@[simp] theorem State.labelled_rxq (l : DrainLabel) : (s.labelled l).rxq = s.rxq := rfl
@[simp] theorem State.labelled_txFail (l : DrainLabel) : (s.labelled l).txFail = s.txFail := rfl
@[simp] theorem State.labelled_txTrace (l : DrainLabel) : (s.labelled l).txTrace = s.txTrace := rfl
@[simp] theorem State.labelled_outcomes (l : DrainLabel) : (s.labelled l).outcomes = s.outcomes := rfl
@[simp] theorem State.labelled_drainLabels (l : DrainLabel) : (s.labelled l).drainLabels = s.drainLabels ++ [l] := rfl
@[simp] theorem State.labelled_dsmTrace (l : DrainLabel) : (s.labelled l).dsmTrace = s.dsmTrace := rfl
@[simp] theorem State.labelled_ops (l : DrainLabel) : (s.labelled l).ops = s.ops := rfl
@[simp] theorem State.labelled_ret (l : DrainLabel) : (s.labelled l).ret = s.ret := rfl

/-! ### Frame registers -/

@[simp] theorem State.setFrame_F (fr : Frame) : s.setFrame .F fr = { s with f := fr } := rfl
@[simp] theorem State.setFrame_P (fr : Frame) : s.setFrame .P fr = { s with p := fr } := rfl
@[simp] theorem State.setFrame_G (fr : Frame) : s.setFrame .G fr = { s with g := fr } := rfl
@[simp] theorem State.frame_F : s.frame .F = s.f := rfl
@[simp] theorem State.frame_P : s.frame .P = s.p := rfl
@[simp] theorem State.frame_G : s.frame .G = s.g := rfl

/-- Writing a frame register and reading it back. -/
@[simp] theorem State.frame_setFrame (x : FrameReg) (fr : Frame) : (s.setFrame x fr).frame x = fr := by
  cases x <;> rfl

/-! ### Control flow -/

@[simp] theorem Flow.andThen_go (k : State → Flow) : (Flow.go s).andThen k = k s := rfl
@[simp] theorem Flow.andThen_ended (k : State → Flow) : (Flow.ended s).andThen k = .ended s := rfl
@[simp] theorem Flow.andThen_fault (r : Fault) (k : State → Flow) :
    (Flow.fault r).andThen k = .fault r := rfl
@[simp] theorem Flow.andThen_refused (r : Refusal) (k : State → Flow) :
    (Flow.refused r).andThen k = .refused r := rfl
@[simp] theorem Flow.thenOut_go (k : State → Out) : (Flow.go s).thenOut k = k s := rfl
@[simp] theorem Flow.thenOut_ended (k : State → Out) : (Flow.ended s).thenOut k = .next s := rfl
@[simp] theorem Flow.thenOut_fault (r : Fault) (k : State → Out) :
    (Flow.fault r).thenOut k = .fault r := rfl
@[simp] theorem Flow.thenOut_refused (r : Refusal) (k : State → Out) :
    (Flow.refused r).thenOut k = .refused r := rfl
@[simp] theorem Flow.out_go : (Flow.go s).out = .next s := rfl
@[simp] theorem Flow.out_ended : (Flow.ended s).out = .next s := rfl
@[simp] theorem Flow.out_fault (r : Fault) : (Flow.fault r).out = .fault r := rfl
@[simp] theorem Flow.out_refused (r : Refusal) : (Flow.refused r).out = .refused r := rfl

/-- An operation that acts (R295). -/
@[simp] theorem whenRunning_running (k : Out) (h : s.runState = .running) : whenRunning s k = k :=
  if_pos h

/-- An operation that does not act changes nothing (R288, R295). -/
theorem whenRunning_not_running (k : Out) (h : s.runState ≠ .running) : whenRunning s k = .next s :=
  if_neg h

end Sys2Proof.Machine
end

