-- ==== Sys2Proof/Laws/Memory.lean ====
section
/-! SUPPORT. What the frame-buffer operations and the byte order do, said once: lengths, reads after
writes, the round trip of big-endian fields (spec/00_scope.md R12), and the canonical form of a
buffer. -/

namespace Sys2Proof

/-! ### Byte order -/

@[simp] theorem beBytes_length (n v : Nat) : (beBytes n v).length = n := by
  induction n generalizing v with
  | zero => rfl
  | succ n ih => simp [beBytes, ih]

theorem beNat_append (a b : List Byte) : beNat (a ++ b) = beNat a * 256 ^ b.length + beNat b := by
  induction b using List.reverseRecOn with
  | nil => simp [beNat]
  | append_singleton b x ih =>
    simp only [beNat, List.foldl_append, List.foldl_cons, List.foldl_nil, List.length_append,
      List.length_cons, List.length_nil, ← List.append_assoc] at ih ⊢
    rw [ih]
    ring

@[simp] theorem beNat_nil : beNat [] = 0 := rfl

@[simp] theorem beNat_singleton (b : Byte) : beNat [b] = b.toNat := by simp [beNat]

theorem beNat_cons (b : Byte) (bs : List Byte) :
    beNat (b :: bs) = b.toNat * 256 ^ bs.length + beNat bs := by
  simpa using beNat_append [b] bs

theorem beNat_lt (bs : List Byte) : beNat bs < 256 ^ bs.length := by
  induction bs with
  | nil => simp [beNat]
  | cons b bs ih =>
    have hb := b.isLt
    rw [beNat_cons, List.length_cons, pow_succ]
    nlinarith

/-- Reading back what was split into bytes (R12). -/
theorem beNat_beBytes (n v : Nat) : beNat (beBytes n v) = v % 256 ^ n := by
  induction n generalizing v with
  | zero => simp [beBytes, Nat.mod_one]
  | succ n ih =>
    have e : v % 256 ^ (n + 1) = v % 256 ^ n + 256 ^ n * (v / 256 ^ n % 256) := by
      rw [pow_succ, Nat.mod_mul]
    rw [beBytes, beNat_cons, ih, beBytes_length, BitVec.toNat_ofNat, e]
    ring

theorem beNat_beBytes_of_lt {n v : Nat} (h : v < 256 ^ n) : beNat (beBytes n v) = v := by
  rw [beNat_beBytes, Nat.mod_eq_of_lt h]

/-- Only the low `n` bytes of a value are written (R12). -/
theorem beBytes_add_mul (n v k : Nat) : beBytes n (k * 256 ^ n + v) = beBytes n v := by
  induction n generalizing v k with
  | zero => rfl
  | succ n ih =>
    have hpos : 0 < 256 ^ n := Nat.pow_pos (by decide)
    have e : k * 256 ^ (n + 1) + v = (k * 256) * 256 ^ n + v := by ring
    rw [beBytes, beBytes, e, ih v (k * 256), Nat.add_comm, Nat.add_mul_div_right _ _ hpos]
    congr 1
    apply BitVec.eq_of_toNat_eq
    simp [Nat.add_mod]

/-- Splitting what was read from bytes gives the bytes (R12). -/
theorem beBytes_beNat (bs : List Byte) : beBytes bs.length (beNat bs) = bs := by
  induction bs with
  | nil => rfl
  | cons b bs ih =>
    have hlt := beNat_lt bs
    have hpos : 0 < 256 ^ bs.length := Nat.pow_pos (by decide)
    rw [List.length_cons, beBytes, beNat_cons, beBytes_add_mul, ih, Nat.add_comm,
      Nat.add_mul_div_right _ _ hpos, Nat.div_eq_of_lt hlt]
    simp

end Sys2Proof

namespace Sys2Proof.Machine

/-! ### Writes -/

@[simp] theorem patch_length (off : Nat) (bs buf : List Byte) : (patch off bs buf).length = buf.length := by
  fun_induction patch off bs buf <;> simp_all

/-- Writing nothing changes nothing. -/
@[simp] theorem patch_nil (off : Nat) (buf : List Byte) : patch off [] buf = buf := by
  induction buf generalizing off with
  | nil => simp [patch]
  | cons x buf ih => cases off <;> simp [patch, ih]

/-- The byte at offset `i` after a write of `bs` at `off`. -/
theorem getElem?_patch (off : Nat) (bs buf : List Byte) (i : Nat) :
    (patch off bs buf)[i]? =
      if off ≤ i ∧ i < off + bs.length ∧ i < buf.length then bs[i - off]? else buf[i]? := by
  fun_induction patch off bs buf generalizing i with
  | case1 => simp
  | case2 x buf => simp
  | case3 b bs y buf ih =>
    cases i with
    | zero => simp
    | succ i => simp only [List.getElem?_cons_succ, ih]; simp
  | case4 off bs x buf ih =>
    cases i with
    | zero => simp
    | succ i =>
      simp only [List.getElem?_cons_succ, ih, List.length_cons]
      have e : i + 1 - (off + 1) = i - off := by omega
      rw [e]
      congr 1
      apply propext
      omega

/-- A write leaves every offset outside the written bytes alone. -/
theorem getElem?_patch_of_lt {off i : Nat} (bs buf : List Byte) (h : i < off) :
    (patch off bs buf)[i]? = buf[i]? := by
  rw [getElem?_patch, if_neg (by omega)]

/-- A write leaves every offset outside the written bytes alone. -/
theorem getElem?_patch_of_ge {off i : Nat} (bs buf : List Byte) (h : off + bs.length ≤ i) :
    (patch off bs buf)[i]? = buf[i]? := by
  rw [getElem?_patch, if_neg (by omega)]

/-- Reading bytes that a write does not touch. -/
theorem slice_patch_disjoint (off : Nat) (bs buf : List Byte) (a n : Nat)
    (h : a + n ≤ off ∨ off + bs.length ≤ a) :
    ((patch off bs buf).drop a).take n = (buf.drop a).take n := by
  apply List.ext_getElem?
  intro i
  simp only [List.getElem?_take, List.getElem?_drop]
  split
  · rw [getElem?_patch, if_neg (by omega)]
  · rfl

/-- Reading the bytes that were written. -/
theorem slice_patch_same (off : Nat) (bs buf : List Byte) (h : off + bs.length ≤ buf.length) :
    ((patch off bs buf).drop off).take bs.length = bs := by
  apply List.ext_getElem?
  intro i
  simp only [List.getElem?_take, List.getElem?_drop]
  split
  · rw [getElem?_patch, if_pos (by omega)]
    congr 1
    omega
  · exact (List.getElem?_eq_none (by omega)).symm

namespace Frame

@[simp] theorem writeBytes_iface (x : Frame) (off : Nat) (bs : List Byte) :
    (x.writeBytes off bs).iface = x.iface := rfl
@[simp] theorem memWrite_iface (x : Frame) (off n v : Nat) : (x.memWrite off n v).iface = x.iface := rfl
@[simp] theorem setByte_iface (x : Frame) (i : Nat) (b : Byte) : (x.setByte i b).iface = x.iface := rfl
@[simp] theorem swap_iface (x : Frame) (a c n : Nat) : (x.swap a c n).iface = x.iface := rfl
@[simp] theorem truncate_iface (x : Frame) (n : Nat) : (x.truncate n).iface = x.iface := rfl

@[simp] theorem writeBytes_len (x : Frame) (off : Nat) (bs : List Byte) :
    (x.writeBytes off bs).len = x.len := by simp [writeBytes, len]
@[simp] theorem memWrite_len (x : Frame) (off n v : Nat) : (x.memWrite off n v).len = x.len := by
  simp [memWrite]
@[simp] theorem setByte_len (x : Frame) (i : Nat) (b : Byte) : (x.setByte i b).len = x.len := by
  simp [setByte]
@[simp] theorem swap_len (x : Frame) (a c n : Nat) : (x.swap a c n).len = x.len := by simp [swap]
@[simp] theorem truncate_len (x : Frame) (n : Nat) : (x.truncate n).len = min n x.len := by
  simp [truncate, len]

/-- The bytes of a slice. -/
theorem getElem?_slice (x : Frame) (off n i : Nat) :
    (x.slice off n)[i]? = if i < n then x.buf[off + i]? else none := by
  simp [slice, List.getElem?_take, List.getElem?_drop]

theorem slice_length (x : Frame) (off n : Nat) (h : off + n ≤ x.len) : (x.slice off n).length = n := by
  simp [slice, len] at *
  omega

/-- A field reads what was written there (R12). -/
theorem memRead_memWrite_same (x : Frame) (off n v : Nat) (h : off + n ≤ x.len) :
    (x.memWrite off n v).memRead off n = v % 256 ^ n := by
  have := slice_patch_same off (beBytes n v) x.buf (by simpa [len] using h)
  rw [beBytes_length] at this
  simp [memRead, memWrite, writeBytes, field, this, beNat_beBytes]

/-- A field is not changed by a write elsewhere (R12). -/
theorem memRead_memWrite_disjoint (x : Frame) (off n v a m : Nat) (h : a + m ≤ off ∨ off + n ≤ a) :
    (x.memWrite off n v).memRead a m = x.memRead a m := by
  have e := slice_patch_disjoint off (beBytes n v) x.buf a m (by simpa using h)
  simp [memRead, memWrite, writeBytes, field, e]

/-- Every frame buffer is in the canonical form: equal frames are equal data, and every operation
keeps it, since each yields a frame. -/
theorem cells_wf (x : Frame) : Memory.wf x.cells = true := by
  have h : x.cells.map Prod.fst = List.range x.cells.length := by
    rw [cells, List.map_map]
    have e : (Prod.fst ∘ fun c : Byte × Nat => (c.2, c.1)) = Prod.snd := rfl
    rw [e, List.length_map, List.length_zipIdx, List.zipIdx_map_snd, List.range_eq_range']
  simp [Memory.wf, h]

/-- The cells determine the buffer. -/
theorem cells_injective (x y : Frame) (h : x.cells = y.cells) : x.buf = y.buf := by
  have e : ∀ z : Frame, z.cells.map Prod.snd = z.buf := by
    intro z
    rw [cells, List.map_map]
    have e : (Prod.snd ∘ fun c : Byte × Nat => (c.2, c.1)) = Prod.fst := rfl
    rw [e, List.zipIdx_map_fst]
  rw [← e x, ← e y, h]

end Frame

end Sys2Proof.Machine
end

