-- ==== Sys2Proof/Laws/Checksum.lean ====
section
/-! SUPPORT. One's-complement arithmetic (spec/42_checksum.md R140 to R150): the word sum splits over
even prefixes, folding depends on the residue modulo `0xFFFF`, and the incremental update of an IPv4
header's TTL is the recomputation. -/

namespace Sys2Proof.Machine

/-! ### Word sums (R140) -/

theorem wordSum_append (a b : List Byte) (h : a.length % 2 = 0) :
    wordSum (a ++ b) = wordSum a + wordSum b := by
  fun_induction wordSum a with
  | case1 hi lo rest ih =>
    simp only [List.length_cons] at h
    simp only [List.cons_append, wordSum, ih (by omega)]
    omega
  | case2 => simp at h
  | case3 => simp

/-- A 16-bit word written big-endian adds its value. -/
theorem wordSum_beBytes (v : Half) : wordSum (beBytes 2 v.toNat) = v.toNat := by
  have := v.isLt
  simp only [beBytes, wordSum, BitVec.toNat_ofNat]
  omega

/-- Two bytes read big-endian are their word. -/
theorem wordSum_pair (a b : Byte) : wordSum [a, b] = beNat [a, b] := by
  simp [wordSum, beNat]

/-! ### Folding (R141) -/

theorem fold16_le (s : Nat) : fold16 s ≤ 0xFFFF := by
  unfold fold16
  split <;> omega

theorem fold16_mod (s : Nat) : fold16 s % 0xFFFF = s % 0xFFFF := by
  unfold fold16
  split <;> omega

theorem fold16_eq_zero (s : Nat) : fold16 s = 0 ↔ s = 0 := by
  unfold fold16
  split <;> omega

/-- Positive numbers of the same residue fold alike. -/
theorem fold16_congr {a b : Nat} (ha : 0 < a) (hb : 0 < b) (h : a % 0xFFFF = b % 0xFFFF) :
    fold16 a = fold16 b := by
  have ca := fold16_mod a
  have cb := fold16_mod b
  have la := fold16_le a
  have lb := fold16_le b
  have za := fold16_eq_zero a
  have zb := fold16_eq_zero b
  omega

/-- A number that fits 16 bits is its own fold. -/
theorem fold16_of_le {s : Nat} (h : s ≤ 0xFFFF) : fold16 s = s := by
  unfold fold16
  split <;> omega

/-- One round of the loop keeps the fold. -/
theorem fold16_round {s : Nat} (h : 0xFFFF < s) : fold16 (s % 2 ^ 16 + s / 2 ^ 16) = fold16 s :=
  fold16_congr (by omega) (by omega) (by omega)

/-! ### `CSUM` and `CSUM.VERIFY` (R142, R143) -/

theorem csum_toNat (bs : List Byte) : (csum bs).toNat = 0xFFFF - fold16 (wordSum bs) := by
  simp only [csum, compl16, ocsum, BitVec.toNat_ofNat]
  omega

/-- `CSUM` depends on the residue of a positive sum only. -/
theorem csum_congr {a b : List Byte} (ha : 0 < wordSum a) (hb : 0 < wordSum b)
    (h : wordSum a % 0xFFFF = wordSum b % 0xFFFF) : csum a = csum b := by
  simp only [csum, ocsum, fold16_congr ha hb h]

theorem csumVerify_iff (bs : List Byte) :
    csumVerify bs = true ↔ 0 < wordSum bs ∧ wordSum bs % 0xFFFF = 0 := by
  have l := fold16_le (wordSum bs)
  have m := fold16_mod (wordSum bs)
  have z := fold16_eq_zero (wordSum bs)
  have e : csumVerify bs = true ↔ (csum bs).toNat = 0 := by
    rw [csumVerify, beq_iff_eq, ← BitVec.toNat_inj]
    rfl
  rw [e, csum_toNat]
  omega

/-! ### `CSUM.INCR` (R144) -/

theorem csumIncr_toNat (hc m m' : Half) :
    (csumIncr hc m m').toNat =
      0xFFFF - fold16 ((0xFFFF - hc.toNat) + (0xFFFF - m.toNat) + m'.toNat) := by
  simp only [csumIncr, compl16, BitVec.toNat_ofNat]
  omega

/-- The incremental update in terms of sums: with the other words summing to `rest`, from a valid sum
to the recomputed one (R145). -/
theorem csumIncr_of_sums (hc m m' : Half) (rest : Nat) (z : List Byte)
    (valid : (rest + m.toNat + hc.toNat) % 0xFFFF = 0)
    (pos : 0 < (0xFFFF - hc.toNat) + (0xFFFF - m.toNat) + m'.toNat)
    (zsum : wordSum z = rest + m'.toNat) (zpos : 0 < wordSum z) : csumIncr hc m m' = csum z := by
  have hh := hc.isLt
  have hm := m.isLt
  apply BitVec.eq_of_toNat_eq
  rw [csumIncr_toNat, csum_toNat, fold16_congr pos zpos (by rw [zsum]; omega)]

/-! ### The IPv4 header (R147) -/

/-- The word sum of a header by its fields. -/
theorem wordSum_ipv4Header (h : Ipv4Frame) :
    wordSum (ipv4Header h) =
      (h.ver ++ h.ihl : Byte).toNat * 256 + h.tos.toNat + h.totalLen.toNat + h.ident.toNat +
        h.frag.toNat + (h.ttl.toNat * 256 + h.proto.toNat) + h.csum.toNat +
        wordSum (beBytes 4 h.ipSrc.toNat) + wordSum (beBytes 4 h.ipDst.toNat) := by
  simp only [ipv4Header]
  rw [wordSum_append _ _ (by simp), wordSum_append _ _ (by simp), wordSum_append _ _ (by simp),
    wordSum_append _ _ (by simp), wordSum_append _ _ (by simp), wordSum_append _ _ (by simp),
    wordSum_append _ _ (by simp)]
  simp only [wordSum_beBytes]
  simp only [wordSum]
  omega

/-- Setting the checksum field of a header whose field is zero adds its value. -/
theorem wordSum_withIpSum (h : Ipv4Frame) :
    wordSum (ipv4Header (withIpSum h)) =
      wordSum (ipv4Header { h with csum := 0 }) + (csum (ipv4Header { h with csum := 0 })).toNat := by
  rw [wordSum_ipv4Header (withIpSum h), wordSum_ipv4Header { h with csum := 0 }]
  have z : (0 : Half).toNat = 0 := rfl
  simp only [withIpSum, z]
  omega

/-- A header with a fresh checksum verifies (R150). -/
theorem withIpSum_verifies (h : Ipv4Frame) : csumVerify (ipv4Header (withIpSum h)) = true := by
  have l := fold16_le (wordSum (ipv4Header { h with csum := 0 }))
  have m := fold16_mod (wordSum (ipv4Header { h with csum := 0 }))
  have z := fold16_eq_zero (wordSum (ipv4Header { h with csum := 0 }))
  rw [csumVerify_iff, wordSum_withIpSum, csum_toNat]
  omega

/-- The word that holds the TTL (R95). -/
theorem ttlWord_toNat (t p : Byte) : (t ++ p : Half).toNat = t.toNat * 256 + p.toNat := by
  have hp := p.isLt
  rw [BitVec.toNat_append, Nat.shiftLeft_eq, Nat.mul_comm, ← Nat.two_pow_add_eq_or_of_lt hp,
    Nat.mul_comm]

/-- Step 3f's incremental update is the recomputation on a valid header with TTL at least 2 (R235). -/
theorem decFields_csum (h : Ipv4Frame) (valid : csumVerify (ipv4Header h) = true)
    (live : 2 ≤ h.ttl.toNat) :
    csumIncr h.csum (h.ttl ++ h.proto) ((h.ttl ++ h.proto) - 0x0100) = (decFields h).csum := by
  have ht := h.ttl.isLt
  have hp := h.proto.isLt
  have hm := ttlWord_toNat h.ttl h.proto
  have hm' : ((h.ttl ++ h.proto : Half) - 0x0100).toNat = h.ttl.toNat * 256 + h.proto.toNat - 256 := by
    rw [BitVec.toNat_sub, hm]
    simp only [BitVec.ofNat_eq_ofNat, BitVec.toNat_ofNat]
    omega
  have ht' : (h.ttl - 1).toNat = h.ttl.toNat - 1 := by
    rw [BitVec.toNat_sub]
    simp only [BitVec.ofNat_eq_ofNat, BitVec.toNat_ofNat]
    omega
  have s0 := wordSum_ipv4Header h
  have s1 : wordSum (ipv4Header { h with ttl := h.ttl - 1, csum := 0 }) =
      wordSum (ipv4Header h) - h.csum.toNat - 256 := by
    rw [wordSum_ipv4Header { h with ttl := h.ttl - 1, csum := 0 }, s0, ht']
    have z : (0 : Half).toNat = 0 := rfl
    simp only [z]
    omega
  rw [csumVerify_iff] at valid
  refine csumIncr_of_sums h.csum _ _
    (wordSum (ipv4Header h) - (h.ttl.toNat * 256 + h.proto.toNat) - h.csum.toNat) _ ?_ ?_ ?_ ?_
  · omega
  · omega
  · exact s1.trans (by omega)
  · rw [s1]
    omega

end Sys2Proof.Machine
end

