-- ==== Sys2Proof/Laws/Frames.lean ====
section
/-! SUPPORT. Frames field by field: what the fields of an encoded frame read as, and what the in-place
rewritings of the engine do to each field (spec/43_icmp_synth.md R161, spec/44_arp.md R191, R201, R205,
spec/45_dispatch.md R235, R236). -/

namespace Sys2Proof.Machine

/-! ### Lengths -/

@[simp] theorem encodeIpv4_length (h : Ipv4Frame) : (encodeIpv4 h).length = 42 + h.tail.length := by
  simp [encodeIpv4]
  omega

@[simp] theorem encodeArp_length (op : Half) (h : ArpFrame) :
    (encodeArp op h).length = 42 + h.pad.length := by
  simp [encodeArp]
  omega

@[simp] theorem encodeEth_length (h : EthFrame) : (encodeEth h).length = 14 + h.payload.length := by
  simp [encodeEth]
  omega

/-! ### What the fields read as -/

/-- An `n`-byte field reads the value whose bytes stand there. -/
theorem field_of_slice {b : List Byte} {off n v : Nat} (h : (b.drop off).take n = beBytes n v)
    (lt : v < 256 ^ n) : field b off n = v := by
  rw [field, h, beNat_beBytes_of_lt lt]

section Ipv4

variable (h : Ipv4Frame) (i : Nat)

@[simp] theorem ipv4_ethType : Frame.ethType ⟨encodeIpv4 h, i⟩ = 0x0800 := by
  have e : field (encodeIpv4 h) 12 2 = 0x0800 :=
    field_of_slice (by simp [encodeIpv4, beBytes, etherIpv4]) (by decide)
  simp [Frame.ethType, Frame.memRead, e]

@[simp] theorem ipv4_ipDst : Frame.ipDst ⟨encodeIpv4 h, i⟩ = h.ipDst := by
  have e : field (encodeIpv4 h) 30 4 = h.ipDst.toNat :=
    field_of_slice (by simp [encodeIpv4, beBytes]) (by have := h.ipDst.isLt; omega)
  simp [Frame.ipDst, Frame.memRead, e]

@[simp] theorem ipv4_ipCsum : Frame.ipCsum ⟨encodeIpv4 h, i⟩ = h.csum := by
  have e : field (encodeIpv4 h) 24 2 = h.csum.toNat :=
    field_of_slice (by simp [encodeIpv4, beBytes]) (by have := h.csum.isLt; omega)
  simp [Frame.ipCsum, Frame.memRead, e]

@[simp] theorem ipv4_ttlWord : Frame.ttlWord ⟨encodeIpv4 h, i⟩ = h.ttl ++ h.proto := by
  have e : field (encodeIpv4 h) 22 2 = h.ttl.toNat * 256 + h.proto.toNat := by
    rw [field, show ((encodeIpv4 h).drop 22).take 2 = [h.ttl, h.proto] by simp [encodeIpv4, beBytes]]
    simp [beNat]
  rw [Frame.ttlWord, Frame.memRead, e, ← ttlWord_toNat]
  simp

@[simp] theorem ipv4_ipTtl : Frame.ipTtl ⟨encodeIpv4 h, i⟩ = h.ttl := by
  simp [Frame.ipTtl, Frame.byte, byteAt, encodeIpv4, beBytes]

@[simp] theorem ipv4_byte22 : Frame.byte ⟨encodeIpv4 h, i⟩ 22 = h.ttl := ipv4_ipTtl h i

@[simp] theorem ipv4_isEchoRequest :
    Frame.isEchoRequest ⟨encodeIpv4 h, i⟩ = (h.proto == 1 && h.icmpType == 8) := by
  simp [Frame.isEchoRequest, Frame.ipProto, Frame.icmpType, Frame.byte, byteAt, encodeIpv4, beBytes]

@[simp] theorem ipv4_ipHeader : Frame.ipHeader ⟨encodeIpv4 h, i⟩ = ipv4Header h := by
  simp [Frame.ipHeader, Frame.slice, encodeIpv4, ipv4Header, beBytes]

@[simp] theorem ipv4_icmpHeader : Frame.icmpHeader ⟨encodeIpv4 h, i⟩ = icmpBytes h := by
  simp [Frame.icmpHeader, Frame.slice, encodeIpv4, icmpBytes, beBytes]

@[simp] theorem ipv4_synthReady : Frame.synthReady ⟨encodeIpv4 h, i⟩ = true := by
  simp [Frame.synthReady, Frame.len, windowLen, etherIpv4]

end Ipv4

section Arp

variable (op : Half) (h : ArpFrame) (i : Nat)

@[simp] theorem arp_arpSpa : Frame.arpSpa ⟨encodeArp op h, i⟩ = h.spa := by
  have e : field (encodeArp op h) 28 4 = h.spa.toNat :=
    field_of_slice (by simp [encodeArp, beBytes]) (by have := h.spa.isLt; omega)
  simp [Frame.arpSpa, Frame.memRead, e]

@[simp] theorem arp_arpSha : Frame.arpSha ⟨encodeArp op h, i⟩ = h.sha := by
  have e : field (encodeArp op h) 22 6 = h.sha.toNat :=
    field_of_slice (by simp [encodeArp, beBytes]) (by have := h.sha.isLt; omega)
  simp [Frame.arpSha, Frame.memRead, e]

@[simp] theorem arp_arpTpa : Frame.arpTpa ⟨encodeArp op h, i⟩ = h.tpa := by
  have e : field (encodeArp op h) 38 4 = h.tpa.toNat :=
    field_of_slice (by simp [encodeArp, beBytes]) (by have := h.tpa.isLt; omega)
  simp [Frame.arpTpa, Frame.memRead, e]

end Arp

/-! ### The rewritings -/

/-- The version nibble stays, the header length becomes 5 (R161 step 3). -/
theorem setIhl (v l : BitVec 4) :
    ((v ++ l : Byte) &&& 0xF0) ||| 0x05 = (v ++ (5 : BitVec 4) : Byte) := by
  revert v l
  decide +kernel

/-- The synthesizer on every field (R161). -/
theorem synthFrame_encode (fn : TtlFn) (t : Byte) (h : Ipv4Frame) (i : Nat) :
    synthFrame fn t ⟨encodeIpv4 h, i⟩ = ⟨encodeIpv4 (synthFields fn t h), i⟩ := by
  have e := setIhl h.ver h.ihl
  unfold synthFrame synthAddresses
  simp only [encodeIpv4, beBytes, List.cons_append, List.nil_append]
  simp only [Frame.swap, Frame.setByte, Frame.memWrite, Frame.writeBytes, Frame.slice, Frame.byte,
    byteAt, patch, List.drop, List.take, List.getD_cons_zero, List.getD_cons_succ, beBytes]
  simp only [synthIpSum, synthIcmp, Frame.truncate, Frame.ipHeader, Frame.icmpHeader, Frame.setByte,
    Frame.memWrite, Frame.writeBytes, Frame.slice, Frame.byte, byteAt, patch, List.drop, List.take,
    List.getD_cons_zero, List.getD_cons_succ, beBytes, windowLen, e]
  simp only [synthFields, withIpSum, ipv4Header, icmpBytes, beBytes, List.cons_append, List.nil_append]
  rfl

/-- The reply to an ARP request on every field (R191, R192). -/
theorem arpReplyFrame_encode (eth : ArpReplyEth) (row : IfRow) (h : ArpFrame) (i : Nat) :
    arpReplyFrame eth row ⟨encodeArp 1 h, i⟩ = ⟨encodeArp 2 { h with
      dst := h.src, src := if eth = .swap then h.dst else row.mac,
      sha := row.mac, spa := row.ip, tha := h.sha, tpa := h.spa }, i⟩ := by
  cases eth <;> (
    unfold arpReplyFrame
    simp only [encodeArp, beBytes, List.cons_append, List.nil_append, reduceCtorEq, if_true, if_false]
    simp only [Frame.swap, Frame.memWrite, Frame.writeBytes, Frame.slice, patch, patch_nil,
      List.drop, List.take, beBytes]
    rfl)

/-- The frame a drain releases, on every field (R201). -/
theorem releaseFrame_encode (rewrite : Bool) (out mac : Mac) (r : Route) (h : Ipv4Frame) (i : Nat) :
    releaseFrame rewrite out mac r ⟨encodeIpv4 h, i⟩ =
      ⟨encodeIpv4 { h with dst := mac, src := if rewrite then out else h.src }, r.iface⟩ := by
  cases rewrite <;> (
    unfold releaseFrame
    simp only [encodeIpv4, beBytes, List.cons_append, List.nil_append, Bool.false_eq_true, if_true,
      if_false]
    simp only [Frame.memWrite, Frame.writeBytes, patch, beBytes])

/-- The frame the hit path sends, on every field (R236). -/
theorem forwardFrame_encode (out mac : Mac) (r : Route) (h : Ipv4Frame) (i : Nat) :
    forwardFrame out mac r ⟨encodeIpv4 h, i⟩ = ⟨encodeIpv4 { h with dst := mac, src := out }, r.iface⟩ := by
  unfold forwardFrame
  simp only [encodeIpv4, beBytes, List.cons_append, List.nil_append]
  simp only [Frame.memWrite, Frame.writeBytes, patch, beBytes]

/-- Step 3f on every field, for any new checksum (R235). -/
theorem decFrame_encode (h : Ipv4Frame) (i : Nat) :
    decFrame ⟨encodeIpv4 h, i⟩ =
      ⟨encodeIpv4 { h with
        ttl := h.ttl - 1,
        csum := csumIncr h.csum (h.ttl ++ h.proto) ((h.ttl ++ h.proto) - 0x0100) }, i⟩ := by
  unfold decFrame
  rw [ipv4_ipCsum, ipv4_ttlWord, ipv4_byte22]
  simp only [encodeIpv4, beBytes, List.cons_append, List.nil_append]
  simp only [Frame.setByte, Frame.memWrite, Frame.writeBytes, patch, beBytes]

/-- Step 3f on a valid header with a live TTL: the checksum is the one computed from scratch
(R145, R235). -/
theorem decFrame_valid (h : Ipv4Frame) (i : Nat) (valid : csumVerify (ipv4Header h) = true)
    (live : 2 ≤ h.ttl.toNat) : decFrame ⟨encodeIpv4 h, i⟩ = ⟨encodeIpv4 (decFields h), i⟩ := by
  rw [decFrame_encode, decFields_csum h valid live]
  rfl

/-- The emitted request, byte by byte (R205). -/
theorem arpRequestFor_bytes (tha : Mac) (row : IfRow) (nh : Ip) :
    arpRequestFor tha row nh = requestBytes tha row nh := by
  unfold arpRequestFor requestBytes encodeArp
  simp only [beBytes, List.cons_append, List.nil_append, List.append_nil, List.replicate]
  rfl

@[simp] theorem requestBytes_length (tha : Mac) (row : IfRow) (nh : Ip) :
    (requestBytes tha row nh).length = 42 := by
  simp [requestBytes]

/-! ### The fields that the rewritings leave alone -/

@[simp] theorem synthFields_tail (fn : TtlFn) (t : Byte) (h : Ipv4Frame) :
    (synthFields fn t h).tail = [] := rfl
@[simp] theorem decFields_tail (h : Ipv4Frame) : (decFields h).tail = h.tail := rfl
@[simp] theorem decFields_ipDst (h : Ipv4Frame) : (decFields h).ipDst = h.ipDst := rfl
@[simp] theorem decFields_ttl (h : Ipv4Frame) : (decFields h).ttl = h.ttl - 1 := rfl

end Sys2Proof.Machine
end

