-- ==== Sys2Proof/Laws/Operations.lean ====
section
/-! SUPPORT. One lemma for each shared operation that says what it does on the states its callers give
it: transmit (spec/46_host_interface.md R263, R264), receive (R261, R262), lookup (spec/41_lpm_lookup.md
R122), synthesizer (spec/43_icmp_synth.md R161), cache insert, enqueue, request and the disposal of a
pending entry (spec/44_arp.md R182, R186, R201, R205). -/

namespace Sys2Proof.Machine

variable (s : State)

/-! ### Transmit and receive -/

theorem txReady_iff (fr : Frame) : s.txReady fr = true ↔
    fr.iface < s.iftab.length ∧ 14 ≤ fr.buf.length ∧ fr.buf.length ≤ s.cfg.maxFrame := by
  unfold State.txReady
  simp only [Bool.and_eq_true, decide_eq_true_eq, and_assoc]
  exact Iff.rfl

theorem txFrame_sent (fr : Frame) (ready : s.txReady fr = true) (ok : s.txFail.headD false = false) :
    txFrame fr s = .go { s with txFail := s.txFail.tail, txTrace := s.txTrace ++ [fr] } := by
  have ok' : s.txFails = false := ok
  simp [txFrame, ready, ok', State.popTx, State.sent]

theorem txFrame_failed (fr : Frame) (ready : s.txReady fr = true) (bad : s.txFail.headD false = true) :
    txFrame fr s = .ended { s with
      txFail := s.txFail.tail, dsm := .sHalt, dsmTrace := s.dsmTrace ++ [.sHalt],
      runState := .halted, faultCause := .txIo } := by
  have bad' : s.txFails = true := bad
  simp [txFrame, ready, bad', State.popTx, State.raise]

/-- Everything `TX` can do. -/
theorem txFrame_cases (fr : Frame) :
    (txFrame fr s = .go { s with txFail := s.txFail.tail, txTrace := s.txTrace ++ [fr] } ∧
      s.txFails = false) ∨
    (txFrame fr s = .ended { s with
      txFail := s.txFail.tail, dsm := .sHalt, dsmTrace := s.dsmTrace ++ [.sHalt],
      runState := .halted, faultCause := .txIo } ∧ s.txFails = true) ∨
    txFrame fr s = .refused .txPrecondition := by
  unfold txFrame
  cases s.txReady fr <;> cases s.txFails <;> simp [State.popTx, State.sent, State.raise]

/-! ### Lookup and synthesizer -/

theorem lookupOp_wf (d : Ip) (wf : tableWf s.iftab.length s.rt = true) :
    lookupOp d s = .go { s with curRoute := lpmLookup s.rt d } := by
  simp [lookupOp, State.nIf, wf]

theorem synthOp_encode (x : FrameReg) (t : Byte) (h : Ipv4Frame) (i : Nat)
    (e : s.frame x = ⟨encodeIpv4 h, i⟩) :
    synthOp x t s = .go (s.setFrame x ⟨encodeIpv4 (synthFields s.cfg.synthTtlFn t h), i⟩) := by
  simp [synthOp, e, synthFrame_encode]

/-- The best Route so far is a Route of the table, or the one the scan began with. -/
theorem lpmScan_mem (d : Ip) (rt : List Route) (best : Option Route) (r : Route)
    (h : lpmScan d rt best = some r) : r ∈ rt ∨ best = some r := by
  induction rt generalizing best with
  | nil => exact .inr h
  | cons q rest ih =>
    rw [lpmScan] at h
    rcases ih _ h with m | m
    · exact .inl (List.mem_cons_of_mem _ m)
    · split at m
      · unfold better at m
        split at m
        · cases m
          exact .inl List.mem_cons_self
        · split at m
          · cases m
            exact .inl List.mem_cons_self
          · exact .inr m
      · exact .inr m

/-- A Route found in a well-formed table leaves by an interface that exists (R121). -/
theorem lpmLookup_iface {n : Nat} {rt : List Route} {d : Ip} {r : Route}
    (wf : tableWf n rt = true) (h : lpmLookup rt d = some r) : r.iface < n := by
  rcases lpmScan_mem d rt none r h with m | m
  · have := List.all_eq_true.mp wf r m
    simp only [routeWf, Bool.and_eq_true, decide_eq_true_eq] at this
    exact this.2
  · cases m

/-- The row of a Route found in a well-formed table. -/
theorem lpmLookup_row {d : Ip} {r : Route} (wf : tableWf s.iftab.length s.rt = true)
    (h : lpmLookup s.rt d = some r) : ∃ row, s.iftab[r.iface]? = some row :=
  ⟨_, List.getElem?_eq_getElem (lpmLookup_iface wf h)⟩

/-! ### Tables -/

/-- Insert with room, or with the key already there (R182). -/
theorem arpInsertOp_learns (a : Ip) (m : Mac)
    (room : arpLookup s.arpc a ≠ none ∨ below s.arpc.length s.cfg.arpcDepth = true) :
    arpInsertOp a m s = .go { s with arpc := s.learns a m } := by
  unfold arpInsertOp State.learns
  cases h : arpLookup s.arpc a with
  | some _ => cases h' : s.cfg.arpDupPolicy <;> rfl
  | none =>
    have b : below s.arpc.length s.cfg.arpcDepth = true := by simpa [h] using room
    simp [b]

theorem arpInsertOp_full (a : Ip) (m : Mac) (miss : arpLookup s.arpc a = none)
    (full : below s.arpc.length s.cfg.arpcDepth = false) :
    arpInsertOp a m s = .ended (s.raise .capacity) := by
  simp [arpInsertOp, miss, full]

theorem arpLookup_append (c : List ArpEntry) (a : Ip) (m : Mac) (miss : arpLookup c a = none) :
    arpLookup (c ++ [⟨a, m⟩]) a = some m := by
  induction c with
  | nil => simp [arpLookup]
  | cons e rest ih =>
    simp only [List.cons_append, arpLookup] at miss ⊢
    split
    · rename_i h
      rw [if_pos h] at miss
      cases miss
    · rename_i h
      rw [if_neg h] at miss
      exact ih miss

/-- Insertion of one key leaves the answer for every other key alone. -/
theorem arpLookup_append_ne (c : List ArpEntry) (a b : Ip) (m : Mac) (ne : b ≠ a) :
    arpLookup (c ++ [⟨a, m⟩]) b = arpLookup c b := by
  induction c with
  | nil => simp [arpLookup, Ne.symm ne]
  | cons e rest ih => simp only [List.cons_append, arpLookup, ih]

theorem arpLookup_replace (c : List ArpEntry) (a b : Ip) (m : Mac) :
    arpLookup (arpReplace c a m) b =
      if b = a then (arpLookup c b).map (fun _ => m) else arpLookup c b := by
  induction c with
  | nil => simp [arpLookup, arpReplace]
  | cons e rest ih =>
    simp only [arpReplace, arpLookup]
    by_cases h : e.ip = a
    · by_cases h' : b = a
      · subst h'
        simp [arpLookup, h]
      · have ne : e.ip ≠ b := fun x => h' (x ▸ h)
        simp [arpLookup, h, h', Ne.symm h']
    · simp only [h, if_false, arpLookup, ih]
      by_cases h' : e.ip = b
      · have ne : b ≠ a := fun x => h (h'.trans x)
        simp [h', ne]
      · simp [h']

/-- After an insert the key is a hit (R202). -/
theorem arpLookup_learns (a : Ip) (m : Mac) : arpLookup (s.learns a m) a ≠ none := by
  unfold State.learns
  cases h : arpLookup s.arpc a with
  | none => simp [arpLookup_append s.arpc a m h]
  | some v => cases s.cfg.arpDupPolicy <;> simp [h, arpLookup_replace]

/-- An insert leaves the answer for every other key alone (R182). -/
theorem arpLookup_learns_ne (a b : Ip) (m : Mac) (ne : b ≠ a) :
    arpLookup (s.learns a m) b = arpLookup s.arpc b := by
  unfold State.learns
  cases h : arpLookup s.arpc a with
  | none => exact arpLookup_append_ne s.arpc a b m ne
  | some v => cases s.cfg.arpDupPolicy <;> simp [ne, arpLookup_replace]

theorem pqEnqOp_room (fr : Frame) (room : below s.pq.length s.cfg.pqDepth = true) :
    pqEnqOp fr s = .go { s with pq := s.pq ++ [fr] } := by
  simp [pqEnqOp, room]

theorem pqEnqOp_full (fr : Frame) (full : below s.pq.length s.cfg.pqDepth = false) :
    pqEnqOp fr s = .ended (s.raise .capacity) := by
  simp [pqEnqOp, full]

/-- A place freed by a dequeue is enough for an enqueue (R201). -/
theorem below_of_atMost_succ {n : Nat} {d : Option Nat} (h : atMost (n + 1) d = true) :
    below n d = true := by
  cases d with
  | none => rfl
  | some d =>
    simp only [atMost, below, decide_eq_true_eq] at h ⊢
    omega

theorem atMost_of_below {n : Nat} {d : Option Nat} (h : below n d = true) :
    atMost (n + 1) d = true := by
  cases d with
  | none => rfl
  | some d =>
    simp only [atMost, below, decide_eq_true_eq] at h ⊢
    omega

theorem atMost_mono {n m : Nat} {d : Option Nat} (le : n ≤ m) (h : atMost m d = true) :
    atMost n d = true := by
  cases d with
  | none => rfl
  | some d =>
    simp only [atMost, decide_eq_true_eq] at h ⊢
    omega

/-! ### Requests and disposals -/

theorem arpReqEmitOp_sent (nh : Ip) (i : Nat) (row : IfRow) (hr : s.iftab[i]? = some row)
    (big : 42 ≤ s.cfg.maxFrame) (ok : s.txFail.headD false = false) :
    arpReqEmitOp nh i s = .go { s with
      g := ⟨requestBytes s.cfg.arpreqTha row nh, i⟩, txFail := s.txFail.tail,
      txTrace := s.txTrace ++ [⟨requestBytes s.cfg.arpreqTha row nh, i⟩] } := by
  have lt : i < s.iftab.length := (List.getElem?_eq_some_iff.mp hr).1
  simp only [arpReqEmitOp, State.ifRow, hr, arpRequestFor_bytes]
  exact txFrame_sent { s with g := _ } _ ((txReady_iff _ _).mpr ⟨lt, by simp, by simpa using big⟩) ok

theorem arpReqEmitOp_failed (nh : Ip) (i : Nat) (row : IfRow) (hr : s.iftab[i]? = some row)
    (big : 42 ≤ s.cfg.maxFrame) (bad : s.txFail.headD false = true) :
    arpReqEmitOp nh i s = .ended { s with
      g := ⟨requestBytes s.cfg.arpreqTha row nh, i⟩, txFail := s.txFail.tail,
      dsm := .sHalt, dsmTrace := s.dsmTrace ++ [.sHalt],
      runState := .halted, faultCause := .txIo } := by
  have lt : i < s.iftab.length := (List.getElem?_eq_some_iff.mp hr).1
  simp only [arpReqEmitOp, State.ifRow, hr, arpRequestFor_bytes]
  exact txFrame_failed { s with g := _ } _ ((txReady_iff _ _).mpr ⟨lt, by simp, by simpa using big⟩) bad

/-- The local-address test is the one the rules state (R191, R231). -/
theorem isLocal_iff (i : Nat) (row : IfRow) (hr : s.iftab[i]? = some row) (a : Ip) :
    s.isLocal i a = true ↔ s.ownAddress row a := by
  unfold State.isLocal State.ownAddress
  cases s.cfg.localScope
  · simp only [State.ifRow, hr, Option.any_some, beq_iff_eq, reduceCtorEq, true_and, false_and,
      or_false]
    exact ⟨Eq.symm, Eq.symm⟩
  · simp only [List.any_eq_true, beq_iff_eq, reduceCtorEq, true_and, false_and, false_or]
    exact ⟨fun ⟨x, m, e⟩ => ⟨x, m, e.symm⟩, fun ⟨x, m, e⟩ => ⟨x, m, e.symm⟩⟩

end Sys2Proof.Machine
end

