-- ==== Sys2Proof/Laws/Arp.lean ====
section
/-! SUPPORT. The ARP request arm, and each way a drain disposes of a pending entry given by its fields
(spec/44_arp.md R191, R201). -/

namespace Sys2Proof.Machine

/-! ### The request arm (R191) -/

section Request

variable {t : State} {h : ArpFrame} {i : Nat} {row : IfRow}

/-- The reply made of a request, as R191 lists its fields. -/
theorem arpRequestFlow_eq (e : t.f = ⟨encodeArp 1 h, i⟩) (hr : t.iftab[i]? = some row) :
    arpRequestFlow t =
      if t.isLocal i h.tpa then
        (txFrame ⟨encodeArp 2 { h with
            dst := h.src, src := if t.cfg.arpReplyEth = .swap then h.dst else row.mac,
            sha := row.mac, spa := row.ip, tha := h.sha, tpa := h.spa }, i⟩
          { t.enter .sArpReq with f := ⟨encodeArp 2 { h with
            dst := h.src, src := if t.cfg.arpReplyEth = .swap then h.dst else row.mac,
            sha := row.mac, spa := row.ip, tha := h.sha, tpa := h.spa }, i⟩ }).andThen
          fun u => .ended (u.finish .arpReplied)
      else .ended ((t.enter .sArpReq).finish .dropArpNotLocal) := by
  have r : t.ifRow t.f.iface = some row := by
    rw [e]
    exact hr
  have l : t.f.iface = i := by rw [e]
  have a : t.f.arpTpa = h.tpa := by rw [e, arp_arpTpa]
  have y := arpReplyFrame_encode t.cfg.arpReplyEth row h i
  unfold arpRequestFlow
  rw [r]
  dsimp only
  rw [a, l, e, y]

theorem arpRequestFlow_far (e : t.f = ⟨encodeArp 1 h, i⟩) (hr : t.iftab[i]? = some row)
    (far : ¬ t.ownAddress row h.tpa) :
    arpRequestFlow t = .ended ((t.enter .sArpReq).finish .dropArpNotLocal) := by
  rw [arpRequestFlow_eq e hr, if_neg (mt (isLocal_iff t i row hr h.tpa).mp far)]

theorem arpRequestFlow_sent (e : t.f = ⟨encodeArp 1 h, i⟩) (hr : t.iftab[i]? = some row)
    (own : t.ownAddress row h.tpa) (big : 42 + h.pad.length ≤ t.cfg.maxFrame)
    (ok : t.txFail.headD false = false) (y : Frame)
    (hy : y = ⟨encodeArp 2 { h with
      dst := h.src, src := if t.cfg.arpReplyEth = .swap then h.dst else row.mac,
      sha := row.mac, spa := row.ip, tha := h.sha, tpa := h.spa }, i⟩) :
    arpRequestFlow t = .ended { t with
      f := y, txFail := t.txFail.tail, txTrace := t.txTrace ++ [y], dsm := .sRx,
      dsmTrace := t.dsmTrace ++ [.sArpReq, .sRx], outcomes := t.outcomes ++ [.arpReplied] } := by
  have lt : i < t.iftab.length := (List.getElem?_eq_some_iff.mp hr).1
  have len : y.buf.length = 42 + h.pad.length := by rw [hy, encodeArp_length]
  have face : y.iface = i := by rw [hy]
  rw [arpRequestFlow_eq e hr, if_pos ((isLocal_iff t i row hr h.tpa).mpr own), ← hy]
  have ready : ({ t.enter .sArpReq with f := y } : State).txReady y = true :=
    (txReady_iff _ _).mpr ⟨face ▸ lt, by omega, len ▸ big⟩
  rw [txFrame_sent _ _ ready ok]
  simp [State.enter, State.finish]

theorem arpRequestFlow_failed (e : t.f = ⟨encodeArp 1 h, i⟩) (hr : t.iftab[i]? = some row)
    (own : t.ownAddress row h.tpa) (big : 42 + h.pad.length ≤ t.cfg.maxFrame)
    (bad : t.txFail.headD false = true) (y : Frame)
    (hy : y = ⟨encodeArp 2 { h with
      dst := h.src, src := if t.cfg.arpReplyEth = .swap then h.dst else row.mac,
      sha := row.mac, spa := row.ip, tha := h.sha, tpa := h.spa }, i⟩) :
    arpRequestFlow t = .ended { t with
      f := y, txFail := t.txFail.tail, dsm := .sHalt,
      dsmTrace := t.dsmTrace ++ [.sArpReq, .sHalt], runState := .halted, faultCause := .txIo } := by
  have lt : i < t.iftab.length := (List.getElem?_eq_some_iff.mp hr).1
  have len : y.buf.length = 42 + h.pad.length := by rw [hy, encodeArp_length]
  have face : y.iface = i := by rw [hy]
  rw [arpRequestFlow_eq e hr, if_pos ((isLocal_iff t i row hr h.tpa).mpr own), ← hy]
  have ready : ({ t.enter .sArpReq with f := y } : State).txReady y = true :=
    (txReady_iff _ _).mpr ⟨face ▸ lt, by omega, len ▸ big⟩
  rw [txFrame_failed _ _ ready bad]
  simp [State.enter]

end Request

/-! ### Disposals (R201) -/

section Dispose

variable {t : State} {e : Pending} {r : Route}

/-- The lookup that every disposal begins with. -/
theorem disposeOp_eq (hp : t.p = pendingFrame e) (wf : tableWf t.iftab.length t.rt = true) :
    disposeOp t =
      match lpmLookup t.rt e.1.ipDst with
      | none => disposeUnreach { t with curDst := e.1.ipDst, curRoute := none }
      | some r => disposeRouted r { t with curDst := e.1.ipDst, curRoute := some r } := by
  have d : t.p.ipDst = e.1.ipDst := by rw [hp, pendingFrame, ipv4_ipDst]
  have len : ¬ t.p.len < 34 := by simp [hp, pendingFrame, Frame.len]; omega
  unfold disposeOp
  rw [if_neg len, d, lookupOp_wf _ _ (by exact wf), Flow.andThen_go]
  dsimp only
  cases lpmLookup t.rt e.1.ipDst <;> rfl

/-- Case (a): no Route. -/
theorem disposeUnreach_sent (hp : t.p = pendingFrame e) (hi : e.2 < t.iftab.length)
    (big : 42 ≤ t.cfg.maxFrame) (ok : t.txFail.headD false = false) (y : Frame)
    (hy : y = ⟨encodeIpv4 (synthFields t.cfg.synthTtlFn 3 e.1), e.2⟩) :
    disposeUnreach t = .go (State.labelled { t with
      p := y, txFail := t.txFail.tail, txTrace := t.txTrace ++ [y] } .unreach) := by
  have ready : ({ t with p := y } : State).txReady y = true :=
    (txReady_iff _ _).mpr ⟨by rw [hy]; exact hi, by simp [hy], by simpa [hy] using big⟩
  rw [disposeUnreach, synthOp_encode t .P 3 e.1 e.2 hp, Flow.andThen_go, State.setFrame_P, ← hy,
    txFrame_sent _ _ ready ok, Flow.andThen_go]

theorem disposeUnreach_failed (hp : t.p = pendingFrame e) (hi : e.2 < t.iftab.length)
    (big : 42 ≤ t.cfg.maxFrame) (bad : t.txFail.headD false = true) (y : Frame)
    (hy : y = ⟨encodeIpv4 (synthFields t.cfg.synthTtlFn 3 e.1), e.2⟩) :
    disposeUnreach t = .ended { t with
      p := y, txFail := t.txFail.tail, dsm := .sHalt, dsmTrace := t.dsmTrace ++ [.sHalt],
      runState := .halted, faultCause := .txIo } := by
  have ready : ({ t with p := y } : State).txReady y = true :=
    (txReady_iff _ _).mpr ⟨by rw [hy]; exact hi, by simp [hy], by simpa [hy] using big⟩
  rw [disposeUnreach, synthOp_encode t .P 3 e.1 e.2 hp, Flow.andThen_go, State.setFrame_P, ← hy,
    txFrame_failed _ _ ready bad, Flow.andThen_ended]

/-- Which of cases (b) and (c) applies. -/
theorem disposeRouted_eq :
    disposeRouted r t =
      match arpLookup t.arpc t.drainKey with
      | some mac =>
        if r.nextHop = t.drainKey then disposeRelease r mac { t with curMac := some mac }
        else disposeKeep { t with curMac := some mac }
      | none => disposeKeep { t with curMac := none } := by
  unfold disposeRouted
  cases arpLookup t.arpc t.drainKey <;> rfl

/-- Case (b): the awaited next hop is resolved. -/
theorem disposeRelease_sent {mac : Mac} {row : IfRow} (hp : t.p = pendingFrame e)
    (hr : t.iftab[r.iface]? = some row) (big : 42 + e.1.tail.length ≤ t.cfg.maxFrame)
    (ok : t.txFail.headD false = false) :
    disposeRelease r mac t = .go (State.labelled { t with
      p := t.released mac row r e.1, txFail := t.txFail.tail,
      txTrace := t.txTrace ++ [t.released mac row r e.1] } .tx) := by
  have lt : r.iface < t.iftab.length := (List.getElem?_eq_some_iff.mp hr).1
  have y : releaseFrame t.cfg.drainRewriteSrc row.mac mac r t.p = t.released mac row r e.1 := by
    rw [hp, pendingFrame, releaseFrame_encode, State.released]
  have ready : ({ t with p := t.released mac row r e.1 } : State).txReady
      (t.released mac row r e.1) = true :=
    (txReady_iff _ _).mpr ⟨lt, by simp [State.released]; omega, by simpa [State.released] using big⟩
  have row' : t.ifRow r.iface = some row := hr
  unfold disposeRelease
  rw [row']
  dsimp only
  rw [y, txFrame_sent _ _ ready ok, Flow.andThen_go]

theorem disposeRelease_failed {mac : Mac} {row : IfRow} (hp : t.p = pendingFrame e)
    (hr : t.iftab[r.iface]? = some row) (big : 42 + e.1.tail.length ≤ t.cfg.maxFrame)
    (bad : t.txFail.headD false = true) :
    disposeRelease r mac t = .ended { t with
      p := t.released mac row r e.1, txFail := t.txFail.tail, dsm := .sHalt,
      dsmTrace := t.dsmTrace ++ [.sHalt], runState := .halted, faultCause := .txIo } := by
  have lt : r.iface < t.iftab.length := (List.getElem?_eq_some_iff.mp hr).1
  have y : releaseFrame t.cfg.drainRewriteSrc row.mac mac r t.p = t.released mac row r e.1 := by
    rw [hp, pendingFrame, releaseFrame_encode, State.released]
  have ready : ({ t with p := t.released mac row r e.1 } : State).txReady
      (t.released mac row r e.1) = true :=
    (txReady_iff _ _).mpr ⟨lt, by simp [State.released]; omega, by simpa [State.released] using big⟩
  have row' : t.ifRow r.iface = some row := hr
  unfold disposeRelease
  rw [row']
  dsimp only
  rw [y, txFrame_failed _ _ ready bad, Flow.andThen_ended]

/-- Case (c): the entry goes back behind the others. -/
theorem disposeKeep_room (room : below t.pq.length t.cfg.pqDepth = true) :
    disposeKeep t = .go (State.labelled { t with pq := t.pq ++ [t.p] } .keep) := by
  rw [disposeKeep, pqEnqOp_room _ _ room, Flow.andThen_go]

end Dispose

end Sys2Proof.Machine
end

