-- ==== Sys2Proof/Laws/Cases.lean ====
section
/-! SUPPORT. For each shared operation, everything it can do in any state whatever, so that a statement
over all states needs no unfolding: receive and admission (spec/45_dispatch.md R221, R222,
spec/46_host_interface.md R261), lookup, synthesizer, insert, enqueue, dequeue, and the sequencing of a
step. -/

namespace Sys2Proof.Machine

variable (s : State)

/-! ### Sequencing -/

/-- A sequence that goes on: its first part went on. -/
theorem andThen_go_cases {x : Flow} {k : State → Flow} {t : State} (h : x.andThen k = .go t) :
    ∃ u, x = .go u ∧ k u = .go t := by
  cases x with
  | go u => exact ⟨u, rfl, h⟩
  | ended u => cases h
  | fault r => cases h
  | refused r => cases h

/-- A sequence that ends the step: its first part ended it, or went on and the rest ended it. -/
theorem andThen_ended_cases {x : Flow} {k : State → Flow} {t : State} (h : x.andThen k = .ended t) :
    x = .ended t ∨ ∃ u, x = .go u ∧ k u = .ended t := by
  cases x with
  | go u => exact .inr ⟨u, rfl, h⟩
  | ended u => cases h; exact .inl rfl
  | fault r => cases h
  | refused r => cases h

/-- A next state after a part of a step and a meaning. -/
theorem thenOut_next_cases {x : Flow} {k : State → Out} {t : State} (h : x.thenOut k = .next t) :
    x = .ended t ∨ ∃ u, x = .go u ∧ k u = .next t := by
  cases x with
  | go u => exact .inr ⟨u, rfl, h⟩
  | ended u => cases h; exact .inl rfl
  | fault r => cases h
  | refused r => cases h

/-- A next state of an operation that is one flow. -/
theorem out_next_cases {x : Flow} {t : State} (h : x.out = .next t) : x = .ended t ∨ x = .go t := by
  obtain h | ⟨u, hx, hu⟩ := thenOut_next_cases h
  · exact .inl h
  · cases hu; exact .inr hx

/-- A next state of an operation that acts only while running (R295). -/
theorem whenRunning_next_cases {k : Out} {t : State} (h : whenRunning s k = .next t) :
    (s.runState = .running ∧ k = .next t) ∨ (s.runState ≠ .running ∧ t = s) := by
  unfold whenRunning at h
  split at h
  · exact .inl ⟨‹_›, h⟩
  · cases h; exact .inr ⟨‹_›, rfl⟩

/-- A next state of a step is that of some instruction, on the state with some of the words at the
operation port taken or none: an invariant that no instruction breaks, whatever stands at that port, is
kept by every step. -/
theorem step_next_cases {t : State} (h : step s = .next t) :
    ∃ (i : Instr) (ops : List (List Byte)), exec i { s with ops := ops } = .next t := by
  unfold step fetch at h
  split at h
  · rename_i i u e
    split at e
    · cases e; exact ⟨_, s.ops, h⟩
    · rename_i w rest _
      obtain ⟨-, rfl⟩ := Prod.mk.inj e
      split at h
      · exact ⟨i, s.ops, h⟩
      · exact ⟨i, rest, h⟩
  · cases h

/-! ### Receive, admission, filter -/

theorem rxOp_cases :
    (s.rxq = [] ∧ rxOp s = .ended s) ∨
    (∃ rest, s.rxq = .ioError :: rest ∧ rxOp s = .ended ({ s with rxq := rest }.raise .rxIo)) ∨
    (∃ fr rest, s.rxq = .frame fr :: rest ∧
      rxOp s = .go ({ s with rxq := rest, f := fr }.enter .sL2)) := by
  unfold rxOp
  cases s.rxq with
  | nil => exact .inl ⟨rfl, rfl⟩
  | cons item rest =>
    cases item with
    | frame fr => exact .inr (.inr ⟨fr, rest, rfl, rfl⟩)
    | ioError => exact .inr (.inl ⟨rest, rfl, rfl⟩)

/-- Whatever the order of the tests, admission finds a cause or the frame is admissible. -/
theorem admissionFault_cases :
    (∃ c, c ≠ FaultCause.none ∧ s.admissionFault = some c) ∨
    (s.f.iface < s.iftab.length ∧ 14 ≤ s.f.buf.length ∧ s.f.buf.length ≤ s.cfg.maxFrame ∧
      s.admissionFault = none) := by
  unfold State.admissionFault State.nIf Frame.len ethHeaderLen
  by_cases a : s.iftab.length ≤ s.f.iface
  · refine .inl ?_
    split <;> simp only [a, decide_true, if_true] <;> (repeat' split) <;>
      exact ⟨_, by decide, rfl⟩
  · by_cases b : s.cfg.maxFrame < s.f.buf.length
    · refine .inl ?_
      split <;> simp only [b, decide_true, if_true] <;> (repeat' split) <;>
        exact ⟨_, by decide, rfl⟩
    · by_cases c : s.f.buf.length < 14
      · refine .inl ?_
        split <;> simp only [c, decide_true, if_true] <;> (repeat' split) <;>
          exact ⟨_, by decide, rfl⟩
      · refine .inr ⟨by omega, by omega, by omega, ?_⟩
        split <;> simp only [a, b, c, decide_false, Bool.false_eq_true, if_false]

/-- Admission halts the engine with a cause, or goes on with an admissible frame. -/
theorem admitOp_cases :
    (∃ c, c ≠ FaultCause.none ∧ admitOp s = .ended (s.raise c)) ∨
    (s.f.iface < s.iftab.length ∧ 14 ≤ s.f.buf.length ∧ s.f.buf.length ≤ s.cfg.maxFrame ∧
      admitOp s = .go s) := by
  unfold admitOp
  obtain ⟨c, hc, e⟩ | ⟨a, b, c, e⟩ := admissionFault_cases s
  · exact .inl ⟨c, hc, by rw [e]⟩
  · exact .inr ⟨a, b, c, by rw [e]⟩

/-- A receive waits, halts the engine with a cause, or goes on with an admissible frame in `F`. -/
theorem receiveOp_cases :
    (s.rxq = [] ∧ receiveOp s = .ended s) ∨
    (∃ rest, s.rxq = .ioError :: rest ∧
      receiveOp s = .ended ({ s with rxq := rest }.raise .rxIo)) ∨
    (∃ fr rest c, s.rxq = .frame fr :: rest ∧ c ≠ FaultCause.none ∧
      receiveOp s = .ended (({ s with rxq := rest, f := fr }.enter .sL2).raise c)) ∨
    (∃ fr rest, s.rxq = .frame fr :: rest ∧ fr.iface < s.iftab.length ∧ 14 ≤ fr.buf.length ∧
      fr.buf.length ≤ s.cfg.maxFrame ∧
      receiveOp s = .go ({ s with rxq := rest, f := fr }.enter .sL2)) := by
  unfold receiveOp
  obtain ⟨q, e⟩ | ⟨rest, q, e⟩ | ⟨fr, rest, q, e⟩ := rxOp_cases s
  · exact .inl ⟨q, by rw [e, Flow.andThen_ended]⟩
  · exact .inr (.inl ⟨rest, q, by rw [e, Flow.andThen_ended]⟩)
  · rw [e, Flow.andThen_go]
    obtain ⟨c, hc, a⟩ | ⟨hi, lo, hi', a⟩ :=
      admitOp_cases ({ s with rxq := rest, f := fr }.enter .sL2)
    · exact .inr (.inr (.inl ⟨fr, rest, c, q, hc, a⟩))
    · exact .inr (.inr (.inr ⟨fr, rest, q, hi, lo, hi', a⟩))

/-- A frame that was admitted is admitted again (R221). -/
theorem admitOp_idem {t : State} (h : admitOp s = .go t) : t = s ∧ admitOp t = .go t := by
  obtain ⟨c, _, a⟩ | ⟨_, _, _, a⟩ := admitOp_cases s
  · rw [a] at h; cases h
  · rw [a] at h; cases h; exact ⟨rfl, a⟩

theorem l2Stage_cases :
    (s.iftab[s.f.iface]? = none ∧ l2Stage s = .fault .noSuchInterface) ∨
    (∃ row, s.iftab[s.f.iface]? = some row ∧
      (l2Stage s = .go (s.enter .sEtype) ∨ l2Stage s = .ended (s.finish .dropL2))) := by
  unfold l2Stage State.ifRow
  cases s.iftab[s.f.iface]? with
  | none => exact .inl ⟨rfl, rfl⟩
  | some row =>
    refine .inr ⟨row, rfl, ?_⟩
    dsimp only
    split
    · exact .inl rfl
    · exact .inr rfl

/-! ### Units -/

theorem lookupOp_cases (d : Ip) :
    lookupOp d s = .go { s with curRoute := lpmLookup s.rt d } ∨
      lookupOp d s = .refused .illFormedTable := by
  unfold lookupOp
  split
  · exact .inl rfl
  · exact .inr rfl

theorem synthOp_cases (x : FrameReg) (t : Byte) :
    (∃ y : Frame, y.iface = (s.frame x).iface ∧ synthOp x t s = .go (s.setFrame x y)) ∨
      synthOp x t s = .refused .synthPrecondition := by
  have keeps : (synthFrame s.cfg.synthTtlFn t (s.frame x)).iface = (s.frame x).iface := by
    simp [synthFrame, synthIcmp, synthIpSum, synthAddresses]
  unfold synthOp
  cases (s.frame x).synthReady with
  | true => exact .inl ⟨_, keeps, if_pos rfl⟩
  | false => exact .inr (if_neg (by decide))

theorem arpInsertOp_cases (a : Ip) (m : Mac) :
    arpInsertOp a m s = .go { s with arpc := s.learns a m } ∨
      (arpLookup s.arpc a = none ∧ below s.arpc.length s.cfg.arpcDepth = false ∧
        arpInsertOp a m s = .ended (s.raise .capacity)) := by
  by_cases room : arpLookup s.arpc a ≠ none ∨ below s.arpc.length s.cfg.arpcDepth = true
  · exact .inl (arpInsertOp_learns s a m room)
  · simp only [not_or, not_not, Bool.not_eq_true] at room
    exact .inr ⟨room.1, room.2, arpInsertOp_full s a m room.1 room.2⟩

theorem pqEnqOp_cases (fr : Frame) :
    (below s.pq.length s.cfg.pqDepth = true ∧ pqEnqOp fr s = .go { s with pq := s.pq ++ [fr] }) ∨
      (below s.pq.length s.cfg.pqDepth = false ∧ pqEnqOp fr s = .ended (s.raise .capacity)) := by
  cases h : below s.pq.length s.cfg.pqDepth with
  | true => exact .inl ⟨rfl, pqEnqOp_room s fr h⟩
  | false => exact .inr ⟨rfl, pqEnqOp_full s fr h⟩

theorem pqDeqOp_cases :
    (s.pq = [] ∧ pqDeqOp s = .refused .dequeueEmpty) ∨
      (∃ q rest, s.pq = q :: rest ∧ pqDeqOp s = .go { s with pq := rest, p := q }) := by
  unfold pqDeqOp
  cases s.pq with
  | nil => exact .inl ⟨rfl, rfl⟩
  | cons q rest => exact .inr ⟨q, rest, rfl, rfl⟩

end Sys2Proof.Machine
end

