-- ==== Sys2Proof/Laws/Decode.lean ====
section
/-! SUPPORT. The reader and the writer of each word format are inverses (spec/30_encoding.md R82 to
R99): frames field by field, operands of operation words one by one. -/

namespace Sys2Proof

open Sys2Proof.Machine

/-! ### Bit fields and big-endian fields -/

/-- The two nibbles of a byte (R86). -/
theorem nibbles_append (x : Byte) : (x.extractLsb' 4 4 ++ x.extractLsb' 0 4 : Byte) = x := by
  revert x
  decide

theorem append_high (v l : BitVec 4) : (v ++ l : Byte).extractLsb' 4 4 = v := by
  revert v l
  decide

theorem append_low (v l : BitVec 4) : (v ++ l : Byte).extractLsb' 0 4 = l := by
  revert v l
  decide

theorem field_lt (b : List Byte) (off n : Nat) : field b off n < 256 ^ n :=
  lt_of_lt_of_le (beNat_lt _) (Nat.pow_le_pow_right (by decide) (by simp))

/-- Writing a field's value gives its bytes. -/
theorem beBytes_field {b : List Byte} {off n : Nat} (h : off + n ≤ b.length) :
    beBytes n (field b off n) = (b.drop off).take n := by
  have e : ((b.drop off).take n).length = n := by simp; omega
  have r := beBytes_beNat ((b.drop off).take n)
  rwa [e] at r

/-- The same for a field held in a bit vector of its width. -/
theorem beBytes_field_ofNat {b : List Byte} {off n w : Nat} (h : off + n ≤ b.length)
    (hw : 2 ^ w = 256 ^ n) :
    beBytes n (BitVec.ofNat w (field b off n)).toNat = (b.drop off).take n := by
  rw [BitVec.toNat_ofNat, hw, Nat.mod_eq_of_lt (field_lt b off n), beBytes_field h]

/-- One byte as a slice. -/
theorem byteAt_slice {b : List Byte} {off : Nat} (h : off < b.length) :
    [byteAt b off] = (b.drop off).take 1 := by
  apply List.ext_getElem?
  intro k
  cases k with
  | zero => simp [byteAt, h]
  | succ k => simp

/-- Two neighbouring slices are one. -/
theorem slice_join (b : List Byte) (off n m : Nat) :
    (b.drop off).take n ++ (b.drop (off + n)).take m = (b.drop off).take (n + m) := by
  rw [List.take_add, List.drop_drop]

/-- The last slice. -/
theorem slice_rest (b : List Byte) (off n : Nat) :
    (b.drop off).take n ++ b.drop (off + n) = b.drop off := by
  rw [← List.drop_drop, List.take_append_drop]

/-! ### Frames (R82 to R88) -/

theorem readArp_encode (op : Half) (h : ArpFrame) : readArp (encodeArp op h) = h := by
  have f : ∀ (off n w : Nat) (v : BitVec w), 2 ^ w = 256 ^ n →
      ((encodeArp op h).drop off).take n = beBytes n v.toNat →
      BitVec.ofNat w (field (encodeArp op h) off n) = v := by
    intro off n w v hw e
    rw [field_of_slice e (hw ▸ v.isLt)]
    simp
  have e0 := f 0 6 48 h.dst (by decide) (by simp [encodeArp, beBytes])
  have e1 := f 6 6 48 h.src (by decide) (by simp [encodeArp, beBytes])
  have e2 := f 14 2 16 h.htype (by decide) (by simp [encodeArp, beBytes])
  have e3 := f 16 2 16 h.ptype (by decide) (by simp [encodeArp, beBytes])
  have e4 := f 22 6 48 h.sha (by decide) (by simp [encodeArp, beBytes])
  have e5 := f 28 4 32 h.spa (by decide) (by simp [encodeArp, beBytes])
  have e6 := f 32 6 48 h.tha (by decide) (by simp [encodeArp, beBytes])
  have e7 := f 38 4 32 h.tpa (by decide) (by simp [encodeArp, beBytes])
  have e8 : byteAt (encodeArp op h) 18 = h.hlen := by simp [byteAt, encodeArp, beBytes]
  have e9 : byteAt (encodeArp op h) 19 = h.plen := by simp [byteAt, encodeArp, beBytes]
  have e10 : (encodeArp op h).drop 42 = h.pad := by simp [encodeArp, beBytes]
  simp only [readArp, e0, e1, e2, e3, e4, e5, e6, e7, e8, e9, e10]

theorem readIpv4_encode (h : Ipv4Frame) : readIpv4 (encodeIpv4 h) = h := by
  have f : ∀ (off n w : Nat) (v : BitVec w), 2 ^ w = 256 ^ n →
      ((encodeIpv4 h).drop off).take n = beBytes n v.toNat →
      BitVec.ofNat w (field (encodeIpv4 h) off n) = v := by
    intro off n w v hw e
    rw [field_of_slice e (hw ▸ v.isLt)]
    simp
  have e0 := f 0 6 48 h.dst (by decide) (by simp [encodeIpv4, beBytes])
  have e1 := f 6 6 48 h.src (by decide) (by simp [encodeIpv4, beBytes])
  have e2 := f 16 2 16 h.totalLen (by decide) (by simp [encodeIpv4, beBytes])
  have e3 := f 18 2 16 h.ident (by decide) (by simp [encodeIpv4, beBytes])
  have e4 := f 20 2 16 h.frag (by decide) (by simp [encodeIpv4, beBytes])
  have e5 := f 24 2 16 h.csum (by decide) (by simp [encodeIpv4, beBytes])
  have e6 := f 26 4 32 h.ipSrc (by decide) (by simp [encodeIpv4, beBytes])
  have e7 := f 30 4 32 h.ipDst (by decide) (by simp [encodeIpv4, beBytes])
  have e8 := f 36 2 16 h.icmpCsum (by decide) (by simp [encodeIpv4, beBytes])
  have e9 := f 38 4 32 h.icmpRest (by decide) (by simp [encodeIpv4, beBytes])
  have b14 : byteAt (encodeIpv4 h) 14 = h.ver ++ h.ihl := by simp [byteAt, encodeIpv4, beBytes]
  have b15 : byteAt (encodeIpv4 h) 15 = h.tos := by simp [byteAt, encodeIpv4, beBytes]
  have b22 : byteAt (encodeIpv4 h) 22 = h.ttl := by simp [byteAt, encodeIpv4, beBytes]
  have b23 : byteAt (encodeIpv4 h) 23 = h.proto := by simp [byteAt, encodeIpv4, beBytes]
  have b34 : byteAt (encodeIpv4 h) 34 = h.icmpType := by simp [byteAt, encodeIpv4, beBytes]
  have b35 : byteAt (encodeIpv4 h) 35 = h.icmpCode := by simp [byteAt, encodeIpv4, beBytes]
  have t : (encodeIpv4 h).drop 42 = h.tail := by simp [encodeIpv4, beBytes]
  simp only [readIpv4, e0, e1, e2, e3, e4, e5, e6, e7, e8, e9, b14, b15, b22, b23, b34, b35, t,
    append_high, append_low]

theorem readEth_encode (h : EthFrame) : readEth (encodeEth h) = h := by
  have f : ∀ (off n w : Nat) (v : BitVec w), 2 ^ w = 256 ^ n →
      ((encodeEth h).drop off).take n = beBytes n v.toNat →
      BitVec.ofNat w (field (encodeEth h) off n) = v := by
    intro off n w v hw e
    rw [field_of_slice e (hw ▸ v.isLt)]
    simp
  have e0 := f 0 6 48 h.dst (by decide) (by simp [encodeEth, beBytes])
  have e1 := f 6 6 48 h.src (by decide) (by simp [encodeEth, beBytes])
  have e2 := f 12 2 16 h.etype (by decide) (by simp [encodeEth, beBytes])
  have t : (encodeEth h).drop 14 = h.payload := by simp [encodeEth, beBytes]
  simp only [readEth, e0, e1, e2, t]

/-- An ARP frame is the word of what is read from it. -/
theorem encodeArp_read (b : List Byte) (len : 42 ≤ b.length)
    (t : (BitVec.ofNat 16 (field b 12 2) : Half) = etherArp) :
    encodeArp (BitVec.ofNat 16 (field b 20 2)) (readArp b) = b := by
  have pair : ∀ x y : Byte, [x, y] = [x] ++ [y] := fun _ _ => rfl
  unfold encodeArp
  rw [← t]
  simp only [readArp, pair]
  rw [beBytes_field_ofNat (by omega) (by decide), beBytes_field_ofNat (by omega) (by decide),
    beBytes_field_ofNat (by omega) (by decide), beBytes_field_ofNat (by omega) (by decide),
    beBytes_field_ofNat (by omega) (by decide), beBytes_field_ofNat (by omega) (by decide),
    beBytes_field_ofNat (by omega) (by decide), beBytes_field_ofNat (by omega) (by decide),
    beBytes_field_ofNat (by omega) (by decide), beBytes_field_ofNat (by omega) (by decide),
    byteAt_slice (by omega), byteAt_slice (by omega)]
  simp only [List.append_assoc]
  rw [slice_rest b 38 4, slice_rest b 32 6, slice_rest b 28 4, slice_rest b 22 6, slice_rest b 20 2,
    slice_rest b 19 1, slice_rest b 18 1, slice_rest b 16 2, slice_rest b 14 2, slice_rest b 12 2,
    slice_rest b 6 6, slice_rest b 0 6, List.drop_zero]

/-- An IPv4 frame is the word of what is read from it. -/
theorem encodeIpv4_read (b : List Byte) (len : 42 ≤ b.length)
    (t : (BitVec.ofNat 16 (field b 12 2) : Half) = etherIpv4) : encodeIpv4 (readIpv4 b) = b := by
  have pair : ∀ x y : Byte, [x, y] = [x] ++ [y] := fun _ _ => rfl
  unfold encodeIpv4
  rw [← t]
  simp only [readIpv4, nibbles_append, pair]
  rw [beBytes_field_ofNat (by omega) (by decide), beBytes_field_ofNat (by omega) (by decide),
    beBytes_field_ofNat (by omega) (by decide), beBytes_field_ofNat (by omega) (by decide),
    beBytes_field_ofNat (by omega) (by decide), beBytes_field_ofNat (by omega) (by decide),
    beBytes_field_ofNat (by omega) (by decide), beBytes_field_ofNat (by omega) (by decide),
    beBytes_field_ofNat (by omega) (by decide), beBytes_field_ofNat (by omega) (by decide),
    beBytes_field_ofNat (by omega) (by decide),
    byteAt_slice (by omega), byteAt_slice (by omega), byteAt_slice (by omega),
    byteAt_slice (by omega), byteAt_slice (by omega), byteAt_slice (by omega)]
  simp only [List.append_assoc]
  rw [slice_rest b 38 4, slice_rest b 36 2, slice_rest b 35 1, slice_rest b 34 1, slice_rest b 30 4,
    slice_rest b 26 4, slice_rest b 24 2, slice_rest b 23 1, slice_rest b 22 1, slice_rest b 20 2,
    slice_rest b 18 2, slice_rest b 16 2, slice_rest b 15 1, slice_rest b 14 1, slice_rest b 12 2,
    slice_rest b 6 6, slice_rest b 0 6, List.drop_zero]

/-- A frame of a reserved EtherType is the word of what is read from it. -/
theorem encodeEth_read (b : List Byte) (len : 14 ≤ b.length) : encodeEth (readEth b) = b := by
  unfold encodeEth
  simp only [readEth]
  rw [beBytes_field_ofNat (by omega) (by decide), beBytes_field_ofNat (by omega) (by decide),
    beBytes_field_ofNat (by omega) (by decide)]
  simp only [List.append_assoc]
  rw [slice_rest b 12 2, slice_rest b 6 6, slice_rest b 0 6, List.drop_zero]

/-! ### Operands (log 4) -/

/-- An operand that is there is taken. -/
theorem operand_append (n v : Nat) (rest : List Byte) (k : Nat → List Byte → Decoded) :
    operand n (beBytes n v ++ rest) k = k (v % 256 ^ n) rest := by
  have l : ((beBytes n v ++ rest).take n) = beBytes n v := by simp
  have d : ((beBytes n v ++ rest).drop n) = rest := by simp
  rw [operand, if_neg (by simp), l, d, beNat_beBytes]

/-- An operand taken: the word began with its bytes. -/
theorem operand_ok {n : Nat} {b : List Byte} {k : Nat → List Byte → Decoded} {i : Instr}
    (h : operand n b k = .ok i) :
    ∃ v rest, v < 256 ^ n ∧ b = beBytes n v ++ rest ∧ k v rest = .ok i := by
  unfold operand at h
  split at h
  · cases h
  · rename_i len
    have e : (b.take n).length = n := by simp; omega
    have r := beBytes_beNat (b.take n)
    rw [e] at r
    refine ⟨beNat (b.take n), b.drop n, ?_, ?_, h⟩
    · have := beNat_lt (b.take n)
      rwa [e] at this
    · rw [r, List.take_append_drop]

theorem endWord_ok {i j : Instr} {rest : List Byte} (h : endWord i rest = .ok j) : rest = [] ∧ i = j := by
  unfold endWord at h
  split at h
  · rename_i e
    cases h
    exact ⟨List.isEmpty_iff.mp e, rfl⟩
  · cases h

@[simp] theorem endWord_nil (i : Instr) : endWord i [] = .ok i := rfl

/-- A frame register operand. -/
theorem regOperand_cons (x : FrameReg) (rest : List Byte) (k : FrameReg → List Byte → Decoded) :
    regOperand (encodeReg x :: rest) k = k x rest := by
  cases x <;> simp [regOperand, operand, encodeReg, frameRegOf]

theorem regOperand_ok {b : List Byte} {k : FrameReg → List Byte → Decoded} {i : Instr}
    (h : regOperand b k = .ok i) : ∃ x rest, b = encodeReg x :: rest ∧ k x rest = .ok i := by
  obtain ⟨v, rest, lt, rfl, taken⟩ := operand_ok h
  split at taken
  · rename_i x e
    refine ⟨x, rest, ?_, taken⟩
    unfold frameRegOf at e
    simp only [beBytes, Nat.pow_zero, Nat.div_one, List.cons_append, List.nil_append]
    split at e
    · rename_i z
      cases e
      simp [z, encodeReg]
    · split at e
      · rename_i z
        cases e
        simp [z, encodeReg]
      · split at e
        · rename_i z
          cases e
          simp [z, encodeReg]
        · cases e
  · cases taken

/-- A table operand. -/
theorem routesOperand_append (rs : List Route) (ok : rs.all Route.encodable = true)
    (rest : List Byte) (k : List Route → List Byte → Decoded) :
    routesOperand rs.length (rs.flatMap encodeRoute ++ rest) k = k rs rest := by
  induction rs generalizing k with
  | nil => rfl
  | cons r rs ih =>
    simp only [List.all_cons, Bool.and_eq_true] at ok
    have hi : r.iface < 2 ^ 32 := by simpa [Route.encodable, fits32] using ok.1
    simp only [List.length_cons, routesOperand, List.flatMap_cons, encodeRoute, List.append_assoc,
      operand_append]
    rw [ih ok.2]
    have h1 := r.pfx.isLt
    have h2 := r.mask.isLt
    have h3 := r.nextHop.isLt
    rw [Nat.mod_eq_of_lt (by omega), Nat.mod_eq_of_lt (by omega), Nat.mod_eq_of_lt (by omega),
      Nat.mod_eq_of_lt (by omega)]
    simp

theorem routesOperand_ok {n : Nat} {b : List Byte} {k : List Route → List Byte → Decoded} {i : Instr}
    (h : routesOperand n b k = .ok i) :
    ∃ rs rest, rs.length = n ∧ rs.all Route.encodable = true ∧ b = rs.flatMap encodeRoute ++ rest ∧
      k rs rest = .ok i := by
  induction n generalizing b k with
  | zero => exact ⟨[], b, rfl, rfl, rfl, h⟩
  | succ n ih =>
    unfold routesOperand at h
    obtain ⟨p, _, hp, rfl, h1⟩ := operand_ok h
    obtain ⟨m, _, hm, rfl, h2⟩ := operand_ok h1
    obtain ⟨nh, _, hn, rfl, h3⟩ := operand_ok h2
    obtain ⟨f, _, hf, rfl, h4⟩ := operand_ok h3
    obtain ⟨rs, rest, len, enc, rfl, h5⟩ := ih h4
    refine ⟨_ :: rs, rest, by simp [len], ?_, ?_, h5⟩
    · simp only [List.all_cons, enc, Bool.and_true, Route.encodable, fits32, decide_eq_true_eq]
      omega
    · simp only [List.flatMap_cons, encodeRoute, List.append_assoc, BitVec.toNat_ofNat]
      rw [Nat.mod_eq_of_lt (by omega), Nat.mod_eq_of_lt (by omega), Nat.mod_eq_of_lt (by omega)]

theorem tableOperand_append (rs : List Route) (ok : tableEncodable rs = true) (rest : List Byte)
    (k : List Route → List Byte → Decoded) : tableOperand (encodeTable rs ++ rest) k = k rs rest := by
  simp only [tableEncodable, Bool.and_eq_true, fits32, decide_eq_true_eq] at ok
  rw [tableOperand, encodeTable, List.append_assoc, operand_append, Nat.mod_eq_of_lt (by omega),
    routesOperand_append rs ok.2]

theorem tableOperand_ok {b : List Byte} {k : List Route → List Byte → Decoded} {i : Instr}
    (h : tableOperand b k = .ok i) :
    ∃ rs rest, tableEncodable rs = true ∧ b = encodeTable rs ++ rest ∧ k rs rest = .ok i := by
  obtain ⟨n, _, hn, rfl, h1⟩ := operand_ok h
  obtain ⟨rs, rest, rfl, enc, rfl, h2⟩ := routesOperand_ok h1
  refine ⟨rs, rest, ?_, by simp [encodeTable], h2⟩
  simp only [tableEncodable, enc, Bool.and_true, fits32, decide_eq_true_eq]
  omega

/-- A byte-sequence operand. -/
theorem bytesOperand_append (bs : List Byte) (ok : fits32 bs.length = true) (rest : List Byte)
    (k : List Byte → List Byte → Decoded) : bytesOperand (encodeBytes bs ++ rest) k = k bs rest := by
  simp only [fits32, decide_eq_true_eq] at ok
  rw [bytesOperand, encodeBytes, List.append_assoc, operand_append, Nat.mod_eq_of_lt (by omega)]
  simp

theorem bytesOperand_ok {b : List Byte} {k : List Byte → List Byte → Decoded} {i : Instr}
    (h : bytesOperand b k = .ok i) :
    ∃ bs rest, fits32 bs.length = true ∧ b = encodeBytes bs ++ rest ∧ k bs rest = .ok i := by
  obtain ⟨n, tl, hn, rfl, h1⟩ := operand_ok h
  split at h1
  · cases h1
  · rename_i len
    have e : (tl.take n).length = n := by simp; omega
    refine ⟨tl.take n, tl.drop n, ?_, ?_, h1⟩
    · simp only [e, fits32, decide_eq_true_eq]
      omega
    · rw [encodeBytes, e, List.append_assoc, List.take_append_drop]

end Sys2Proof
end

