-- ==== Sys2Proof/Laws/Drain.lean ====
section
/-! SUPPORT. One round of the drain (spec/44_arp.md R200, R201): what it does to the queue, the traces
and the results of the transmissions, and what it leaves. -/

namespace Sys2Proof.Machine

/-- `t` differs from `s` only in what a round of the drain may change. -/
structure DrainFrame (s t : State) : Prop where
  same : t = { s with
    p := t.p, curDst := t.curDst, curRoute := t.curRoute, curMac := t.curMac,
    drainI := t.drainI, dsm := t.dsm, pq := t.pq, txFail := t.txFail, txTrace := t.txTrace,
    drainLabels := t.drainLabels, dsmTrace := t.dsmTrace }

theorem DrainFrame.trans {s t u : State} (h : DrainFrame s t) (h' : DrainFrame t u) :
    DrainFrame s u := by
  constructor
  have a := h'.same
  have b := h.same
  rw [a, b]

/-- A run of transmissions that never fails starts with one that does not. -/
theorem headD_of_all {l : List Bool} (h : l.all (! ·) = true) : l.headD false = false := by
  cases l with
  | nil => rfl
  | cons a l => simp at h; simp [h.1]

/-- One round on an entry that the drain can dispose of, whose transmission, if it makes one,
succeeds. -/
theorem drainEntry_next (t : State) (key : Ip) (e : Pending) (rest : List Frame)
    (hq : t.pq = pendingFrame e :: rest) (hk : t.drainKey = key)
    (wf : tableWf t.iftab.length t.rt = true) (big : 42 + e.1.tail.length ≤ t.cfg.maxFrame)
    (hi : e.2 < t.iftab.length) (room : atMost t.pq.length t.cfg.pqDepth = true)
    (ok : t.drainSends key e ≠ none → t.txFail.headD false = false) :
    ∃ u, drainEntry t = .go u ∧ DrainFrame t u ∧
      u.pq = rest ++ (if t.drainKeeps key e then [pendingFrame e] else []) ∧
      u.txTrace = t.txTrace ++ (t.drainSends key e).toList ∧
      u.txFail = t.txFail.drop (t.drainSends key e).toList.length ∧
      u.drainLabels = t.drainLabels ++ [t.drainCase key e] ∧ u.drainI = t.drainI + 1 ∧
      u.dsmTrace = t.dsmTrace ++ [.sDrainEntry] ∧ u.dsm = .sDrainEntry := by
  obtain ⟨q, hqe⟩ : ∃ q, q = pendingFrame e := ⟨_, rfl⟩
  rw [← hqe] at hq ⊢
  have deq : pqDeqOp (t.enter .sDrainEntry) =
      .go { t.enter .sDrainEntry with pq := rest, p := q } := by simp [pqDeqOp, hq]
  obtain ⟨v, hv⟩ : ∃ v : State, v = { t.enter .sDrainEntry with
    pq := rest, p := q, drainI := t.drainI + 1 } := ⟨_, rfl⟩
  have de : drainEntry t = disposeOp v := by rw [drainEntry, deq, hv]; rfl
  rw [de]
  have vp' : v.p = q := by rw [hv]
  have vp : v.p = pendingFrame e := vp'.trans hqe
  have vi : v.iftab = t.iftab := by rw [hv]; rfl
  have vrt : v.rt = t.rt := by rw [hv]; rfl
  have vc : v.cfg = t.cfg := by rw [hv]; rfl
  have va : v.arpc = t.arpc := by rw [hv]; rfl
  have vk : v.drainKey = key := by rw [hv]; exact hk
  have vx : v.txFail = t.txFail := by rw [hv]; rfl
  have vq : v.pq = rest := by rw [hv]
  have vt : v.txTrace = t.txTrace := by rw [hv]; rfl
  have vl : v.drainLabels = t.drainLabels := by rw [hv]; rfl
  have vI : v.drainI = t.drainI + 1 := by rw [hv]
  have vd : v.dsmTrace = t.dsmTrace ++ [.sDrainEntry] := by rw [hv]; rfl
  have vm : v.dsm = .sDrainEntry := by rw [hv]; rfl
  have sm : DrainFrame t v := by constructor; rw [hv]; simp [State.enter]
  clear hv deq de
  have free : below v.pq.length v.cfg.pqDepth = true := by
    rw [vq, vc]; exact below_of_atMost_succ (by simpa [hq] using room)
  have hd := disposeOp_eq vp (by rw [vi, vrt]; exact wf)
  unfold State.drainKeeps State.drainCase
  unfold State.drainSends at ok ⊢
  cases lk : lpmLookup t.rt e.1.ipDst with
  | none =>
    have lk' : lpmLookup v.rt e.1.ipDst = none := by rw [vrt, lk]
    simp only [lk'] at hd
    rw [hd]
    simp only [lk] at ok ⊢
    rw [disposeUnreach_sent (t := { v with curDst := e.1.ipDst, curRoute := none }) vp
      (by show e.2 < v.iftab.length; rw [vi]; exact hi)
      (by show 42 ≤ v.cfg.maxFrame; rw [vc]; omega)
      (by show v.txFail.headD false = false; rw [vx]; exact ok (by simp)) _ rfl]
    refine ⟨_, rfl, sm.trans ⟨?_⟩, ?_, ?_, ?_, ?_, ?_, ?_, ?_⟩
    all_goals simp [State.labelled, vt, vl, vI, vd, vm, vx, vq, vc]
  | some r =>
    have lk' : lpmLookup v.rt e.1.ipDst = some r := by rw [vrt, lk]
    simp only [lk'] at hd
    rw [hd]
    obtain ⟨row, hr⟩ := lpmLookup_row t wf lk
    have hrt := disposeRouted_eq (r := r) (t := { v with curDst := e.1.ipDst, curRoute := some r })
    simp only [lk] at ok ⊢
    cases al : arpLookup t.arpc key with
    | none =>
      have al' : arpLookup v.arpc v.drainKey = none := by rw [va, vk, al]
      simp only [al'] at hrt
      rw [hrt, disposeKeep_room
        (t := { v with curDst := e.1.ipDst, curRoute := some r, curMac := none }) free]
      refine ⟨_, rfl, sm.trans ⟨?_⟩, ?_, ?_, ?_, ?_, ?_, ?_, ?_⟩
      all_goals simp [State.labelled, vt, vl, vI, vd, vm, vx, vq, vp']
    | some mac =>
      have al' : arpLookup v.arpc v.drainKey = some mac := by rw [va, vk, al]
      simp only [al'] at hrt
      rw [hrt]
      simp only [al, hr] at ok ⊢
      by_cases hn : r.nextHop = key
      · rw [if_pos hn] at ok ⊢
        rw [if_pos (hn.trans vk.symm), disposeRelease_sent
          (t := { v with curDst := e.1.ipDst, curRoute := some r, curMac := some mac })
          (row := row) vp (by show v.iftab[r.iface]? = _; rw [vi]; exact hr)
          (by show _ ≤ v.cfg.maxFrame; rw [vc]; exact big)
          (by show v.txFail.headD false = false; rw [vx]; exact ok (by simp))]
        refine ⟨_, rfl, sm.trans ⟨?_⟩, ?_, ?_, ?_, ?_, ?_, ?_, ?_⟩
        all_goals simp [State.labelled, State.released, vt, vl, vI, vd, vm, vx, vq, vc, hn]
      · rw [if_neg hn] at ok ⊢
        rw [if_neg (fun h => hn (h.trans vk)), disposeKeep_room
          (t := { v with curDst := e.1.ipDst, curRoute := some r, curMac := some mac }) free]
        refine ⟨_, rfl, sm.trans ⟨?_⟩, ?_, ?_, ?_, ?_, ?_, ?_, ?_⟩
        all_goals simp [State.labelled, vt, vl, vI, vd, vm, vx, vq, vp', hn]

end Sys2Proof.Machine
end

