-- ==== Sys2Proof/Laws/Ipv4.lean ====
section
/-! SUPPORT. One lemma for each stage of the IPv4 path and each way out of it, on a state whose `F` holds
an IPv4 frame given by its fields (spec/45_dispatch.md R229 to R237). -/

namespace Sys2Proof.Machine

variable {t : State} {h : Ipv4Frame} {i : Nat} {row : IfRow} {r : Route}

/-! ### Ways out with an ICMP frame -/

theorem replyIcmp_sent (ty : Byte) (o : OutcomeCode) (e : t.f = ⟨encodeIpv4 h, i⟩)
    (hi : i < t.iftab.length) (big : 42 ≤ t.cfg.maxFrame) (ok : t.txFail.headD false = false) :
    replyIcmp ty o t =
      .ended (State.finish { t with
        f := ⟨encodeIpv4 (synthFields t.cfg.synthTtlFn ty h), i⟩, txFail := t.txFail.tail,
        txTrace := t.txTrace ++ [⟨encodeIpv4 (synthFields t.cfg.synthTtlFn ty h), i⟩] } o) := by
  rw [replyIcmp, synthOp_encode t .F ty h i e, Flow.andThen_go]
  simp only [State.setFrame_F]
  rw [txFrame_sent _ _ ?_ (by exact ok), Flow.andThen_go]
  exact (txReady_iff _ _).mpr ⟨hi, by simp, by simpa using big⟩

theorem replyIcmp_failed (ty : Byte) (o : OutcomeCode) (e : t.f = ⟨encodeIpv4 h, i⟩)
    (hi : i < t.iftab.length) (big : 42 ≤ t.cfg.maxFrame) (bad : t.txFail.headD false = true) :
    replyIcmp ty o t = .ended { t with
      f := ⟨encodeIpv4 (synthFields t.cfg.synthTtlFn ty h), i⟩, txFail := t.txFail.tail,
      dsm := .sHalt, dsmTrace := t.dsmTrace ++ [.sHalt],
      runState := .halted, faultCause := .txIo } := by
  rw [replyIcmp, synthOp_encode t .F ty h i e, Flow.andThen_go]
  simp only [State.setFrame_F]
  rw [txFrame_failed _ _ ?_ (by exact bad), Flow.andThen_ended]
  exact (txReady_iff _ _).mpr ⟨hi, by simp, by simpa using big⟩

/-! ### Steps 3a and 3b (R230, R231) -/

/-- What steps 3a and 3b ask of the state `u` in which the destination has been read. -/
theorem ipLocal_eq (e : t.f = ⟨encodeIpv4 h, i⟩) (hr : t.iftab[i]? = some row) :
    ∃ u : State, u = { t.enter .sIpLocal with curDst := h.ipDst } ∧
      ipLocal t =
        if h.ipDst = row.ip ∧ h.proto = 1 ∧ h.icmpType = 8 then replyIcmp 0x00 .echoReply u
        else if t.isLocal i h.ipDst = true then .ended (u.finish .dropLocal)
        else ipCsumTest u := by
  refine ⟨_, rfl, ?_⟩
  have d : t.f.ipDst = h.ipDst := by rw [e, ipv4_ipDst]
  have q : t.f.isEchoRequest = true ↔ h.proto = 1 ∧ h.icmpType = 8 := by
    rw [e, ipv4_isEchoRequest, Bool.and_eq_true, beq_iff_eq, beq_iff_eq]
  have r : (t.enter .sIpLocal).ifRow (t.enter .sIpLocal).f.iface = some row := by
    rw [State.enter_f, e]
    exact hr
  have l : t.f.iface = i := by rw [e]
  unfold ipLocal
  simp only [State.ifRow] at r ⊢
  rw [r, ← d, ← l]
  exact if_congr (and_congr Iff.rfl q) rfl (if_congr Iff.rfl rfl rfl)

theorem ipLocal_echo (e : t.f = ⟨encodeIpv4 h, i⟩) (hr : t.iftab[i]? = some row)
    (hd : h.ipDst = row.ip) (hp : h.proto = 1) (ht : h.icmpType = 8) :
    ipLocal t = replyIcmp 0 .echoReply { t.enter .sIpLocal with curDst := h.ipDst } := by
  obtain ⟨u, rfl, q⟩ := ipLocal_eq e hr
  rw [q, if_pos ⟨hd, hp, ht⟩]

theorem ipLocal_drop (e : t.f = ⟨encodeIpv4 h, i⟩) (hr : t.iftab[i]? = some row)
    (ne : ¬(h.ipDst = row.ip ∧ h.proto = 1 ∧ h.icmpType = 8)) (own : t.ownAddress row h.ipDst) :
    ipLocal t =
      .ended (State.finish { t.enter .sIpLocal with curDst := h.ipDst } .dropLocal) := by
  obtain ⟨u, rfl, q⟩ := ipLocal_eq e hr
  rw [q, if_neg ne, if_pos ((isLocal_iff t i row hr h.ipDst).mpr own)]

theorem ipLocal_pass (e : t.f = ⟨encodeIpv4 h, i⟩) (hr : t.iftab[i]? = some row)
    (ne : ¬(h.ipDst = row.ip ∧ h.proto = 1 ∧ h.icmpType = 8)) (far : ¬ t.ownAddress row h.ipDst) :
    ipLocal t = ipCsumTest { t.enter .sIpLocal with curDst := h.ipDst } := by
  obtain ⟨u, rfl, q⟩ := ipLocal_eq e hr
  rw [q, if_neg ne, if_neg (mt (isLocal_iff t i row hr h.ipDst).mp far)]

/-! ### Steps 3c to 3f (R232 to R235) -/

theorem ipCsumTest_pass (e : t.f = ⟨encodeIpv4 h, i⟩) (ok : csumVerify (ipv4Header h) = true) :
    ipCsumTest t = ipTtl (t.enter .sIpCsum) := by
  simp [ipCsumTest, e, ok]

theorem ipCsumTest_drop (e : t.f = ⟨encodeIpv4 h, i⟩) (bad : csumVerify (ipv4Header h) = false) :
    ipCsumTest t = .ended ((t.enter .sIpCsum).finish .dropCsum) := by
  simp [ipCsumTest, e, bad]

theorem ipTtl_expired (e : t.f = ⟨encodeIpv4 h, i⟩) (dead : h.ttl.toNat ≤ 1) :
    ipTtl t = replyIcmp 0x0B .timeExceeded { t.enter .sIpTtl with curTtl := h.ttl } := by
  have le : h.ttl ≤ 1 := BitVec.le_def.mpr dead
  simp only [ipTtl, State.enter_f, e, ipv4_ipTtl]
  rw [if_pos le]

theorem ipTtl_live (e : t.f = ⟨encodeIpv4 h, i⟩) (live : 2 ≤ h.ttl.toNat) :
    ipTtl t = ipRoute { t.enter .sIpTtl with curTtl := h.ttl } := by
  have gt : ¬ h.ttl ≤ 1 := by
    rw [BitVec.le_def]
    simp
    omega
  simp only [ipTtl, State.enter_f, e, ipv4_ipTtl]
  rw [if_neg gt]

theorem ipRoute_none (wf : tableWf t.iftab.length t.rt = true) (lk : lpmLookup t.rt t.curDst = none) :
    ipRoute t = replyIcmp 0x03 .noRoute { t.enter .sIpRoute with curRoute := none } := by
  rw [ipRoute, lookupOp_wf _ _ (by exact wf), Flow.andThen_go]
  simp only [State.enter_rt, lk]

theorem ipRoute_found (wf : tableWf t.iftab.length t.rt = true)
    (lk : lpmLookup t.rt t.curDst = some r) :
    ipRoute t = ipDec r { t.enter .sIpRoute with curRoute := some r } := by
  rw [ipRoute, lookupOp_wf _ _ (by exact wf), Flow.andThen_go]
  simp only [State.enter_rt, lk]

theorem ipDec_valid (e : t.f = ⟨encodeIpv4 h, i⟩) (ok : csumVerify (ipv4Header h) = true)
    (live : 2 ≤ h.ttl.toNat) :
    ipDec r t = ipResolve r { t.enter .sIpDec with
      curSum := (decFields h).csum, f := ⟨encodeIpv4 (decFields h), i⟩ } := by
  rw [ipDec, e, decFrame_valid h i ok live, ipv4_ipCsum, ipv4_ttlWord, decFields_csum h ok live]

/-! ### Step 3g (R236, R237) -/

theorem ipResolve_hit {mac : Mac} (hit : arpLookup t.arpc r.nextHop = some mac) :
    ipResolve r t = ipForward r mac { t.enter .sIpResolve with curMac := some mac } := by
  simp only [ipResolve, hit]

theorem ipResolve_miss (miss : arpLookup t.arpc r.nextHop = none) :
    ipResolve r t = ipQueue r { t.enter .sIpResolve with curMac := none } := by
  simp only [ipResolve, miss]

theorem ipForward_sent {out : IfRow} {mac : Mac} (e : t.f = ⟨encodeIpv4 h, i⟩)
    (ho : t.iftab[r.iface]? = some out) (big : 42 + h.tail.length ≤ t.cfg.maxFrame)
    (ok : t.txFail.headD false = false) :
    ipForward r mac t =
      .ended (State.finish { t with
        f := ⟨encodeIpv4 { h with dst := mac, src := out.mac }, r.iface⟩, txFail := t.txFail.tail,
        txTrace := t.txTrace ++ [⟨encodeIpv4 { h with dst := mac, src := out.mac }, r.iface⟩] }
        .forwarded) := by
  have lt : r.iface < t.iftab.length := (List.getElem?_eq_some_iff.mp ho).1
  simp only [ipForward, State.ifRow, ho, e, forwardFrame_encode]
  rw [txFrame_sent _ _ ?_ (by exact ok), Flow.andThen_go]
  exact (txReady_iff _ _).mpr ⟨lt, by simp; omega, by simpa using big⟩

theorem ipForward_failed {out : IfRow} {mac : Mac} (e : t.f = ⟨encodeIpv4 h, i⟩)
    (ho : t.iftab[r.iface]? = some out) (big : 42 + h.tail.length ≤ t.cfg.maxFrame)
    (bad : t.txFail.headD false = true) :
    ipForward r mac t = .ended { t with
      f := ⟨encodeIpv4 { h with dst := mac, src := out.mac }, r.iface⟩, txFail := t.txFail.tail,
      dsm := .sHalt, dsmTrace := t.dsmTrace ++ [.sHalt], runState := .halted, faultCause := .txIo } := by
  have lt : r.iface < t.iftab.length := (List.getElem?_eq_some_iff.mp ho).1
  simp only [ipForward, State.ifRow, ho, e, forwardFrame_encode]
  rw [txFrame_failed _ _ ?_ (by exact bad), Flow.andThen_ended]
  exact (txReady_iff _ _).mpr ⟨lt, by simp; omega, by simpa using big⟩

theorem ipQueue_sent {out : IfRow} (ho : t.iftab[r.iface]? = some out) (big : 42 ≤ t.cfg.maxFrame)
    (room : below t.pq.length t.cfg.pqDepth = true) (ok : t.txFail.headD false = false) :
    ipQueue r t =
      .ended (State.finish { t with
        pq := t.pq ++ [t.f], g := ⟨requestBytes t.cfg.arpreqTha out r.nextHop, r.iface⟩,
        txFail := t.txFail.tail,
        txTrace := t.txTrace ++ [⟨requestBytes t.cfg.arpreqTha out r.nextHop, r.iface⟩] }
        .queued) := by
  rw [ipQueue, pqEnqOp_room _ _ room, Flow.andThen_go,
    arpReqEmitOp_sent _ _ _ out (by exact ho) (by exact big) (by exact ok), Flow.andThen_go]

theorem ipQueue_failed {out : IfRow} (ho : t.iftab[r.iface]? = some out)
    (big : 42 ≤ t.cfg.maxFrame) (room : below t.pq.length t.cfg.pqDepth = true)
    (bad : t.txFail.headD false = true) :
    ipQueue r t = .ended { t with
      pq := t.pq ++ [t.f], g := ⟨requestBytes t.cfg.arpreqTha out r.nextHop, r.iface⟩,
      txFail := t.txFail.tail, dsm := .sHalt, dsmTrace := t.dsmTrace ++ [.sHalt],
      runState := .halted, faultCause := .txIo } := by
  rw [ipQueue, pqEnqOp_room _ _ room, Flow.andThen_go,
    arpReqEmitOp_failed _ _ _ out (by exact ho) (by exact big) (by exact bad), Flow.andThen_ended]

theorem ipQueue_full (full : below t.pq.length t.cfg.pqDepth = false) :
    ipQueue r t = .ended (t.raise .capacity) := by
  rw [ipQueue, pqEnqOp_full _ _ full, Flow.andThen_ended]

/-! ### The way of a transit packet through the stages -/

/-- A transit packet with a valid header reaches the TTL test. -/
theorem ipLocal_toTtl (e : t.f = ⟨encodeIpv4 h, i⟩) (hr : t.iftab[i]? = some row)
    (hd : h.ipDst ≠ row.ip) (far : ¬ t.ownAddress row h.ipDst)
    (ok : csumVerify (ipv4Header h) = true) :
    ipLocal t = ipTtl { t with
      curDst := h.ipDst, dsm := .sIpCsum, dsmTrace := t.dsmTrace ++ [.sIpLocal, .sIpCsum] } := by
  refine ((ipLocal_pass e hr (fun x => hd x.1) far).trans (ipCsumTest_pass (by exact e) ok)).trans ?_
  simp [State.enter]

/-- A transit packet with a valid header and a live TTL reaches the lookup. -/
theorem ipLocal_toRoute (e : t.f = ⟨encodeIpv4 h, i⟩) (hr : t.iftab[i]? = some row)
    (hd : h.ipDst ≠ row.ip) (far : ¬ t.ownAddress row h.ipDst)
    (ok : csumVerify (ipv4Header h) = true) (live : 2 ≤ h.ttl.toNat) :
    ipLocal t = ipRoute { t with
      curDst := h.ipDst, curTtl := h.ttl, dsm := .sIpTtl,
      dsmTrace := t.dsmTrace ++ [.sIpLocal, .sIpCsum, .sIpTtl] } := by
  refine ((ipLocal_toTtl e hr hd far ok).trans (ipTtl_live (by exact e) live)).trans ?_
  simp [State.enter]

/-- A transit packet with a valid header, a live TTL and a Route reaches the cache lookup. -/
theorem ipLocal_toResolve (e : t.f = ⟨encodeIpv4 h, i⟩) (hr : t.iftab[i]? = some row)
    (hd : h.ipDst ≠ row.ip) (far : ¬ t.ownAddress row h.ipDst)
    (ok : csumVerify (ipv4Header h) = true) (live : 2 ≤ h.ttl.toNat)
    (wf : tableWf t.iftab.length t.rt = true) (lk : lpmLookup t.rt h.ipDst = some r) :
    ipLocal t = ipResolve r { t with
      f := ⟨encodeIpv4 (decFields h), i⟩, curDst := h.ipDst, curTtl := h.ttl, curRoute := some r,
      curSum := (decFields h).csum, dsm := .sIpDec,
      dsmTrace := t.dsmTrace ++ [.sIpLocal, .sIpCsum, .sIpTtl, .sIpRoute, .sIpDec] } := by
  refine ((ipLocal_toRoute e hr hd far ok live).trans
    ((ipRoute_found (by exact wf) (by exact lk)).trans (ipDec_valid (by exact e) ok live))).trans ?_
  simp [State.enter]

end Sys2Proof.Machine
end

