-- ==== Sys2Proof/Laws/PerInstr.lean ====
section
/-! SUPPORT. Statements made of every instruction, one lemma per constructor. The family
`WordHead`: a frame class has at least the bytes of an Ethernet header (spec/30_encoding.md R82, R90),
an operation word starts with the code R98 or R99 gives the operation. -/

namespace Sys2Proof.Laws.WordHead

open Sys2Proof Sys2Proof.Machine

/-- The operation code of spec/30_encoding.md R98 and R99; frame classes have none. -/
def code : Instr → Option Byte
  | .arpRequest _ | .arpReply _ | .arpRsvd _ _ | .ipv4EchoReq _ | .ipv4 _ | .ethRsvd _ => none
  | .icmpEchoReply => some 0x00
  | .icmpDestUnreach _ => some 0x03
  | .icmpTimeExceeded => some 0x0B
  | .lpmBuild _ => some 0x01
  | .lpmLookup _ => some 0x02
  | .csum _ => some 0x10
  | .csumVerify _ => some 0x11
  | .csumIncr _ _ _ => some 0x12
  | .icmpSynth _ _ => some 0x20
  | .arpcLookup _ => some 0x30
  | .arpcInsert _ _ => some 0x31
  | .pqEnq _ => some 0x38
  | .pqDeq => some 0x39
  | .pqSize => some 0x3A
  | .pqDrain _ => some 0x3B
  | .arpReqEmit _ _ => some 0x3C
  | .l2Filter => some 0x40
  | .frameStep => some 0x41
  | .rx => some 0x50
  | .tx _ => some 0x51
  | .ifMac _ => some 0x52
  | .ifIp _ => some 0x53
  | .hostLoadRoutes _ => some 0x60
  | .hostStart => some 0x61
  | .hostReset => some 0x62

/-- A word comes by the operation port exactly if its instruction has a code, which is then the word's
first byte; a word at the receive port holds an Ethernet header. -/
def Statement (i : Instr) : Prop :=
  match code i with
  | some c => i.port = .op ∧ (encode i).head? = some c
  | none => i.port = .rx ∧ ethHeaderLen ≤ (encode i).length

theorem arpRequest (h : ArpFrame) : Statement (.arpRequest h) :=
  ⟨rfl, by simp [encode, ethHeaderLen, encodeArp_length]; omega⟩

theorem arpReply (h : ArpFrame) : Statement (.arpReply h) :=
  ⟨rfl, by simp [encode, ethHeaderLen, encodeArp_length]; omega⟩

theorem arpRsvd (op : Half) (h : ArpFrame) : Statement (.arpRsvd op h) :=
  ⟨rfl, by simp [encode, ethHeaderLen, encodeArp_length]; omega⟩

theorem ipv4EchoReq (h : Ipv4Frame) : Statement (.ipv4EchoReq h) :=
  ⟨rfl, by simp [encode, ethHeaderLen, encodeIpv4_length]; omega⟩

theorem ipv4 (h : Ipv4Frame) : Statement (.ipv4 h) :=
  ⟨rfl, by simp [encode, ethHeaderLen, encodeIpv4_length]; omega⟩

theorem ethRsvd (h : EthFrame) : Statement (.ethRsvd h) :=
  ⟨rfl, by simp [encode, ethHeaderLen, encodeEth_length]⟩

theorem icmpEchoReply : Statement .icmpEchoReply := ⟨rfl, rfl⟩

theorem icmpDestUnreach (x : FrameReg) : Statement (.icmpDestUnreach x) := ⟨rfl, rfl⟩

theorem icmpTimeExceeded : Statement .icmpTimeExceeded := ⟨rfl, rfl⟩

theorem lpmBuild (es : List Route) : Statement (.lpmBuild es) := ⟨rfl, rfl⟩

theorem lpmLookup (d : Ip) : Statement (.lpmLookup d) := ⟨rfl, rfl⟩

theorem csum (bs : List Byte) : Statement (.csum bs) := ⟨rfl, rfl⟩

theorem csumVerify (bs : List Byte) : Statement (.csumVerify bs) := ⟨rfl, rfl⟩

theorem csumIncr (hc m m' : Half) : Statement (.csumIncr hc m m') := ⟨rfl, rfl⟩

theorem icmpSynth (x : FrameReg) (t : Byte) : Statement (.icmpSynth x t) := ⟨rfl, rfl⟩

theorem arpcLookup (a : Ip) : Statement (.arpcLookup a) := ⟨rfl, rfl⟩

theorem arpcInsert (a : Ip) (m : Mac) : Statement (.arpcInsert a m) := ⟨rfl, rfl⟩

theorem pqEnq (x : FrameReg) : Statement (.pqEnq x) := ⟨rfl, rfl⟩

theorem pqDeq : Statement .pqDeq := ⟨rfl, rfl⟩

theorem pqSize : Statement .pqSize := ⟨rfl, rfl⟩

theorem pqDrain (n : Ip) : Statement (.pqDrain n) := ⟨rfl, rfl⟩

theorem arpReqEmit (nh : Ip) (i : Nat) : Statement (.arpReqEmit nh i) := ⟨rfl, rfl⟩

theorem l2Filter : Statement .l2Filter := ⟨rfl, rfl⟩

theorem frameStep : Statement .frameStep := ⟨rfl, rfl⟩

theorem rx : Statement .rx := ⟨rfl, rfl⟩

theorem tx (x : FrameReg) : Statement (.tx x) := ⟨rfl, rfl⟩

theorem ifMac (i : Nat) : Statement (.ifMac i) := ⟨rfl, rfl⟩

theorem ifIp (i : Nat) : Statement (.ifIp i) := ⟨rfl, rfl⟩

theorem hostLoadRoutes (es : Option (List Route)) : Statement (.hostLoadRoutes es) := by
  cases es <;> exact ⟨rfl, rfl⟩

theorem hostStart : Statement .hostStart := ⟨rfl, rfl⟩

theorem hostReset : Statement .hostReset := ⟨rfl, rfl⟩

end Sys2Proof.Laws.WordHead
end

