-- ==== Sys2Proof/Tests/Slice0.lean ====
section
/-! SUPPORT. Tests: ill-formed terms that `wellFormed` refuses; words written out from
spec/30_encoding.md R82 to R99 and the instructions they stand for; single steps with the results of
spec/95_test_vectors.md; and, for each statement with hypotheses, a state and operands that meet them. -/

namespace Sys2Proof.Tests

set_option Elab.async false

open Sys2Proof Sys2Proof.Machine

/-! ### Ill-formed terms -/

/-- A blank ARP frame. -/
def arp0 : ArpFrame := ⟨0, 0, 0, 0, 0, 0, 0, 0, 0, 0, []⟩

/-- A blank IPv4 frame. -/
def ip0 : Ipv4Frame := ⟨0, 0, 4, 5, 0, 0, 0, 0, 0, 0, 0, 0, 0, 0, 0, 0, 0, []⟩

/-- A Route whose interface does not fit its operand field. -/
def wideRoute : Route := ⟨0, 0, 0, 2 ^ 32⟩

theorem test_illformed_arpRsvd_request : (Instr.arpRsvd 1 arp0).wellFormed = false := by decide

theorem test_illformed_arpRsvd_reply : (Instr.arpRsvd 2 arp0).wellFormed = false := by decide

theorem test_illformed_echo_other_type :
    (Instr.ipv4EchoReq { ip0 with proto := 1, icmpType := 0 }).wellFormed = false := by decide

theorem test_illformed_ipv4_echo :
    (Instr.ipv4 { ip0 with proto := 1, icmpType := 8 }).wellFormed = false := by decide

theorem test_illformed_eth_arp : (Instr.ethRsvd ⟨0, 0, 0x0806, []⟩).wellFormed = false := by decide

theorem test_illformed_eth_ipv4 : (Instr.ethRsvd ⟨0, 0, 0x0800, []⟩).wellFormed = false := by decide

theorem test_illformed_synth_G :
    (Instr.icmpSynth .G 3).wellFormed = false ∧ (Instr.icmpDestUnreach .G).wellFormed = false := by
  decide

theorem test_illformed_interface_width :
    (Instr.arpReqEmit 0 (2 ^ 32)).wellFormed = false ∧ (Instr.ifMac (2 ^ 32)).wellFormed = false ∧
      (Instr.ifIp (2 ^ 32)).wellFormed = false := by decide

theorem test_illformed_route_width :
    (Instr.lpmBuild [wideRoute]).wellFormed = false ∧
      (Instr.hostLoadRoutes (some [wideRoute])).wellFormed = false := by decide

theorem test_illformed_too_many_bytes (bs : List Byte) (h : bs.length = 2 ^ 32) :
    (Instr.csum bs).wellFormed = false ∧ (Instr.csumVerify bs).wellFormed = false := by
  simp [Instr.wellFormed, fits32, h]

theorem test_illformed_too_many_routes (rs : List Route) (h : rs.length = 2 ^ 32) :
    (Instr.lpmBuild rs).wellFormed = false := by simp [Instr.wellFormed, tableEncodable, fits32, h]

/-! ### Decoding: frames written byte by byte (R82, R84, R86, R88, R96) -/

/-- An ARP frame of spec/95_test_vectors.md program P2 (and P3 step 4, P7d) with operation `op`. -/
def arpWord (op : Byte) : List Byte :=
  [0xff, 0xff, 0xff, 0xff, 0xff, 0xff, 0x02, 0x00, 0x00, 0x00, 0xaa, 0x00, 0x08, 0x06, 0x00, 0x01,
   0x08, 0x00, 0x06, 0x04, 0x00, op, 0x02, 0x00, 0x00, 0x00, 0xaa, 0x00, 0xc0, 0xa8, 0x00, 0x02,
   0x00, 0x00, 0x00, 0x00, 0x00, 0x00, 0xc0, 0xa8, 0x00, 0x01]

/-- Its fields. -/
def arpH0 : ArpFrame where
  dst := 0xffffffffffff
  src := 0x02000000aa00
  htype := 1
  ptype := 0x0800
  hlen := 6
  plen := 4
  sha := 0x02000000aa00
  spa := 0xC0A80002
  tha := 0
  tpa := 0xC0A80001
  pad := []

/-- The echo request of program P5. -/
def echoWord : List Byte :=
  [0x02, 0x00, 0x00, 0x00, 0x01, 0x00, 0x02, 0x00, 0x00, 0x00, 0xaa, 0x00, 0x08, 0x00, 0x45, 0x00,
   0x00, 0x24, 0xab, 0xcd, 0x40, 0x00, 0x40, 0x01, 0x0d, 0xb8, 0xc0, 0xa8, 0x00, 0x02, 0xc0, 0xa8,
   0x00, 0x01, 0x08, 0x00, 0x81, 0x7b, 0xbe, 0xef, 0x00, 0x01, 0x70, 0x69, 0x6e, 0x67, 0x64, 0x61,
   0x74, 0x61]

/-- Its fields. -/
def echoH0 : Ipv4Frame where
  dst := 0x020000000100
  src := 0x02000000aa00
  ver := 4
  ihl := 5
  tos := 0
  totalLen := 0x24
  ident := 0xabcd
  frag := 0x4000
  ttl := 0x40
  proto := 1
  csum := 0x0db8
  ipSrc := 0xC0A80002
  ipDst := 0xC0A80001
  icmpType := 8
  icmpCode := 0
  icmpCsum := 0x817b
  icmpRest := 0xbeef0001
  tail := [0x70, 0x69, 0x6e, 0x67, 0x64, 0x61, 0x74, 0x61]

/-- Frame A of program P3, with its TTL and header checksum to be given. -/
def udpWord (ttl c1 c0 : Byte) : List Byte :=
  [0x02, 0x00, 0x00, 0x00, 0x01, 0x00, 0x02, 0x00, 0x00, 0x00, 0xaa, 0x00, 0x08, 0x00, 0x45, 0x00,
   0x00, 0x20, 0x00, 0x01, 0x00, 0x00, ttl, 0x11, c1, c0, 0xc0, 0xa8, 0x00, 0x02, 0x0a, 0x02,
   0x03, 0x04, 0x30, 0x39, 0x00, 0x35, 0x00, 0x0c, 0x00, 0x00, 0x41, 0x42, 0x43, 0x44]

/-- The fields of frame A. -/
def frameA : Ipv4Frame where
  dst := 0x020000000100
  src := 0x02000000aa00
  ver := 4
  ihl := 5
  tos := 0
  totalLen := 0x20
  ident := 1
  frag := 0
  ttl := 0x40
  proto := 0x11
  csum := 0xad1c
  ipSrc := 0xC0A80002
  ipDst := 0x0A020304
  icmpType := 0x30
  icmpCode := 0x39
  icmpCsum := 0x0035
  icmpRest := 0x000c0000
  tail := [0x41, 0x42, 0x43, 0x44]

theorem test_decode_arpRequest : decodeFrame (arpWord 1) = .ok (.arpRequest arpH0) := by decide +kernel

theorem test_decode_arpReply : decodeFrame (arpWord 2) = .ok (.arpReply arpH0) := by decide +kernel

theorem test_decode_arpRsvd : decodeFrame (arpWord 3) = .ok (.arpRsvd 3 arpH0) := by decide +kernel

theorem test_decode_ipv4EchoReq : decodeFrame echoWord = .ok (.ipv4EchoReq echoH0) := by
  decide +kernel

theorem test_decode_ipv4 : decodeFrame (udpWord 0x40 0xad 0x1c) = .ok (.ipv4 frameA) := by
  decide +kernel

theorem test_decode_ethRsvd :
    decodeFrame [0x02, 0, 0, 0, 0x01, 0, 0x02, 0, 0, 0, 0xaa, 0, 0x86, 0xdd] =
      .ok (.ethRsvd ⟨0x020000000100, 0x02000000aa00, 0x86dd, []⟩) := by decide +kernel

theorem test_decode_runts :
    decodeFrame ((arpWord 1).take 41) = .bad .runtFrame ∧
      decodeFrame (echoWord.take 41) = .bad .runtFrame ∧
      decodeFrame (echoWord.take 13) = .bad .runtFrame := by decide +kernel

/-! ### Decoding: operation words (R98, R99; operand bytes log 4) -/

theorem test_decode_synth_forms :
    decodeOp [0x00] = .ok .icmpEchoReply ∧ decodeOp [0x03, 1] = .ok (.icmpDestUnreach .P) ∧
      decodeOp [0x0B] = .ok .icmpTimeExceeded ∧ decodeOp [0x20, 0, 3] = .ok (.icmpSynth .F 3) := by
  decide

theorem test_decode_lpm :
    decodeOp [0x01, 0, 0, 0, 1, 10, 0, 0, 0, 255, 0, 0, 0, 192, 168, 2, 2, 0, 0, 0, 2] =
      .ok (.lpmBuild [⟨0x0A000000, 0xFF000000, 0xC0A80202, 2⟩]) ∧
    decodeOp [0x02, 10, 1, 2, 4] = .ok (.lpmLookup 0x0A010204) := by decide +kernel

theorem test_decode_checksum :
    decodeOp [0x10, 0, 0, 0, 2, 0x45, 0x00] = .ok (.csum [0x45, 0x00]) ∧
    decodeOp [0x11, 0, 0, 0, 2, 0xff, 0xff] = .ok (.csumVerify [0xff, 0xff]) ∧
    decodeOp [0x12, 0xB1, 0xE6, 0x40, 0x06, 0x3F, 0x06] = .ok (.csumIncr 0xB1E6 0x4006 0x3F06) := by
  decide +kernel

theorem test_decode_tables :
    decodeOp [0x30, 192, 168, 2, 2] = .ok (.arpcLookup 0xC0A80202) ∧
    decodeOp [0x31, 192, 168, 2, 2, 2, 0, 0, 0, 0xcc, 2] =
      .ok (.arpcInsert 0xC0A80202 0x02000000cc02) ∧
    decodeOp [0x38, 0] = .ok (.pqEnq .F) ∧ decodeOp [0x39] = .ok .pqDeq ∧
    decodeOp [0x3A] = .ok .pqSize ∧ decodeOp [0x3B, 192, 168, 2, 2] = .ok (.pqDrain 0xC0A80202) ∧
    decodeOp [0x3C, 192, 168, 2, 2, 0, 0, 0, 2] = .ok (.arpReqEmit 0xC0A80202 2) := by decide +kernel

theorem test_decode_engine_and_ports :
    decodeOp [0x40] = .ok .l2Filter ∧ decodeOp [0x41] = .ok .frameStep ∧ decodeOp [0x50] = .ok .rx ∧
    decodeOp [0x51, 2] = .ok (.tx .G) ∧ decodeOp [0x52, 0, 0, 0, 1] = .ok (.ifMac 1) ∧
    decodeOp [0x53, 0, 0, 0, 1] = .ok (.ifIp 1) := by decide +kernel

theorem test_decode_host :
    decodeOp [0x60, 0, 0, 0, 0, 0] = .ok (.hostLoadRoutes (some [])) ∧
    decodeOp [0x60, 1] = .ok (.hostLoadRoutes none) ∧ decodeOp [0x61] = .ok .hostStart ∧
    decodeOp [0x62] = .ok .hostReset := by decide +kernel

theorem test_decode_refused_words :
    decodeOp [0x63] = .bad (.reservedOp 0x63) ∧ decodeOp [] = .bad .emptyWord ∧
    decodeOp [0x02, 10] = .bad .truncatedOperand ∧ decodeOp [0x41, 0] = .bad .trailingBytes ∧
    decodeOp [0x51, 3] = .bad (.badFrameReg 3) ∧ decodeOp [0x20, 2, 3] = .bad (.badFrameReg 2) ∧
    decodeOp [0x60, 2] = .bad (.badLoaderTag 2) := by decide +kernel

theorem test_table_word_arpReply :
    (decodeTableWord 336
      0x000000000000000000000000080600000000000000020000000000000000000000000000000000000000) =
      some (.arpReply arp0) := by decide +kernel

/-! ### A small machine (spec/95_test_vectors.md section 1, and part of its table T6) -/

/-- The interface table of the vectors. -/
def ift : List IfRow :=
  [⟨0x020000000100, 0xC0A80001⟩, ⟨0x020000000101, 0xC0A80101⟩, ⟨0x020000000102, 0xC0A80201⟩]

/-- Routes 2 to 5 of table T6. -/
def table : List Route :=
  [⟨0x0A000000, 0xFF000000, 0xC0A80202, 2⟩, ⟨0x0A010000, 0xFFFF0000, 0xC0A80102, 1⟩,
   ⟨0x0A010000, 0xFFFF0000, 0xC0A80202, 2⟩, ⟨0x0A010203, 0xFFFFFFFF, 0xC0A80202, 2⟩]

/-- Reset, with the vectors' interface table. -/
def cold : State := { State.reset with iftab := ift }

/-- The engine running with that table. -/
def loop : State := { cold with runState := .running, loaded := true, rt := table }

/-- The engine with one frame offered on interface `i`. -/
def offered (b : List Byte) (i : Nat) : State := { loop with rxq := [.frame ⟨b, i⟩] }

/-- N2's address as the cache holds it. -/
def entryN2 : ArpEntry := ⟨0xC0A80202, 0x02000000cc02⟩

/-- Frame A as it is queued (program P3 step 1). -/
def queuedA : Frame := ⟨udpWord 0x3f 0xae 0x1c, 0⟩

/-- Does the operation answer a next state with this property? -/
def after (o : Out) (p : State → Bool) : Bool :=
  match o with
  | .next t => p t
  | .fault _ => false
  | .refused _ => false

/-- The refusal answered, if any. -/
def refusal : Out → Option Refusal
  | .next _ => none
  | .fault _ => none
  | .refused r => some r

/-- The fault answered, if any. -/
def faultOf : Out → Option Fault
  | .next _ => none
  | .fault r => some r
  | .refused _ => none

/-! ### Frame classes: whole steps -/

/-- Program P2. -/
theorem test_arpRequest_reply :
    after (step (offered (arpWord 1) 0)) (fun t =>
      t.txTrace == [⟨[0x02, 0x00, 0x00, 0x00, 0xaa, 0x00, 0xff, 0xff, 0xff, 0xff, 0xff, 0xff, 0x08,
        0x06, 0x00, 0x01, 0x08, 0x00, 0x06, 0x04, 0x00, 0x02, 0x02, 0x00, 0x00, 0x00, 0x01, 0x00,
        0xc0, 0xa8, 0x00, 0x01, 0x02, 0x00, 0x00, 0x00, 0xaa, 0x00, 0xc0, 0xa8, 0x00, 0x02], 0⟩] &&
      t.outcomes == [.arpReplied] && t.arpc == [] &&
      t.dsmTrace == [.sRx, .sL2, .sEtype, .sArpOp, .sArpReq, .sRx]) = true := by decide +kernel

/-- Program P2b: who-has an address of another interface, received on interface 1. -/
theorem test_arpRequest_not_local :
    after (step (offered (arpWord 1) 1)) (fun t =>
      t.txTrace == [] && t.outcomes == [.dropArpNotLocal]) = true := by decide +kernel

/-- Program P3 step 4, with A' alone in the queue. -/
theorem test_arpReply_releases :
    after (execArpReply { arpH0 with sha := 0x02000000cc02, spa := 0xC0A80202 }
      { loop with pq := [queuedA], f := ⟨[], 2⟩ }) (fun t =>
      t.arpc == [entryN2] && t.pq == [] && t.drainLabels == [.tx] && t.drainN == 1 &&
      t.txTrace == [⟨[0x02, 0x00, 0x00, 0x00, 0xcc, 0x02, 0x02, 0x00, 0x00, 0x00, 0x01, 0x02] ++
        (udpWord 0x3f 0xae 0x1c).drop 12, 2⟩]) = true := by decide +kernel

/-- Program P3 step 5: a second station for a cached address changes nothing. -/
theorem test_arpReply_duplicate :
    after (execArpReply { arpH0 with sha := 0x02000000cc99, spa := 0xC0A80202 }
      { loop with arpc := [entryN2] }) (fun t =>
      t.arpc == [entryN2] && t.txTrace == [] && t.outcomes == [.arpLearned]) = true := by
  decide +kernel

/-- Program P7d. -/
theorem test_arpRsvd_drop :
    after (step (offered (arpWord 3) 0)) (fun t =>
      t.txTrace == [] && t.outcomes == [.dropArpOp] && t.dsm == .sRx) = true := by decide +kernel

/-- Program P5. -/
theorem test_ipv4EchoReq_reply :
    after (step (offered echoWord 0)) (fun t =>
      t.txTrace == [⟨[0x02, 0x00, 0x00, 0x00, 0xaa, 0x00, 0x02, 0x00, 0x00, 0x00, 0x01, 0x00, 0x08,
        0x00, 0x45, 0x00, 0x00, 0x1c, 0xab, 0xcd, 0x40, 0x00, 0x3f, 0x01, 0x0e, 0xc0, 0xc0, 0xa8,
        0x00, 0x01, 0xc0, 0xa8, 0x00, 0x02, 0x00, 0x00, 0x41, 0x0f, 0xbe, 0xef, 0x00, 0x01], 0⟩] &&
      t.outcomes == [.echoReply]) = true := by decide +kernel

/-- Program P3 step 1. -/
theorem test_ipv4_queued :
    after (step (offered (udpWord 0x40 0xad 0x1c) 0)) (fun t =>
      t.pq == [queuedA] && t.outcomes == [.queued] &&
      t.txTrace == [⟨[0xff, 0xff, 0xff, 0xff, 0xff, 0xff, 0x02, 0x00, 0x00, 0x00, 0x01, 0x02, 0x08,
        0x06, 0x00, 0x01, 0x08, 0x00, 0x06, 0x04, 0x00, 0x01, 0x02, 0x00, 0x00, 0x00, 0x01, 0x02,
        0xc0, 0xa8, 0x02, 0x01, 0x00, 0x00, 0x00, 0x00, 0x00, 0x00, 0xc0, 0xa8, 0x02, 0x02], 2⟩]) =
      true := by decide +kernel

/-- Program P4. -/
theorem test_ipv4_bad_checksum :
    after (step (offered (udpWord 0x40 0xac 0x1c) 0)) (fun t =>
      t.pq == [] && t.txTrace == [] && t.outcomes == [.dropCsum]) = true := by decide +kernel

/-- Section 8: a reserved EtherType at length 14. -/
theorem test_ethRsvd_drop :
    after (step (offered [0x02, 0, 0, 0, 0x01, 0, 0x02, 0, 0, 0, 0xaa, 0, 0x86, 0xdd] 0)) (fun t =>
      t.outcomes == [.dropEtype] && t.runState == .running) = true := by decide +kernel

/-! ### Synthesizer (section 4) -/

/-- The frame of vector S1. -/
def s1 : Frame :=
  ⟨[0x02, 0x00, 0x00, 0x00, 0x01, 0x01, 0x02, 0x00, 0x00, 0x00, 0xbb, 0x01, 0x08, 0x00, 0x46, 0x10,
    0x00, 0x2e, 0x5a, 0x5a, 0x40, 0x00, 0x80, 0x06, 0x2d, 0x9f, 0xc0, 0xa8, 0x01, 0x02, 0xac, 0x10,
    0x05, 0x06, 0xc0, 0xde, 0x00, 0x50, 0xde, 0xad, 0xbe, 0xef, 0x00, 0x00, 0x00, 0x00, 0x50, 0x02,
    0x10, 0x00, 0x00, 0x00, 0x00, 0x00, 0x00, 0x00, 0x00, 0x00, 0x00, 0x00], 1⟩

/-- The first 34 bytes of its results; the ICMP header follows. -/
def s1Head : List Byte :=
  [0x02, 0x00, 0x00, 0x00, 0xbb, 0x01, 0x02, 0x00, 0x00, 0x00, 0x01, 0x01, 0x08, 0x00, 0x45, 0x10,
   0x00, 0x1c, 0x5a, 0x5a, 0x40, 0x00, 0x7f, 0x01, 0x2e, 0xb6, 0xac, 0x10, 0x05, 0x06, 0xc0, 0xa8,
   0x01, 0x02]

theorem test_icmpSynth_S1 :
    after (execIcmpSynth .P 0x03 { loop with p := s1 }) (fun t =>
      t.p == ⟨s1Head ++ [0x03, 0x00, 0x5f, 0x62, 0xde, 0xad, 0xbe, 0xef], 1⟩) = true := by
  decide +kernel

theorem test_icmpDestUnreach_S1 :
    after (execIcmpDestUnreach .F { loop with f := s1 }) (fun t =>
      t.f == ⟨s1Head ++ [0x03, 0x00, 0x5f, 0x62, 0xde, 0xad, 0xbe, 0xef], 1⟩) = true := by
  decide +kernel

/-- The ICMP checksum for type 0 is `0x0300` more than S1's, for type 11 `0x0800` less. -/
theorem test_icmpEchoReply_S1 :
    after (execIcmpEchoReply { loop with f := s1 }) (fun t =>
      t.f == ⟨s1Head ++ [0x00, 0x00, 0x62, 0x62, 0xde, 0xad, 0xbe, 0xef], 1⟩) = true := by
  decide +kernel

theorem test_icmpTimeExceeded_S1 :
    after (execIcmpTimeExceeded { loop with f := s1 }) (fun t =>
      t.f == ⟨s1Head ++ [0x0b, 0x00, 0x57, 0x62, 0xde, 0xad, 0xbe, 0xef], 1⟩) = true := by
  decide +kernel

/-! ### Lookup and checksum (sections 2 and 3) -/

theorem test_lpmBuild_ill_formed :
    refusal (execLpmBuild [⟨0x0A010203, 0xFFFF0000, 0, 0⟩] cold) = some .illFormedTable ∧
      refusal (execLpmBuild [⟨0x0A000000, 0xFF00FF00, 0, 0⟩] cold) = some .illFormedTable := by
  decide +kernel

theorem test_lpmBuild_table :
    after (execLpmBuild table cold) (fun t => t.rt == table) = true := by decide +kernel

theorem test_lpmLookup_tie :
    after (execLpmLookup 0x0A010204 loop) (fun t => t.curRoute == table[1]?) = true := by
  decide +kernel

theorem test_lpmLookup_none :
    after (execLpmLookup 0x0B000000 loop) (fun t => t.ret == .optRoute none) = true := by
  decide +kernel

/-- The header of R142 with the given checksum. -/
def header (c1 c0 : Byte) : List Byte :=
  [0x45, 0x00, 0x00, 0x3c, 0x1c, 0x46, 0x40, 0x00, 0x40, 0x06, c1, c0, 0xac, 0x10, 0x0a, 0x63,
   0xac, 0x10, 0x0a, 0x0c]

theorem test_csum_header :
    after (execCsum (header 0 0) loop) (fun t => t.ret == .half 0xB1E6) = true := by decide +kernel

theorem test_csum_zeros :
    after (execCsum (List.replicate 20 0) loop) (fun t => t.ret == .half 0xFFFF) = true := by
  decide +kernel

theorem test_csumVerify_header :
    after (execCsumVerify (header 0xb1 0xe6) loop) (fun t => t.ret == .flag true) = true ∧
      after (execCsumVerify (header 0xb1 0xe7) loop) (fun t => t.ret == .flag false) = true := by
  decide +kernel

theorem test_csumVerify_two_zeros :
    after (execCsumVerify [0xff, 0xff, 0x00, 0x00] loop) (fun t => t.ret == .flag true) = true := by
  decide +kernel

theorem test_csumIncr_ttl :
    after (execCsumIncr 0xB1E6 0x4006 0x3F06 loop) (fun t => t.ret == .half 0xB2E6) = true := by
  decide +kernel

theorem test_csumIncr_rfc1624 :
    after (execCsumIncr 0xDD2F 0x5555 0x3285 loop) (fun t => t.ret == .half 0x0000) = true := by
  decide +kernel

/-! ### Cache, queue, drain, request (section 5) -/

theorem test_arpcLookup_hit :
    after (execArpcLookup 0xC0A80202 { loop with arpc := [entryN2] }) (fun t =>
      t.ret == .optMac (some 0x02000000cc02)) = true := by decide +kernel

theorem test_arpcInsert_new :
    after (execArpcInsert 0xC0A80202 0x02000000cc02 loop) (fun t => t.arpc == [entryN2]) = true := by
  decide +kernel

theorem test_arpcInsert_overwrite :
    after (execArpcInsert 0xC0A80202 0x02000000cc99
      { loop with arpc := [entryN2], cfg := { loop.cfg with arpDupPolicy := .overwrite } }) (fun t =>
      t.arpc == [⟨0xC0A80202, 0x02000000cc99⟩]) = true := by decide +kernel

theorem test_pqEnq_tail :
    after (execPqEnq .F { loop with pq := [queuedA], f := s1 }) (fun t => t.pq == [queuedA, s1]) =
      true := by decide +kernel

theorem test_pqEnq_full :
    after (execPqEnq .F { loop with pq := [queuedA], cfg := { loop.cfg with pqDepth := some 1 } })
      (fun t => t.faultCause == .capacity && t.runState == .halted && t.pq == [queuedA]) = true := by
  decide +kernel

theorem test_pqDeq_head :
    after (execPqDeq { loop with pq := [queuedA, s1] }) (fun t => t.p == queuedA && t.pq == [s1]) =
      true := by decide +kernel

theorem test_pqSize_two :
    after (execPqSize { loop with pq := [queuedA, s1] }) (fun t => t.ret == .nat 2) = true := by
  decide +kernel

/-- The awaited address is not in the cache: the entry goes back behind (R201 case (c)). -/
theorem test_pqDrain_keeps :
    after (execPqDrain 0xC0A80202 { loop with pq := [queuedA] }) (fun t =>
      t.pq == [queuedA] && t.drainLabels == [.keep] && t.txTrace == []) = true := by decide +kernel

/-- Section 5, case (a): an entry with no route leaves as an unreachable error. -/
theorem test_pqDrain_unreachable :
    after (execPqDrain 0xC0A80202 { loop with pq := [⟨s1.buf, 0⟩] }) (fun t =>
      t.pq == [] && t.drainLabels == [.unreach] && t.txTrace.map Frame.len == [42]) = true := by
  decide +kernel

theorem test_arpReqEmit_fields :
    after (execArpReqEmit 0xC0A80202 2 loop) (fun t =>
      t.txTrace == [t.g] && t.g.len == 42 && t.g.iface == 2 && t.g.arpOp == 1 &&
      t.g.arpTpa == 0xC0A80202 && t.g.arpSpa == 0xC0A80201 && t.f == loop.f) = true := by
  decide +kernel

/-! ### Engine, ports, host (sections 7 and 8) -/

theorem test_l2Filter_own_only :
    after (execL2Filter { loop with f := ⟨echoWord, 0⟩ }) (fun t => t.ret == .flag true) = true ∧
      after (execL2Filter { loop with f := ⟨echoWord, 1⟩ }) (fun t => t.ret == .flag false) = true := by
  decide +kernel

theorem test_frameStep_bad_interface :
    after (execFrameStep (offered echoWord 3)) (fun t =>
      t.faultCause == .badIface && t.runState == .halted && t.dsm == .sHalt) = true := by
  decide +kernel

theorem test_frameStep_runt :
    after (execFrameStep (offered ((arpWord 1).take 41) 0)) (fun t => t.faultCause == .runtFrame) =
      true := by decide +kernel

/-- A short frame on no interface: D12's order, and that of R221 and R290 (log 30). -/
theorem test_frameStep_runt_on_no_interface :
    let s := offered (echoWord.take 13) 3
    after (execFrameStep s) (fun t => t.faultCause == .runtFrame) = true ∧
      after (execFrameStep { s with cfg := { s.cfg with admissionOrder := .ifaceFirst } }) (fun t =>
        t.faultCause == .badIface) = true := by decide +kernel

theorem test_rx_loads :
    after (execRx (offered echoWord 2)) (fun t =>
      t.f == ⟨echoWord, 2⟩ && t.dsm == .sL2 && t.rxq == []) = true := by decide +kernel

/-- A receive that waits keeps its word; with a frame offered the call returns (R261). -/
theorem test_step_receive_waits :
    after (step { loop with ops := [[0x50], [0x3A]] }) (fun t =>
        t == { loop with ops := [[0x50], [0x3A]] }) = true ∧
      after (step { offered echoWord 2 with ops := [[0x50], [0x3A]] }) (fun t =>
        t.ops == [[0x3A]] && t.dsm == .sL2) = true := by decide +kernel

/-- Section 8: an I/O error, and frames that `RX` by itself does not admit (R261, R221). -/
theorem test_rx_faults :
    after (execRx { loop with rxq := [.ioError] }) (fun t =>
      t.faultCause == .rxIo && t.runState == .halted) = true ∧
    after (execRx (offered echoWord 3)) (fun t => t.faultCause == .badIface) = true ∧
    after (execRx (offered (echoWord.take 13) 0)) (fun t => t.faultCause == .runtFrame) = true := by
  decide +kernel

theorem test_tx_trace :
    after (execTx .P { loop with p := s1 }) (fun t => t.txTrace == [s1]) = true := by decide +kernel

theorem test_tx_failure :
    after (execTx .P { loop with p := s1, txFail := [true] }) (fun t =>
      t.txTrace == [] && t.faultCause == .txIo && t.dsm == .sHalt) = true := by decide +kernel

theorem test_ifMac_row :
    after (execIfMac 1 loop) (fun t => t.ret == .mac 0x020000000101) = true := by decide +kernel

theorem test_ifIp_row :
    after (execIfIp 2 loop) (fun t => t.ret == .ip 0xC0A80201) = true := by decide +kernel

theorem test_hostLoadRoutes_ill_formed :
    after (execHostLoadRoutes (some [⟨0x0A010203, 0xFFFF0000, 0, 0⟩]) cold) (fun t =>
      t.faultCause == .loadError && t.runState == .halted && t.rt == []) = true := by decide +kernel

theorem test_hostLoadRoutes_interface :
    after (execHostLoadRoutes (some [⟨0, 0, 0, 3⟩]) cold) (fun t => t.faultCause == .loadError) =
      true := by decide +kernel

theorem test_hostStart_after_load :
    after (execHostStart { cold with loaded := true }) (fun t => t.runState == .running) = true ∧
      refusal (execHostStart cold) = some .hostOpNotAllowed := by decide +kernel

theorem test_hostReset_empties :
    after (execHostReset { loop with arpc := [entryN2], pq := [queuedA] }) (fun t =>
      t.arpc == [] && t.pq == [] && t.rt == [] && t.runState == .unloaded && t.iftab == ift) =
      true := by decide +kernel

/-! ### States and operands that meet the hypotheses of the statements, clause by clause -/

/-- Interface 0 of the vectors. -/
def row0 : IfRow := ⟨0x020000000100, 0xC0A80001⟩

/-- Interface 2 of the vectors. -/
def row2 : IfRow := ⟨0x020000000102, 0xC0A80201⟩

/-- A machine whose frames are at most 42 bytes, the least R9 allows. -/
def tight : State := { loop with cfg := { loop.cfg with maxFrame := 42 } }

/-- `LOCAL_SCOPE = any_interface`. -/
def anyScope : State := { loop with cfg := { loop.cfg with localScope := .anyInterface } }

/-- The coming transmission fails. -/
def failing : State := { loop with txFail := [true] }

/-- Both stores are full with one entry. -/
def full : State :=
  { loop with
    arpc := [entryN2], pq := [queuedA],
    cfg := { loop.cfg with arpcDepth := some 1, pqDepth := some 1 } }

/-- Frame A with no byte after the ICMP header, the given TTL and a fresh checksum. -/
def plain (ttl : Byte) : Ipv4Frame := withIpSum { frameA with ttl := ttl, tail := [] }

/-- A frame A' to an address with no Route. -/
def lostA : Ipv4Frame := { frameA with ipDst := 0x0B000000 }

/-- A frame A' that waits for another next hop. -/
def otherA : Ipv4Frame := { frameA with ipDst := 0x0A010204 }

/-- Pending entries of all three cases for N2. -/
def entries : List Pending := [(lostA, 0), (frameA, 0), (otherA, 2)]

/-- N2's address is known and the entries are queued. -/
def draining : State := { loop with arpc := [entryN2], pq := entries.map pendingFrame }

/-- A reply from N2. -/
def replyN2 : ArpFrame := { arpH0 with sha := 0x02000000cc02, spa := 0xC0A80202 }

theorem test_meets_DecodeInvertsEncode :
    (Instr.arpReqEmit 0xFFFFFFFF (2 ^ 32 - 1)).wellFormed = true ∧
      (Instr.ipv4EchoReq echoH0).wellFormed = true := by decide +kernel

theorem test_meets_FrameDecodeLosesNoBit :
    decodeFrame echoWord = .ok (.ipv4EchoReq echoH0) := by decide +kernel

theorem test_meets_OperationDecodeLosesNoBit :
    decodeOp [0x53, 0xff, 0xff, 0xff, 0xff] = .ok (.ifIp (2 ^ 32 - 1)) := by decide +kernel

theorem test_meets_FramesAreClassifiedInOrder :
    42 ≤ (arpWord 1).length ∧ ((arpWord 1).take 41).length < 42 ∧
      14 ≤ ([0, 0, 0, 0, 0, 0, 0, 0, 0, 0, 0, 0, 0x86, 0xdd] : List Byte).length := by decide

theorem test_meets_TableMasksSelectTheClass :
    42 ≤ (arpWord 2).length ∧ decodeFrame (arpWord 2) = .ok (.arpReply arpH0) := by decide +kernel

theorem test_meets_ReservedOperationCodesAreRefused :
    (0x04 : Byte) ∉ ([0x00, 0x03, 0x0B, 0x01, 0x02, 0x10, 0x11, 0x12, 0x20, 0x30, 0x31, 0x38, 0x39,
      0x3A, 0x3B, 0x3C, 0x40, 0x41, 0x50, 0x51, 0x52, 0x53, 0x60, 0x61, 0x62] : List Byte) := by
  decide

theorem test_meets_StepRunsTheOperationWord :
    loop.ops = [] ∧ ({ loop with ops := [[0x41]] } : State).ops = [0x41] :: [] ∧
      decodeOp [0x41] = .ok .frameStep ∧ decodeOp [0xff] = .bad (.reservedOp 0xff) ∧
      loop.runState = .running ∧ loop.dsm = .sRx ∧ loop.rxq = [] ∧ (offered echoWord 0).rxq ≠ [] := by
  decide +kernel

theorem test_meets_StepRunsTheReceivedFrame :
    let s : State := { tight with rxq := [.frame ⟨arpWord 1, 0⟩] }
    s.ops = [] ∧ s.runState = .running ∧ s.dsm = .sRx ∧ s.rxq = .frame ⟨arpWord 1, 0⟩ :: [] ∧
      s.iftab[0]? = some row0 ∧ 14 ≤ (arpWord 1).length ∧ (arpWord 1).length ≤ s.cfg.maxFrame ∧
      Frame.ethDst ⟨arpWord 1, 0⟩ = 0xFFFFFFFFFFFF ∧
      decodeFrame (arpWord 1) = .ok (.arpRequest arpH0) := by decide +kernel

theorem test_meets_ReceiveLoadsOneFrame :
    loop.runState = .running ∧ loop.dsm = .sRx ∧ loop.rxq = [] ∧
      (offered echoWord 0).rxq = .frame ⟨echoWord, 0⟩ :: [] ∧
      0 < loop.iftab.length ∧ 14 ≤ echoWord.length ∧ echoWord.length ≤ loop.cfg.maxFrame ∧
      ({ loop with rxq := [.ioError] } : State).rxq = .ioError :: [] ∧
      ({ loop with dsm := .sIpTtl } : State).dsm ≠ .sRx ∧
      ({ loop with dsm := .sIpTtl } : State).dsm ≠ .sL2 := by decide +kernel

theorem test_meets_AdmissionTestsInOrder :
    tight.runState = .running ∧ tight.dsm = .sRx ∧ tight.iftab.length ≤ 3 ∧
      2 < tight.iftab.length ∧ tight.cfg.maxFrame < ((arpWord 1) ++ [0]).length ∧
      14 ≤ (arpWord 1).length ∧ (arpWord 1).length ≤ tight.cfg.maxFrame ∧
      ((arpWord 1).take 13).length < 14 ∧ ((arpWord 1).take 13).length ≤ tight.cfg.maxFrame ∧
      tight.cfg.admissionOrder = .lengthFirst ∧
      ({ tight.cfg with admissionOrder := .ifaceFirst } : Params).admissionOrder = .ifaceFirst := by
  decide +kernel

theorem test_meets_FilterComesBeforePathEntry :
    loop.iftab[0]? = some row0 ∧ 14 ≤ (echoWord.take 14).length ∧
      Frame.ethDst ⟨echoWord.take 14, 0⟩ = row0.mac ∧ Frame.ethType ⟨echoWord.take 14, 0⟩ = 0x0800 ∧
      ((arpWord 1).take 41).length < 42 ∧ Frame.ethType ⟨(arpWord 1).take 41, 0⟩ = 0x0806 ∧
      Frame.ethDst ⟨(arpWord 1).take 41, 0⟩ = 0xFFFFFFFFFFFF ∧
      Frame.ethDst ⟨2 :: (arpWord 1).drop 1, 0⟩ ≠ row0.mac ∧
      Frame.ethDst ⟨2 :: (arpWord 1).drop 1, 0⟩ ≠ 0xFFFFFFFFFFFF := by decide +kernel

theorem test_meets_StoppedEngineChangesNothing :
    cold.runState ≠ .running ∧ loop.runState ≠ .unloaded ∧
      (loop.raise .txIo).runState ≠ .running := by decide +kernel

theorem test_meets_FoldingLoopIsTheClosedForm : (0x2FFFD : Nat) ≤ 0x2FFFD ∧ 0x2FFFD % 0xFFFF = 0 := by
  decide

/-- For `CsumReturnsTheComplementedSum`, `VerifyTestsTheFoldedSum` and `IncrReturnsTheFormula`. -/
theorem test_meets_checksum_operations :
    loop.runState = .running ∧ ([] : List Byte).length % 2 = 0 ∧ ([0] : List Byte).length % 2 = 1 ∧
      (header 0 0).length % 2 = 0 := by decide +kernel

theorem test_meets_GeneratedChecksumVerifies :
    ((header 0 0).take 10).length % 2 = 0 ∧ ((header 0 0).drop 12).length % 2 = 0 := by decide

theorem test_meets_IncrementalUpdateIsRecomputation :
    let hd := header 0xb1 0xe6
    hd.length % 2 = 0 ∧ 10 + 2 ≤ hd.length ∧ 18 + 2 ≤ hd.length ∧ csumVerify hd = true ∧
      0 < (~~~(0xB1E6 : Half)).toNat + (~~~(0x0a0c : Half)).toNat + (0 : Half).toNat ∧
      (∃ b ∈ patch 10 [0, 0] (patch 18 (beBytes 2 0) hd), b ≠ 0) ∧
      BitVec.ofNat 16 (field hd 8 2) = (0x4006 : Half) ∧ 0x0200 ≤ (0x4006 : Half).toNat := by
  decide +kernel

theorem test_meets_MaskLengthOrdersMasks : 0 ≤ 32 ∧ 32 ≤ 32 ∧ maskOf 32 = 0xFFFFFFFF := by
  decide +kernel

theorem test_meets_TrieLookupIsTheScan : tableWf 3 (table ++ [⟨0, 0, 0xC0A80202, 2⟩]) = true := by
  decide +kernel

theorem test_meets_LookupWritesCurRouteOnly :
    loop.runState = .running ∧ tableWf loop.iftab.length loop.rt = true ∧
      tableWf loop.iftab.length [⟨0, 0, 0, 3⟩] = false := by decide +kernel

theorem test_meets_BuildSetsTheTable :
    cold.runState = .unloaded ∧ tableWf cold.iftab.length table = true ∧
      (∀ m, cold.cfg.maxRoutes = some m → table.length ≤ m) ∧
      tableWf cold.iftab.length [⟨1, 0, 0, 0⟩] = false := by
  refine ⟨rfl, by decide +kernel, ?_, by decide +kernel⟩
  intro m h
  exact absurd h (by decide +kernel +revert)

/-- For `SynthMeetsItsPostcondition`, `SynthRewritesEveryField` and `SynthFormsHaveFixedTypes`. -/
theorem test_meets_synth_forms :
    loop.runState = .running ∧ 42 ≤ (arpWord 1).length ∧ Frame.ethType ⟨arpWord 1, 0⟩ ≠ 0x0800 ∧
      42 ≤ (({ loop with g := ⟨encodeIpv4 (plain 0), 0⟩ } : State).frame .G).buf.length ∧
      (({ loop with g := ⟨encodeIpv4 (plain 0), 0⟩ } : State).frame .G).ethType = 0x0800 ∧
      ((loop.frame .F).buf.length < 42) := by decide +kernel

theorem test_meets_CacheInsertFollowsThePolicy :
    full.arpc = [] ++ entryN2 :: [] ∧ entryN2.ip = 0xC0A80202 ∧
      (∀ q ∈ full.arpc, q.ip ≠ 0xC0A80102) ∧ full.cfg.arpcDepth = some 1 ∧ 1 ≤ full.arpc.length ∧
      full.cfg.arpDupPolicy = .keepFirst ∧
      (∀ d, loop.cfg.arpcDepth = some d → loop.arpc.length < d) :=
  ⟨rfl, rfl, by decide +kernel, rfl, by decide +kernel, rfl, fun d h => nomatch h⟩

theorem test_meets_QueueIsFirstInFirstOut :
    full.runState = .running ∧ full.cfg.pqDepth = some 1 ∧ 1 ≤ full.pq.length ∧
      full.pq = queuedA :: [] ∧ loop.pq = [] ∧
      (∀ d, loop.cfg.pqDepth = some d → loop.pq.length < d) :=
  ⟨rfl, rfl, by decide +kernel, rfl, rfl, fun d h => nomatch h⟩

theorem test_meets_ArpRequestIsAnsweredInPlace :
    tight.iftab[tight.f.iface]? = some row0 ∧ tight.ownAddress row0 arpH0.tpa ∧
      anyScope.ownAddress row0 0xC0A80201 ∧ ¬ tight.ownAddress row0 0xC0A80201 ∧
      42 + arpH0.pad.length ≤ tight.cfg.maxFrame ∧ tight.txFails = false ∧ failing.txFails = true := by
  decide +kernel

theorem test_meets_DrainDisposesOfEachEntryOnce :
    draining.runState = .running ∧ tableWf draining.iftab.length draining.rt = true ∧
      draining.pq = entries.map pendingFrame ∧ draining.drainable entries = true ∧
      atMost draining.pq.length draining.cfg.pqDepth = true ∧ draining.txNeverFails = true ∧
      entries.map (draining.drainCase 0xC0A80202) = [.unreach, .tx, .keep] ∧
      (queuedA.buf.take 33).length < 34 := by decide +kernel

theorem test_meets_FailedDrainStaysPartlyDone :
    let s : State := { draining with txFail := [false, true, false] }
    tableWf s.iftab.length s.rt = true ∧
      s.pq = ([(lostA, 0)] ++ (frameA, 0) :: [(otherA, 2)]).map pendingFrame ∧
      s.drainable entries = true ∧ atMost s.pq.length s.cfg.pqDepth = true ∧
      s.drainSends 0xC0A80202 (frameA, 0) ≠ none ∧
      s.txFail = List.replicate (([(lostA, 0)] : List Pending).filterMap
        (s.drainSends 0xC0A80202)).length false ++ true :: [false] := by decide +kernel

theorem test_meets_ArpReplyLearnsAndReleases :
    let s : State := { draining with arpc := [] }
    s.runState = .running ∧ tableWf s.iftab.length s.rt = true ∧ s.pq = entries.map pendingFrame ∧
      s.drainable entries = true ∧ atMost s.pq.length s.cfg.pqDepth = true ∧
      s.txNeverFails = true ∧ below s.arpc.length s.cfg.arpcDepth = true ∧
      arpLookup full.arpc 0xC0A80102 = none ∧ below full.arpc.length full.cfg.arpcDepth = false := by
  decide +kernel

theorem test_meets_PendingFrameLeavesAsOnTheHitPath :
    let h := plain 2
    tight.runState = .running ∧ tight.iftab[tight.f.iface]? = some row0 ∧
      tableWf tight.iftab.length tight.rt = true ∧ 42 + h.tail.length ≤ tight.cfg.maxFrame ∧
      h.ipDst ≠ row0.ip ∧ ¬ tight.ownAddress row0 h.ipDst ∧ csumVerify (ipv4Header h) = true ∧
      2 ≤ h.ttl.toNat ∧ lpmLookup tight.rt h.ipDst = some ⟨0x0A000000, 0xFF000000, 0xC0A80202, 2⟩ ∧
      arpLookup tight.arpc 0xC0A80202 = none ∧ tight.pq = [] ∧ tight.txFail = [] ∧
      below tight.pq.length tight.cfg.pqDepth = true ∧
      below tight.arpc.length tight.cfg.arpcDepth = true ∧ replyN2.spa = 0xC0A80202 ∧
      tight.cfg.drainRewriteSrc = true := by
  decide +kernel

/-- The same hypotheses with `DRAIN_REWRITE_SRC` false. -/
theorem test_meets_PendingFrame_keepsSource :
    let s : State := { tight with cfg := { tight.cfg with drainRewriteSrc := false } }
    let h := plain 2
    s.runState = .running ∧ s.iftab[s.f.iface]? = some row0 ∧
      tableWf s.iftab.length s.rt = true ∧ 42 + h.tail.length ≤ s.cfg.maxFrame ∧
      h.ipDst ≠ row0.ip ∧ ¬ s.ownAddress row0 h.ipDst ∧ csumVerify (ipv4Header h) = true ∧
      2 ≤ h.ttl.toNat ∧ lpmLookup s.rt h.ipDst = some ⟨0x0A000000, 0xFF000000, 0xC0A80202, 2⟩ ∧
      arpLookup s.arpc 0xC0A80202 = none ∧ s.pq = [] ∧ s.txFail = [] ∧
      below s.pq.length s.cfg.pqDepth = true ∧ below s.arpc.length s.cfg.arpcDepth = true ∧
      replyN2.spa = 0xC0A80202 ∧ s.cfg.drainRewriteSrc = false := by
  decide +kernel

theorem test_meets_RequestIsBuiltInG :
    tight.runState = .running ∧ tight.iftab[2]? = some row2 ∧ 42 ≤ tight.cfg.maxFrame ∧
      tight.txFails = false ∧ failing.txFails = true ∧ tight.iftab.length ≤ 3 := by decide +kernel

theorem test_meets_ArpReplyReadsSenderFieldsOnly :
    replyN2.spa = ({ replyN2 with tpa := 0, pad := [7] } : ArpFrame).spa ∧
      replyN2.sha = ({ replyN2 with tpa := 0, pad := [7] } : ArpFrame).sha := by decide

theorem test_meets_EchoRequestIsAnswered :
    tight.runState = .running ∧ tight.iftab[tight.f.iface]? = some row0 ∧ 42 ≤ tight.cfg.maxFrame ∧
      echoH0.ipDst = row0.ip ∧ echoH0.proto = 1 ∧ echoH0.icmpType = 8 ∧ tight.txFails = false ∧
      failing.txFails = true := by decide +kernel

theorem test_meets_LocalAndCorruptPacketsAreDropped :
    loop.iftab[loop.f.iface]? = some row0 ∧
      ¬(frameA.ipDst = row0.ip ∧ frameA.proto = 1 ∧ frameA.icmpType = 8) ∧
      loop.ownAddress row0 0xC0A80001 ∧ anyScope.ownAddress row0 0xC0A80101 ∧
      ¬ loop.ownAddress row0 frameA.ipDst ∧
      csumVerify (ipv4Header { frameA with csum := 0xac1c }) = false := by decide +kernel

theorem test_meets_ExpiredPacketGetsTimeExceeded :
    tight.iftab[tight.f.iface]? = some row0 ∧ 42 ≤ tight.cfg.maxFrame ∧ (plain 1).ipDst ≠ row0.ip ∧
      ¬ tight.ownAddress row0 (plain 1).ipDst ∧ csumVerify (ipv4Header (plain 1)) = true ∧
      csumVerify (ipv4Header (plain 0)) = true ∧ (plain 1).ttl.toNat ≤ 1 ∧ tight.txFails = false ∧
      failing.txFails = true := by decide +kernel

theorem test_meets_UnroutablePacketGetsUnreachable :
    let h := withIpSum { plain 2 with ipDst := 0x0B000000 }
    tight.iftab[tight.f.iface]? = some row0 ∧ 42 ≤ tight.cfg.maxFrame ∧
      tableWf tight.iftab.length tight.rt = true ∧ h.ipDst ≠ row0.ip ∧
      ¬ tight.ownAddress row0 h.ipDst ∧ csumVerify (ipv4Header h) = true ∧ 2 ≤ h.ttl.toNat ∧
      lpmLookup tight.rt h.ipDst = none ∧ tight.txFails = false ∧ failing.txFails = true := by
  decide +kernel

theorem test_meets_RoutedPacketIsForwarded :
    let s : State := { tight with arpc := [entryN2] }
    let h := plain 2
    s.iftab[s.f.iface]? = some row0 ∧ 42 + h.tail.length ≤ s.cfg.maxFrame ∧
      tableWf s.iftab.length s.rt = true ∧ h.ipDst ≠ row0.ip ∧ ¬ s.ownAddress row0 h.ipDst ∧
      csumVerify (ipv4Header h) = true ∧ 2 ≤ h.ttl.toNat ∧
      lpmLookup s.rt h.ipDst = some ⟨0x0A000000, 0xFF000000, 0xC0A80202, 2⟩ ∧
      arpLookup s.arpc 0xC0A80202 = some 0x02000000cc02 ∧ s.iftab[2]? = some row2 ∧
      s.txFails = false ∧ ({ s with txFail := [true] } : State).txFails = true := by decide +kernel

theorem test_meets_UnresolvedPacketIsQueued :
    let h := plain 2
    tight.iftab[tight.f.iface]? = some row0 ∧ tableWf tight.iftab.length tight.rt = true ∧
      ¬ tight.ownAddress row0 h.ipDst ∧ csumVerify (ipv4Header h) = true ∧ 2 ≤ h.ttl.toNat ∧
      lpmLookup tight.rt h.ipDst = some ⟨0x0A000000, 0xFF000000, 0xC0A80202, 2⟩ ∧
      arpLookup tight.arpc 0xC0A80202 = none ∧ tight.iftab[2]? = some row2 ∧
      below tight.pq.length tight.cfg.pqDepth = true ∧ failing.txFails = true ∧
      below full.pq.length full.cfg.pqDepth = false := by decide +kernel

theorem test_meets_TransmitAppendsToTheTrace :
    let ready : State := { tight with f := ⟨arpWord 1, 2⟩ }
    ready.runState = .running ∧ (ready.frame .F).iface < ready.iftab.length ∧
      (ready.frame .F).buf.length ≤ ready.cfg.maxFrame ∧ 14 ≤ (ready.frame .F).buf.length ∧
      ready.txFails = false ∧ failing.txFails = true ∧ (loop.frame .P).buf.length < 14 := by
  decide +kernel

theorem test_meets_FailedTransmissionHalts :
    failing.txFail = true :: [] ∧
      after (exec (.ipv4 (plain 1)) failing) (fun t => t.faultCause == .txIo) = true := by
  decide +kernel

theorem test_meets_InterfaceReadsArePure :
    loop.runState = .running ∧ loop.iftab[2]? = some row2 ∧ loop.iftab.length ≤ 3 ∧
      faultOf (execIfMac 3 loop) = some .noSuchInterface := by decide +kernel

theorem test_meets_FilterAcceptsOwnAndBroadcast :
    loop.iftab[loop.f.iface]? = some row0 ∧ loop.f.buf.length < 6 ∧
      echoWord = beBytes 6 (0x020000000100 : Mac).toNat ++ echoWord.drop 6 ∧
      ({ loop with f := ⟨echoWord, 3⟩ } : State).iftab.length ≤ 3 := by decide +kernel

theorem test_meets_LoadRoutesChecksTheTable :
    let small : State := { cold with cfg := { cold.cfg with maxRoutes := some 3 } }
    small.runState = .unloaded ∧ tableWf small.iftab.length (table.take 3) = true ∧
      (∃ m, small.cfg.maxRoutes = some m ∧ (table.take 3).length ≤ m ∧ ¬ table.length ≤ m) := by
  refine ⟨rfl, by decide +kernel, 3, rfl, by decide, by decide⟩

/-- For `CacheLookupFindsTheFirst` and `ReservedFramesAreDropped`. -/
theorem test_meets_running : full.runState = .running ∧ full.arpc.length = 1 := by decide +kernel

theorem test_meets_StartNeedsALoadedTable :
    cold.runState = .unloaded ∧ cold.loaded = false ∧
      ({ cold with loaded := true } : State).loaded = true := by decide +kernel

theorem test_meets_ConfigurationIsConstant :
    loop.runState = .running ∧ Instr.rx ≠ .hostReset ∧
      after (exec .rx (offered echoWord 0)) (fun t => t.rt == table) = true := by decide +kernel

theorem test_meets_EveryFrameEndsInOneAction :
    (offered echoWord 0).runState = .running ∧
      after (exec .frameStep (offered echoWord 0)) (fun t => t.outcomes.length == 1) = true ∧
      after (exec .frameStep { loop with f := ⟨echoWord, 0⟩, dsm := .sL2 }) (fun t =>
        t.outcomes.length == 1) = true := by decide +kernel

/-- A running state with a pending entry, on which the invariants hold and a reply arrives. -/
def waiting : State :=
  { loop with pq := [queuedA], rxq := [.frame ⟨encodeArp 2 { replyN2 with dst := row2.mac }, 2⟩] }

/-- For `TablesStayInOrder`, `StatusStaysConsistent`, `EngineNeverStopsAndKeepsItsInvariant` and
`DispatchTraceStaysLegal`. -/
theorem test_meets_invariants :
    waiting.tablesOk = true ∧ waiting.statusOk = true ∧ waiting.engineOk = true ∧
      waiting.traceOk = true ∧ waiting.ops = [] ∧
      after (step waiting) (fun t => t.pq == [] && t.arpc == [entryN2] && t.engineOk && t.traceOk) =
        true := by decide +kernel

/-- The second state is full: no room is asked for a frame that neither enqueues nor inserts a key. -/
theorem test_meets_PremisesRuleOutFaults :
    let fr : Frame := ⟨encodeArp 2 { replyN2 with dst := row2.mac }, 2⟩
    let packed : State := { offered (udpWord 0x40 0xad 0x1c) 0 with
      arpc := [entryN2], cfg := { loop.cfg with arpcDepth := some 1, pqDepth := some 0 } }
    (waiting.runState = .running ∧ waiting.engineOk = true ∧ waiting.frameOk fr = true ∧
      waiting.txNeverFails = true ∧ waiting.hasRoomFor fr = true ∧ waiting.insertsNewKey fr = true) ∧
    (packed.engineOk = true ∧ packed.frameOk ⟨udpWord 0x40 0xad 0x1c, 0⟩ = true ∧
      packed.hasRoomFor ⟨udpWord 0x40 0xad 0x1c, 0⟩ = true ∧
      after (exec .frameStep packed) (fun t => t.outcomes == [.forwarded] && t.engineOk) = true) ∧
    loop.enqueues ⟨udpWord 0x40 0xad 0x1c, 0⟩ = true := by decide +kernel

theorem test_meets_StartUpMeetsTheInvariants :
    loop.ops = [] ∧ 42 ≤ loop.cfg.maxFrame ∧
      after (exec .hostReset loop) (fun a =>
        after (exec (.hostLoadRoutes (some table)) a) (fun b =>
          after (exec .hostStart b) (fun c => c.engineOk && c.rt == table))) = true := by
  decide +kernel

end Sys2Proof.Tests
end

/-! ## What a step can do (family 10_state)

SUPPORT. Every part of a step either keeps the engine running and its configuration as it is, or raises
a fault on such a state. This is said once for each operation, in any state whatever, and the invariants
over all states and instructions are read off it. -/

namespace Sys2Proof.Machine

/-! ### Tables (R34, R36) -/

theorem tablesOk_iff (s : State) : s.tablesOk = true ↔
    tableWf s.nIf s.rt = true ∧ atMost s.rt.length s.cfg.maxRoutes = true ∧
      (s.arpc.map ArpEntry.ip).Nodup ∧ atMost s.arpc.length s.cfg.arpcDepth = true ∧
      atMost s.pq.length s.cfg.pqDepth = true := by
  simp [State.tablesOk, and_assoc]

/-- A miss is an absent key (R180). -/
theorem arpLookup_eq_none_iff (c : List ArpEntry) (a : Ip) :
    arpLookup c a = none ↔ a ∉ c.map ArpEntry.ip := by
  induction c with
  | nil => simp [arpLookup]
  | cons e rest ih =>
    by_cases h : e.ip = a
    · simp [arpLookup, h]
    · simp [arpLookup, h, ih, Ne.symm h]

/-- Overwriting an entry changes no key (R182). -/
theorem arpReplace_keys (c : List ArpEntry) (a : Ip) (m : Mac) :
    (arpReplace c a m).map ArpEntry.ip = c.map ArpEntry.ip := by
  induction c with
  | nil => rfl
  | cons e rest ih =>
    rw [arpReplace]
    split
    · rfl
    · rw [List.map_cons, ih, List.map_cons]

/-- An insert with room keeps the tables in order: it adds a key only after a miss (R34, R182). -/
theorem tablesOk_learns {s : State} (a : Ip) (m : Mac)
    (room : arpLookup s.arpc a ≠ none ∨ below s.arpc.length s.cfg.arpcDepth = true)
    (h : s.tablesOk = true) : ({ s with arpc := s.learns a m } : State).tablesOk = true := by
  rw [tablesOk_iff] at h ⊢
  obtain ⟨wf, rt, keys, arpc, pq⟩ := h
  suffices ((s.learns a m).map ArpEntry.ip).Nodup ∧
      atMost (s.learns a m).length s.cfg.arpcDepth = true from ⟨wf, rt, this.1, this.2, pq⟩
  unfold State.learns
  cases hit : arpLookup s.arpc a with
  | none =>
    have free : below s.arpc.length s.cfg.arpcDepth = true := by simpa [hit] using room
    refine ⟨?_, by simpa using atMost_of_below free⟩
    rw [List.map_append, List.nodup_append]
    have new := (arpLookup_eq_none_iff _ _).mp hit
    refine ⟨keys, by simp, ?_⟩
    rintro x hx y hy rfl
    obtain rfl : x = a := by simpa using hy
    exact new hx
  | some _ =>
    cases s.cfg.arpDupPolicy with
    | keepFirst => exact ⟨keys, arpc⟩
    | overwrite =>
      have len : (arpReplace s.arpc a m).length = s.arpc.length := by
        simpa using congrArg List.length (arpReplace_keys s.arpc a m)
      exact ⟨by rwa [arpReplace_keys], by rwa [len]⟩

theorem tablesOk_enqueue {s : State} (fr : Frame) (room : below s.pq.length s.cfg.pqDepth = true)
    (h : s.tablesOk = true) : ({ s with pq := s.pq ++ [fr] } : State).tablesOk = true := by
  rw [tablesOk_iff] at h ⊢
  obtain ⟨wf, rt, keys, arpc, -⟩ := h
  exact ⟨wf, rt, keys, arpc, by simpa using atMost_of_below room⟩

theorem tablesOk_dequeue {s : State} {q : Frame} {rest : List Frame} (e : s.pq = q :: rest)
    (h : s.tablesOk = true) : ({ s with pq := rest, p := q } : State).tablesOk = true := by
  rw [tablesOk_iff] at h ⊢
  obtain ⟨wf, rt, keys, arpc, pq⟩ := h
  exact ⟨wf, rt, keys, arpc, atMost_mono (by simp [e]) pq⟩

/-! ### Dispatch traces (R27) -/

@[simp] theorem Dsm.edge_sHalt (d : Dsm) : d.edge .sHalt = true := by cases d <;> rfl

theorem legalTrace_append {l : List Dsm} {a d : Dsm} (legal : legalTrace l = true)
    (last : l.getLast? = some a) (edge : a.edge d = true) : legalTrace (l ++ [d]) = true := by
  induction l with
  | nil => rfl
  | cons b rest ih =>
    cases rest with
    | nil =>
      obtain rfl : b = a := by simpa using last
      simp [legalTrace, edge]
    | cons c rest =>
      simp only [legalTrace, Bool.and_eq_true, List.cons_append] at legal ih ⊢
      exact ⟨legal.1, ih legal.2 (by simpa using last)⟩

/-- Entering a state by an edge keeps the trace legal. -/
theorem traceOk_entered {s t : State} {d : Dsm} (h : s.traceOk = true) (edge : s.dsm.edge d = true)
    (trace : t.dsmTrace = s.dsmTrace ++ [d]) (dsm : t.dsm = d) : t.traceOk = true := by
  simp only [State.traceOk, Bool.and_eq_true, beq_iff_eq] at h ⊢
  rw [trace, dsm]
  exact ⟨legalTrace_append h.1 h.2 edge, by simp⟩

/-! ### What every part of a step keeps -/

/-- The state with everything blanked but what no part of a step writes while the engine runs on (R31,
R37, R288). -/
def State.fixed (s : State) : State :=
  { State.reset with
    cfg := s.cfg, iftab := s.iftab, rt := s.rt, loaded := s.loaded, runState := s.runState,
    faultCause := s.faultCause, ops := s.ops }

/-- The same with all else that the invariants over every state read. -/
def State.governed (s : State) : State :=
  { s.fixed with arpc := s.arpc, pq := s.pq, dsm := s.dsm, dsmTrace := s.dsmTrace }

/-- `t` comes of `s` without a fault. `legal` tells whether the dispatch states entered on the way are
claimed to follow R27: an operation run by itself may be called in any of them (log 12). -/
structure State.Keeps (legal : Prop) (s t : State) : Prop where
  fixed : t.fixed = s.fixed
  tables : s.tablesOk = true → t.tablesOk = true
  halt : t.dsm = .sHalt → s.dsm = .sHalt
  trace : legal → s.traceOk = true → t.traceOk = true

/-- `t` comes of `s` without a fault, or by `raise Fault` on a state that does (R288). -/
def State.Ends (legal : Prop) (s t : State) : Prop :=
  s.Keeps legal t ∨ ∃ u c, s.Keeps legal u ∧ c ≠ FaultCause.none ∧ t = u.raise c

/-- A part of a step that starts in `s` and, if it goes on, leaves `dsm` at `d`. -/
def Flow.Does (legal : Prop) (s : State) (d : Dsm) : Flow → Prop
  | .go u => s.Keeps legal u ∧ u.dsm = d
  | .ended u => s.Ends legal u
  | .fault _ | .refused _ => True

/-- A meaning whose next state, if there is one, comes of `s`. -/
def Out.Does (legal : Prop) (s : State) : Out → Prop
  | .next t => s.Ends legal t
  | .fault _ | .refused _ => True

/-- The same of a meaning that acts only while the engine runs (R295). -/
def Out.Acts (legal : Prop) (s : State) : Out → Prop
  | .next t => t = s ∨ s.runState = .running ∧ s.Ends legal t
  | .fault _ | .refused _ => True

section Keeping

variable {L : Prop} {s t u : State} {d e : Dsm}

/-- A change of what no invariant reads. -/
theorem State.Keeps.of_governed (h : t.governed = s.governed) : s.Keeps L t := by
  have cfg : t.cfg = s.cfg := (congrArg State.cfg h :)
  have iftab : t.iftab = s.iftab := (congrArg State.iftab h :)
  have rt : t.rt = s.rt := (congrArg State.rt h :)
  have arpc : t.arpc = s.arpc := (congrArg State.arpc h :)
  have pq : t.pq = s.pq := (congrArg State.pq h :)
  have dsm : t.dsm = s.dsm := (congrArg State.dsm h :)
  have trace : t.dsmTrace = s.dsmTrace := (congrArg State.dsmTrace h :)
  have fixed : t.fixed = s.fixed := (congrArg State.fixed h :)
  refine ⟨fixed, fun h => ?_, fun h => dsm ▸ h, fun _ h => ?_⟩
  · simpa only [State.tablesOk, State.nIf, cfg, iftab, rt, arpc, pq] using h
  · simpa only [State.traceOk, dsm, trace] using h

theorem State.Keeps.refl (s : State) : s.Keeps L s := .of_governed rfl

theorem State.Keeps.trans (h : s.Keeps L t) (h' : t.Keeps L u) : s.Keeps L u :=
  ⟨h'.fixed.trans h.fixed, h'.tables ∘ h.tables, h.halt ∘ h'.halt,
    fun l x => h'.trace l (h.trace l x)⟩

theorem State.Keeps.enter (ne : d ≠ .sHalt) (edge : L → s.dsm.edge d = true) :
    s.Keeps L (s.enter d) :=
  ⟨rfl, id, fun h => absurd h ne, fun l h => traceOk_entered h (edge l) rfl rfl⟩

theorem State.Keeps.finish (o : OutcomeCode) (edge : L → s.dsm.edge .sRx = true) :
    s.Keeps L (s.finish o) :=
  ⟨rfl, id, nofun, fun l h => traceOk_entered h (edge l) rfl rfl⟩

/-- Entering a state from one that is known, if legality is claimed. -/
theorem State.Keeps.enterFrom (hd : L → s.dsm = e) (edge : e.edge d = true) (ne : d ≠ .sHalt) :
    s.Keeps L (s.enter d) := .enter ne fun l => (hd l).symm ▸ edge

theorem State.Keeps.finishFrom (o : OutcomeCode) (hd : L → s.dsm = e) (edge : e.edge .sRx = true) :
    s.Keeps L (s.finish o) := .finish o fun l => (hd l).symm ▸ edge

theorem State.Ends.raise {c : FaultCause} (h : s.Keeps L u) (hc : c ≠ .none) :
    s.Ends L (u.raise c) := .inr ⟨u, c, h, hc, rfl⟩

theorem State.Ends.trans (h : s.Keeps L t) (h' : t.Ends L u) : s.Ends L u := by
  obtain h' | ⟨v, c, h', hc, rfl⟩ := h'
  · exact .inl (h.trans h')
  · exact .raise (h.trans h') hc

/-- What is kept however the step ends: only the status may change. -/
theorem State.Ends.config (h : s.Ends L t) :
    t.cfg = s.cfg ∧ t.iftab = s.iftab ∧ t.rt = s.rt ∧ t.ops = s.ops := by
  have of : ∀ {v : State}, s.Keeps L v →
      v.cfg = s.cfg ∧ v.iftab = s.iftab ∧ v.rt = s.rt ∧ v.ops = s.ops := by
    intro v k
    exact ⟨(congrArg State.cfg k.fixed :), (congrArg State.iftab k.fixed :),
      (congrArg State.rt k.fixed :), (congrArg State.ops k.fixed :)⟩
  obtain k | ⟨v, c, k, -, rfl⟩ := h
  · exact of k
  · exact (of k :)

theorem State.Ends.tables (h : s.Ends L t) (ok : s.tablesOk = true) : t.tablesOk = true := by
  obtain k | ⟨v, c, k, -, rfl⟩ := h
  · exact k.tables ok
  · exact k.tables ok

theorem State.Ends.trace (h : s.Ends L t) (l : L) (ok : s.traceOk = true) : t.traceOk = true := by
  obtain k | ⟨v, c, k, -, rfl⟩ := h
  · exact k.trace l ok
  · exact traceOk_entered (k.trace l ok) (Dsm.edge_sHalt _) rfl rfl

theorem statusOk_running_iff (run : s.runState = .running) :
    s.statusOk = true ↔ s.faultCause = .none ∧ s.dsm ≠ .sHalt ∧ s.loaded = true := by
  have off : (RunState.running == .halted) = false := rfl
  simp [State.statusOk, run, off, and_assoc]

theorem statusOk_unloaded_iff (un : s.runState = .unloaded) :
    s.statusOk = true ↔ s.faultCause = .none ∧ s.dsm ≠ .sHalt := by
  have off : (RunState.unloaded == .halted) = false := rfl
  simp [State.statusOk, un, off]

theorem statusOk_raise (s : State) {c : FaultCause} (hc : c ≠ .none) :
    (s.raise c).statusOk = true := by
  simp [State.statusOk, hc]

/-- A running engine stays consistent, since only `raise` enters `S_HALT` (R29). -/
theorem State.Ends.status (h : s.Ends L t) (run : s.runState = .running) (ok : s.statusOk = true) :
    t.statusOk = true := by
  obtain k | ⟨v, c, -, hc, rfl⟩ := h
  · have loaded : t.loaded = s.loaded := (congrArg State.loaded k.fixed :)
    have runState : t.runState = s.runState := (congrArg State.runState k.fixed :)
    have cause : t.faultCause = s.faultCause := (congrArg State.faultCause k.fixed :)
    rw [statusOk_running_iff run] at ok
    rw [statusOk_running_iff (runState.trans run), cause, loaded]
    obtain ⟨hcause, awake, hloaded⟩ := ok
    exact ⟨hcause, fun x => awake (k.halt x), hloaded⟩
  · exact statusOk_raise v hc

/-! ### Sequencing -/

variable {x : Flow} {k : State → Flow}

theorem Flow.Does.after (hx : x.Does L u d) (h : s.Keeps L u) : x.Does L s d := by
  cases x with
  | go v => exact ⟨h.trans hx.1, hx.2⟩
  | ended v => exact State.Ends.trans h hx
  | fault r => trivial
  | refused r => trivial

theorem Flow.Does.go (h : s.Keeps L u) (hd : u.dsm = d) : (Flow.go u).Does L s d := ⟨h, hd⟩

theorem Flow.Does.of_dsm (hx : x.Does L s d) (h : d = e) : x.Does L s e := h ▸ hx

theorem Flow.Does.andThen (hx : x.Does L s d) (hk : ∀ u, u.dsm = d → (k u).Does L u e) :
    (x.andThen k).Does L s e := by
  cases x with
  | go u => exact (hk u hx.2).after hx.1
  | ended u => exact hx
  | fault r => trivial
  | refused r => trivial

theorem Flow.Does.thenOut {k : State → Out} (hx : x.Does L s d)
    (hk : ∀ u, u.dsm = d → (k u).Does L u) : Out.Does L s (x.thenOut k) := by
  cases x with
  | go u =>
    have hu := hk u hx.2
    rw [Flow.thenOut_go]
    cases hku : k u with
    | next v => rw [hku] at hu; exact State.Ends.trans hx.1 hu
    | fault r => trivial
    | refused r => trivial
  | ended u => exact hx
  | fault r => trivial
  | refused r => trivial

theorem Flow.Does.out (hx : x.Does L s d) : Out.Does L s x.out :=
  hx.thenOut fun u _ => .inl (.refl u)

theorem Out.Does.whenRunning {o : Out} (h : o.Does L s) : Out.Acts L s (whenRunning s o) := by
  by_cases run : s.runState = .running
  · rw [whenRunning_running s o run]
    cases o with
    | next t => exact .inr ⟨run, h⟩
    | fault r => trivial
    | refused r => trivial
  · rw [whenRunning_not_running s o run]
    exact .inl rfl

theorem Out.Acts.does {o : Out} (h : o.Acts L s) : o.Does L s := by
  cases o with
  | next t =>
    obtain rfl | ⟨-, h⟩ := h
    · exact .inl (.refl t)
    · exact h
  | fault r => trivial
  | refused r => trivial

/-- What is claimed of the dispatch states may be given up. -/
theorem State.Keeps.mono {L' : Prop} (h : s.Keeps L t) (l : L' → L) : s.Keeps L' t :=
  ⟨h.fixed, h.tables, h.halt, fun x => h.trace (l x)⟩

theorem Out.Acts.mono {L' : Prop} {o : Out} (h : o.Acts L s) (l : L' → L) : o.Acts L' s := by
  cases o with
  | next t =>
    obtain rfl | ⟨run, k | ⟨v, c, k, hc, rfl⟩⟩ := h
    · exact .inl rfl
    · exact .inr ⟨run, .inl (k.mono l)⟩
    · exact .inr ⟨run, .raise (k.mono l) hc⟩
  | fault r => trivial
  | refused r => trivial

end Keeping

end Sys2Proof.Machine

namespace Sys2Proof.Machine

/-! ### The units, the ports and the stages of a step, in any state whatever -/

section Doing

variable {L : Prop} {s : State} {d : Dsm}

theorem txFrame_does (fr : Frame) : (txFrame fr s).Does L s s.dsm := by
  obtain ⟨e, -⟩ | ⟨e, -⟩ | e := txFrame_cases s fr <;> rw [e]
  · exact ⟨.of_governed rfl, rfl⟩
  · exact State.Ends.raise (u := s.popTx) (.of_governed rfl) nofun
  · trivial

theorem lookupOp_does (a : Ip) : (lookupOp a s).Does L s s.dsm := by
  obtain e | e := lookupOp_cases s a <;> rw [e]
  · exact ⟨.of_governed rfl, rfl⟩
  · trivial

theorem synthOp_does (x : FrameReg) (t : Byte) : (synthOp x t s).Does L s s.dsm := by
  obtain ⟨y, -, e⟩ | e := synthOp_cases s x t <;> rw [e]
  · cases x <;> exact ⟨.of_governed rfl, rfl⟩
  · trivial

theorem arpInsertOp_does (a : Ip) (m : Mac) : (arpInsertOp a m s).Does L s s.dsm := by
  by_cases room : arpLookup s.arpc a ≠ none ∨ below s.arpc.length s.cfg.arpcDepth = true
  · rw [arpInsertOp_learns s a m room]
    exact ⟨⟨rfl, tablesOk_learns a m room, id, fun _ => id⟩, rfl⟩
  · simp only [not_or, not_not, Bool.not_eq_true] at room
    rw [arpInsertOp_full s a m room.1 room.2]
    exact State.Ends.raise (.refl s) nofun

theorem pqEnqOp_does (fr : Frame) : (pqEnqOp fr s).Does L s s.dsm := by
  obtain ⟨room, e⟩ | ⟨-, e⟩ := pqEnqOp_cases s fr <;> rw [e]
  · exact ⟨⟨rfl, tablesOk_enqueue fr room, id, fun _ => id⟩, rfl⟩
  · exact State.Ends.raise (.refl s) nofun

theorem pqDeqOp_does : (pqDeqOp s).Does L s s.dsm := by
  obtain ⟨-, e⟩ | ⟨q, rest, hq, e⟩ := pqDeqOp_cases s <;> rw [e]
  · trivial
  · exact ⟨⟨rfl, tablesOk_dequeue hq, id, fun _ => id⟩, rfl⟩

theorem arpReqEmitOp_does (nh : Ip) (i : Nat) : (arpReqEmitOp nh i s).Does L s s.dsm := by
  unfold arpReqEmitOp
  split
  · trivial
  · exact (txFrame_does _).after (.of_governed rfl)

/-! #### Receive, admission, filter -/

theorem admitOp_does : (admitOp s).Does L s s.dsm := by
  obtain ⟨c, hc, e⟩ | ⟨-, -, -, e⟩ := admitOp_cases s <;> rw [e]
  · exact State.Ends.raise (.refl s) hc
  · exact ⟨.refl s, rfl⟩

theorem receiveOp_does (hd : L → s.dsm = .sRx) : (receiveOp s).Does L s .sL2 := by
  have entered (fr : Frame) (rest : List RxItem) :
      s.Keeps L ({ s with rxq := rest, f := fr }.enter .sL2) :=
    .trans (t := { s with rxq := rest, f := fr }) (.of_governed rfl)
      (.enterFrom hd rfl nofun)
  obtain ⟨-, e⟩ | ⟨rest, -, e⟩ | ⟨fr, rest, c, -, hc, e⟩ | ⟨fr, rest, -, -, -, -, e⟩ :=
    receiveOp_cases s <;> rw [e]
  · exact .inl (.refl s)
  · exact State.Ends.raise (u := { s with rxq := rest }) (.of_governed rfl) nofun
  · exact State.Ends.raise (entered fr rest) hc
  · exact ⟨entered fr rest, rfl⟩

theorem l2Stage_does (hd : L → s.dsm = .sL2) : (l2Stage s).Does L s .sEtype := by
  obtain ⟨-, e⟩ | ⟨row, -, e | e⟩ := l2Stage_cases s <;> rw [e]
  · trivial
  · exact ⟨.enterFrom hd rfl nofun, rfl⟩
  · exact .inl (.finishFrom _ hd rfl)

/-! #### ARP (R190 to R201) -/

theorem arpRequestFlow_does (hd : L → s.dsm = .sArpOp) : (arpRequestFlow s).Does L s d := by
  have entered : s.Keeps L (s.enter .sArpReq) := .enterFrom hd rfl nofun
  unfold arpRequestFlow
  split
  · trivial
  split
  · refine ((txFrame_does _).andThen fun u hu => ?_).after (entered.trans (.of_governed rfl))
    exact .inl (.finishFrom _ (fun _ => hu) rfl)
  · exact .inl (entered.trans (.finish _ fun _ => rfl))

theorem disposeKeep_does : (disposeKeep s).Does L s s.dsm :=
  (pqEnqOp_does _).andThen fun _ hu => Flow.Does.go (.of_governed rfl) hu

theorem disposeUnreach_does : (disposeUnreach s).Does L s s.dsm :=
  (synthOp_does _ _).andThen fun _ hu => (txFrame_does _).andThen fun _ hv =>
    Flow.Does.go (.of_governed rfl) (hv.trans hu)

theorem disposeRelease_does (r : Route) (mac : Mac) : (disposeRelease r mac s).Does L s s.dsm := by
  unfold disposeRelease
  split
  · trivial
  · refine ((txFrame_does _).andThen fun u hu => ?_).after (.of_governed rfl)
    exact Flow.Does.go (.of_governed rfl) hu

theorem disposeRouted_does (r : Route) : (disposeRouted r s).Does L s s.dsm := by
  refine Flow.Does.after (u := { s with curMac := arpLookup s.arpc s.drainKey }) ?_ (.of_governed rfl)
  rw [disposeRouted_eq]
  split
  · split
    · exact (disposeRelease_does _ _).after (.of_governed rfl)
    · exact disposeKeep_does.after (.of_governed rfl)
  · exact disposeKeep_does.after (.of_governed rfl)

theorem disposeOp_does : (disposeOp s).Does L s s.dsm := by
  unfold disposeOp
  split
  · trivial
  refine ((lookupOp_does _).andThen fun u hu => ?_).after (.of_governed rfl)
  split
  · exact disposeUnreach_does.of_dsm hu
  · exact (disposeRouted_does _).of_dsm hu

theorem drainEntry_does (hd : L → s.dsm = .sDrainNext) : (drainEntry s).Does L s .sDrainEntry := by
  refine Flow.Does.after ?_
    (.enterFrom (d := .sDrainEntry) hd rfl nofun)
  exact pqDeqOp_does.andThen fun u hu =>
    Flow.Does.after (u := { u with drainI := u.drainI + 1 }) (disposeOp_does.of_dsm hu) (.of_governed rfl)

theorem drainLoop_does (n : Nat) (edge : L → s.dsm.edge .sDrainNext = true) :
    (drainLoop n s).Does L s .sRx := by
  have entered : s.Keeps L (s.enter .sDrainNext) := .enter nofun edge
  have leaves : (s.enter .sDrainNext).Keeps L ((s.enter .sDrainNext).enter .sRx) :=
    .enter nofun fun _ => rfl
  induction n generalizing s with
  | zero => exact ⟨entered.trans leaves, rfl⟩
  | succ n ih =>
    refine Flow.Does.after ?_ entered
    rw [drainLoop]
    split
    · refine (drainEntry_does fun _ => rfl).andThen fun u hu => ?_
      have edge : L → u.dsm.edge .sDrainNext = true := fun _ => congrArg (Dsm.edge · _) hu
      exact ih edge (.enter nofun edge) (.enter nofun fun _ => rfl)
    · exact ⟨leaves, rfl⟩

theorem drainOp_does (key : Ip) (edge : L → s.dsm.edge .sDrainNext = true) :
    (drainOp key s).Does L s .sRx :=
  Flow.Does.after (u := { s with drainKey := key, drainN := s.pq.length, drainI := 0 })
    (drainLoop_does _ edge) (.of_governed rfl)

theorem arpReplyFlow_does (hd : L → s.dsm = .sArpOp) : (arpReplyFlow s).Does L s d := by
  refine Flow.Does.after ?_ (.enterFrom (d := .sArpLearn) hd rfl nofun)
  refine (arpInsertOp_does _ _).andThen fun u hu => ?_
  refine (drainOp_does _ fun _ => congrArg (Dsm.edge · _) hu).andThen fun v _ => ?_
  exact .inl (.of_governed rfl)

/-! #### The IPv4 path (R229 to R237) -/

theorem replyIcmp_does (t : Byte) (o : OutcomeCode) (edge : L → s.dsm.edge .sRx = true) :
    (replyIcmp t o s).Does L s d := by
  refine (synthOp_does _ _).andThen fun u hu => (txFrame_does _).andThen fun v hv => ?_
  exact .inl (.finish _ (by rw [hv, hu]; exact edge))

theorem ipForward_does (r : Route) (mac : Mac) (hd : L → s.dsm = .sIpResolve) :
    (ipForward r mac s).Does L s d := by
  unfold ipForward
  split
  · trivial
  · refine ((txFrame_does _).andThen fun u hu => ?_).after (.of_governed rfl)
    exact .inl (.finishFrom _ (fun l => hu.trans (hd l)) rfl)

theorem ipQueue_does (r : Route) (hd : L → s.dsm = .sIpResolve) : (ipQueue r s).Does L s d := by
  refine (pqEnqOp_does _).andThen fun u hu => (arpReqEmitOp_does _ _).andThen fun v hv => ?_
  exact .inl (.finishFrom _ (fun l => (hv.trans hu).trans (hd l)) rfl)

theorem ipResolve_does (r : Route) (hd : L → s.dsm = .sIpDec) : (ipResolve r s).Does L s d := by
  refine Flow.Does.after ?_ (.enterFrom (d := .sIpResolve) hd rfl nofun)
  cases h : arpLookup s.arpc r.nextHop with
  | none =>
    rw [ipResolve_miss h]
    exact (ipQueue_does r fun _ => rfl).after (.of_governed rfl)
  | some mac =>
    rw [ipResolve_hit h]
    exact (ipForward_does r mac fun _ => rfl).after (.of_governed rfl)

theorem ipDec_does (r : Route) (hd : L → s.dsm = .sIpRoute) : (ipDec r s).Does L s d := by
  refine Flow.Does.after ?_ (.enterFrom (d := .sIpDec) hd rfl nofun)
  exact (ipResolve_does r fun _ => rfl).after (.of_governed rfl)

theorem ipRoute_does (hd : L → s.dsm = .sIpTtl) : (ipRoute s).Does L s d := by
  refine Flow.Does.after ?_ (.enterFrom (d := .sIpRoute) hd rfl nofun)
  refine (lookupOp_does _).andThen fun u hu => ?_
  split
  · exact replyIcmp_does _ _ fun _ => congrArg (Dsm.edge · _) hu
  · exact ipDec_does _ fun _ => hu

theorem ipTtl_does (hd : L → s.dsm = .sIpCsum) : (ipTtl s).Does L s d := by
  have entered : s.Keeps L { s.enter .sIpTtl with curTtl := s.f.ipTtl } :=
    .trans (.enterFrom (d := .sIpTtl) hd rfl nofun) (.of_governed rfl)
  unfold ipTtl
  dsimp only
  split
  · exact (replyIcmp_does _ _ fun _ => rfl).after entered
  · exact (ipRoute_does fun _ => rfl).after entered

theorem ipCsumTest_does (hd : L → s.dsm = .sIpLocal) : (ipCsumTest s).Does L s d := by
  refine Flow.Does.after ?_ (.enterFrom (d := .sIpCsum) hd rfl nofun)
  unfold ipCsumTest
  dsimp only
  split
  · exact ipTtl_does fun _ => rfl
  · exact .inl (.finish _ fun _ => rfl)

theorem ipLocal_does (hd : L → s.dsm = .sEtype) : (ipLocal s).Does L s d := by
  have entered : s.Keeps L { s.enter .sIpLocal with curDst := s.f.ipDst } :=
    .trans (.enterFrom (d := .sIpLocal) hd rfl nofun) (.of_governed rfl)
  unfold ipLocal
  dsimp only
  split
  · trivial
  split
  · exact (replyIcmp_does _ _ fun _ => rfl).after entered
  split
  · exact .inl (entered.trans (.finish _ fun _ => rfl))
  · exact (ipCsumTest_does fun _ => rfl).after entered

end Doing

end Sys2Proof.Machine

namespace Sys2Proof.Machine

/-! ### What an instruction can do -/

section Acting

variable {L : Prop} {s : State}

/-- The frame in `F`, and `S_ARP_OP` entered (R190). -/
theorem State.Keeps.arpOp (bytes : List Byte) (hd : L → s.dsm = .sEtype) :
    s.Keeps L ((s.loadF bytes).enter .sArpOp) :=
  .trans (t := s.loadF bytes) (.of_governed rfl) (.enterFrom (e := .sEtype) hd rfl nofun)

theorem runClass_acts (i : Instr) (hd : L → s.dsm = .sEtype) : (runClass i s).Acts L s := by
  have ipv4 (h : Ipv4Frame) : (ipLocal (s.loadF (encodeIpv4 h))).Does L s .sRx :=
    Flow.Does.after (u := s.loadF (encodeIpv4 h)) (ipLocal_does hd) (.of_governed rfl)
  cases i with
  | arpRequest h =>
    refine Out.Does.whenRunning (Flow.Does.out (d := .sRx) ?_)
    exact Flow.Does.after (arpRequestFlow_does fun _ => rfl) (.arpOp _ hd)
  | arpReply h =>
    refine Out.Does.whenRunning (Flow.Does.out (d := .sRx) ?_)
    exact Flow.Does.after (arpReplyFlow_does fun _ => rfl) (.arpOp _ hd)
  | arpRsvd op h =>
    exact Out.Does.whenRunning (o := .next _) (.inl (.trans (.arpOp _ hd) (.finish _ fun _ => rfl)))
  | ipv4EchoReq h => exact (ipv4 h).out.whenRunning
  | ipv4 h => exact (ipv4 h).out.whenRunning
  | ethRsvd h =>
    exact Out.Does.whenRunning (o := .next _) (.inl (.trans (t := s.loadF (encodeEth h))
      (.of_governed rfl) (.finishFrom (e := .sEtype) _ hd rfl)))
  | _ => trivial

theorem processFrame_does (hd : L → s.dsm = .sL2) : (processFrame s).Does L s := by
  refine (l2Stage_does hd).thenOut fun u hu => ?_
  unfold dispatchFrame
  split
  · exact (runClass_acts _ fun _ => hu).does
  · exact State.Ends.raise (.refl u) nofun

theorem execFrameStep_acts : (execFrameStep s).Acts True s := by
  refine Out.Does.whenRunning ?_
  split
  next h => exact (receiveOp_does fun _ => h).thenOut fun u hu => processFrame_does fun _ => hu
  next h => exact admitOp_does.thenOut fun u hu => processFrame_does fun _ => hu.trans h
  all_goals trivial

theorem execRx_acts : (execRx s).Acts True s := by
  refine Out.Does.whenRunning ?_
  split
  next h => exact (receiveOp_does fun _ => h).out
  next => exact .inl (.refl s)

/-- A value put at the result port (log 5). -/
theorem ret_does (v : UnitResult) : Out.Does L s (.next { s with ret := v }) :=
  .inl (.of_governed rfl)

/-- The instructions that are neither the host's nor `LPM.BUILD`: they act only while the engine runs
and write no configuration (R295). -/
def isUnit : Instr → Bool
  | .lpmBuild _ | .hostLoadRoutes _ | .hostStart | .hostReset => false
  | _ => true

theorem exec_acts (i : Instr) (unit : isUnit i = true) : Out.Acts False s (exec i s) := by
  cases i with
  | arpRequest h => exact runClass_acts (.arpRequest h) nofun
  | arpReply h => exact runClass_acts (.arpReply h) nofun
  | arpRsvd op h => exact runClass_acts (.arpRsvd op h) nofun
  | ipv4EchoReq h => exact runClass_acts (.ipv4EchoReq h) nofun
  | ipv4 h => exact runClass_acts (.ipv4 h) nofun
  | ethRsvd h => exact runClass_acts (.ethRsvd h) nofun
  | icmpEchoReply => exact (synthOp_does _ _).out.whenRunning
  | icmpDestUnreach x => exact (synthOp_does _ _).out.whenRunning
  | icmpTimeExceeded => exact (synthOp_does _ _).out.whenRunning
  | icmpSynth x t => exact (synthOp_does _ _).out.whenRunning
  | lpmBuild es => cases unit
  | lpmLookup a =>
    refine Out.Does.whenRunning (Flow.Does.out (d := s.dsm) ((lookupOp_does a).andThen fun u hu => ?_))
    exact Flow.Does.go (.of_governed rfl) hu
  | csum bs =>
    refine Out.Does.whenRunning ?_
    split
    · exact ret_does _
    · trivial
  | csumVerify bs =>
    refine Out.Does.whenRunning ?_
    split
    · exact ret_does _
    · trivial
  | csumIncr hc m m' => exact (ret_does _).whenRunning
  | arpcLookup a => exact (ret_does _).whenRunning
  | arpcInsert a m => exact (arpInsertOp_does a m).out.whenRunning
  | pqEnq x => exact (pqEnqOp_does _).out.whenRunning
  | pqDeq =>
    refine Out.Does.whenRunning (Flow.Does.out (d := s.dsm) (pqDeqOp_does.andThen fun u hu => ?_))
    exact Flow.Does.go (.of_governed rfl) hu
  | pqSize => exact (ret_does _).whenRunning
  | pqDrain a => exact (drainOp_does a nofun).out.whenRunning
  | arpReqEmit nh i => exact (arpReqEmitOp_does nh i).out.whenRunning
  | l2Filter =>
    refine Out.Does.whenRunning ?_
    split
    · trivial
    · split
      · trivial
      · exact ret_does _
  | frameStep => exact execFrameStep_acts.mono nofun
  | rx => exact execRx_acts.mono nofun
  | tx x => exact (txFrame_does _).out.whenRunning
  | ifMac i =>
    refine Out.Does.whenRunning ?_
    split
    · exact ret_does _
    · trivial
  | ifIp i =>
    refine Out.Does.whenRunning ?_
    split
    · exact ret_does _
    · trivial
  | hostLoadRoutes es => cases unit
  | hostStart => cases unit
  | hostReset => cases unit

/-- Everything a step of the machine can do, on any state and with any instruction. -/
inductive State.Effect (s : State) (i : Instr) : State → Prop where
  /-- It does not act, or waits. -/
  | idle : s.Effect i s
  /-- An operation or a frame step of the running engine. -/
  | acts {t : State} (run : s.runState = .running) (ends : s.Ends False t) : s.Effect i t
  /-- A table that the engine accepts is loaded or built (R120, R267). -/
  | loads (rs : List Route) (l : Bool) (un : s.runState = .unloaded) (ok : s.loadable rs = true) :
      s.Effect i { s with rt := rs, loaded := l }
  /-- The load fails (R268). -/
  | fails (un : s.runState = .unloaded) : s.Effect i (s.raise .loadError)
  /-- A loaded engine starts (R269). -/
  | starts (un : s.runState = .unloaded) (loaded : s.loaded = true) :
      s.Effect i { s with runState := .running, dsm := .sRx }
  /-- The engine is reset (R270). -/
  | resets (h : i = .hostReset) : s.Effect i s.hostReset

theorem exec_effect {i : Instr} {t : State} (h : exec i s = .next t) : s.Effect i t := by
  cases unit : isUnit i with
  | true =>
    have acts := exec_acts (s := s) i unit
    rw [h] at acts
    obtain rfl | ⟨run, ends⟩ := acts
    · exact .idle
    · exact .acts run ends
  | false =>
    cases i with
    | lpmBuild rs =>
      rw [exec, execLpmBuild] at h
      split at h
      next un =>
        split at h
        next ok => cases h; exact .loads rs s.loaded un ok
        next => cases h
      next => cases h; exact .idle
    | hostLoadRoutes es =>
      rw [exec, execHostLoadRoutes.eq_def] at h
      split at h
      next un =>
        split at h
        next => cases h; exact .fails un
        next rs =>
          split at h
          next ok => cases h; exact .loads rs true un ok
          next => cases h; exact .fails un
      next => cases h
    | hostStart =>
      rw [exec, execHostStart] at h
      split at h
      next ok => cases h; exact .starts ok.1 ok.2
      next => cases h
    | hostReset => cases h; exact .resets rfl
    | _ => cases unit

end Acting

/-! ### The invariants over all states -/

/-- Settles O53: only a load or a build, both of an engine that is not running, and reset write the
route table, and nothing writes the parameters or the interface table. -/
theorem configurationIsConstant : Obligations.ConfigurationIsConstant := by
  intro i s t h
  cases exec_effect h with
  | idle => exact ⟨rfl, rfl, fun _ _ => rfl⟩
  | acts run ends =>
    obtain ⟨cfg, iftab, rt, -⟩ := ends.config
    exact ⟨cfg, iftab, fun _ _ => rt⟩
  | loads rs l un ok => exact ⟨rfl, rfl, fun run => by simp [un] at run⟩
  | fails un => exact ⟨rfl, rfl, fun _ _ => rfl⟩
  | starts un loaded => exact ⟨rfl, rfl, fun _ _ => rfl⟩
  | resets e => exact ⟨rfl, rfl, fun _ ne => absurd e ne⟩

@[simp] theorem atMost_zero (d : Option Nat) : atMost 0 d = true := by cases d <;> simp [atMost]

/-- A load checks the table it writes, the units keep the tables in order, and a reset empties them. -/
theorem State.Effect.tables {s t : State} {i : Instr} (h : s.Effect i t) (ok : s.tablesOk = true) :
    t.tablesOk = true := by
  cases h with
  | idle => exact ok
  | acts run ends => exact ends.tables ok
  | loads rs l un loadable =>
    rw [tablesOk_iff] at ok ⊢
    obtain ⟨-, -, keys, arpc, pq⟩ := ok
    simp only [State.loadable, Bool.and_eq_true] at loadable
    exact ⟨loadable.2, loadable.1, keys, arpc, pq⟩
  | fails un => exact ok
  | starts un loaded => exact ok
  | resets e => simp [tablesOk_iff, State.hostReset, State.reset, tableWf]

/-- A fault writes all three status registers, and so do start and reset; nothing else writes them. -/
theorem State.Effect.status {s t : State} {i : Instr} (h : s.Effect i t) (ok : s.statusOk = true) :
    t.statusOk = true := by
  cases h with
  | idle => exact ok
  | acts run ends => exact ends.status run ok
  | loads rs l un loadable =>
    have idle := (statusOk_unloaded_iff un).mp ok
    exact (statusOk_unloaded_iff (s := { s with rt := rs, loaded := l }) un).mpr idle
  | fails un => exact statusOk_raise _ nofun
  | starts un loaded =>
    obtain ⟨cause, -⟩ := (statusOk_unloaded_iff un).mp ok
    exact (statusOk_running_iff rfl).mpr ⟨cause, nofun, loaded⟩
  | resets e => rfl

/-- Settles O55, by what an instruction can do to the tables. -/
theorem tablesStayInOrder : Obligations.TablesStayInOrder := by
  intro s t ok h
  obtain ⟨i, ops, h⟩ := step_next_cases s h
  exact (exec_effect h).tables ok

/-- Settles O56, by what an instruction can do to the status. -/
theorem statusStaysConsistent : Obligations.StatusStaysConsistent := by
  intro s t ok h
  obtain ⟨i, ops, h⟩ := step_next_cases s h
  exact (exec_effect h).status ok

/-- With nothing at the operation port a step is a frame step (R220). -/
theorem step_of_no_ops {s : State} (ops : s.ops = []) : step s = exec .frameStep s := by
  simp [step, fetch, ops]

/-- Settles O60: the stages of a frame step enter the dispatch states in the order of R27. -/
theorem dispatchTraceStaysLegal : Obligations.DispatchTraceStaysLegal := by
  intro s t ops ok h
  have acts := execFrameStep_acts (s := s)
  rw [step_of_no_ops ops] at h
  rw [show execFrameStep s = .next t from h] at acts
  obtain rfl | ⟨-, ends⟩ := acts
  · exact ok
  · exact ends.trace trivial ok

/-- Settles O52: the reset state is a literal. -/
theorem resetValues : Obligations.ResetValues :=
  ⟨rfl, rfl, rfl, rfl, rfl, rfl, rfl, rfl⟩

end Sys2Proof.Machine

/-! ## The engine by itself (R40, R285, R286)

SUPPORT. A frame step of an engine that meets its invariant always has a next state, and leaves the engine
stopped or back in `S_RX` over a queue as R40 says. What the step keeps besides is what every step keeps. -/

namespace Sys2Proof.Machine

/-! ### Pending entries and received frames by their fields -/

/-- A frame with the bytes and the EtherType of an IPv4 frame is one, given by its fields (R226). -/
theorem exists_pendingFrame {q : Frame} (len : 42 ≤ q.len) (type : q.ethType = etherIpv4) :
    ∃ e : Pending, q = pendingFrame e := by
  refine ⟨(readIpv4 q.buf, q.iface), ?_⟩
  rw [pendingFrame, encodeIpv4_read q.buf len type]

/-- R40 for a pending entry given by its fields. -/
theorem pendingOk_iff (s : State) (e : Pending) : s.pendingOk (pendingFrame e) = true ↔
    42 + e.1.tail.length ≤ s.cfg.maxFrame ∧ e.2 < s.iftab.length ∧
      csumVerify (ipv4Header e.1) = true ∧ 1 ≤ e.1.ttl ∧
      ∃ r, lpmLookup s.rt e.1.ipDst = some r ∧ arpLookup s.arpc r.nextHop = none := by
  unfold State.pendingOk State.entryOk pendingFrame
  cases lk : lpmLookup s.rt e.1.ipDst with
  | none => simp [lk]
  | some r =>
    simp only [Bool.and_eq_true, decide_eq_true_eq, beq_iff_eq, and_assoc, ipv4_ethType,
      ipv4_ipHeader, ipv4_ipTtl, ipv4_ipDst, Frame.len, encodeIpv4_length, lk, Option.some.injEq,
      exists_eq_left']
    have window : windowLen ≤ 42 + e.1.tail.length := Nat.le_add_right 42 _
    exact ⟨fun ⟨_, fits, iface, _, rest⟩ => ⟨fits, iface, rest⟩,
      fun ⟨fits, iface, rest⟩ => ⟨window, fits, iface, rfl, rest⟩⟩

/-- R40 reads the configuration and the cache only. -/
theorem pendingOk_congr {s t : State} (cfg : t.cfg = s.cfg) (iftab : t.iftab = s.iftab)
    (rt : t.rt = s.rt) (arpc : t.arpc = s.arpc) : t.pendingOk = s.pendingOk := by
  unfold State.pendingOk State.entryOk State.nIf
  rw [cfg, iftab, rt, arpc]

/-- The frame decoder reads frame classes only, and each from its own word (R96). -/
theorem decodeFrame_ok {b : List Byte} {i : Instr} (h : decodeFrame b = .ok i) :
    i.port = .rx ∧ encode i = b := by
  unfold decodeFrame at h
  split at h
  · cases h
  rename_i len
  simp only [ethHeaderLen, not_lt] at len
  dsimp only at h
  split at h
  next type =>
    split at h
    · cases h
    rename_i window
    simp only [windowLen, not_lt] at window
    cases h
    have word := encodeArp_read b window type
    unfold decodeArp
    dsimp only
    split
    next op => rw [op] at word; exact ⟨rfl, word⟩
    next =>
      split
      next op => rw [op] at word; exact ⟨rfl, word⟩
      next => exact ⟨rfl, word⟩
  next =>
    split at h
    next type =>
      split at h
      · cases h
      rename_i window
      simp only [windowLen, not_lt] at window
      cases h
      unfold decodeIpv4
      dsimp only
      split
      · exact ⟨rfl, encodeIpv4_read b window type⟩
      · exact ⟨rfl, encodeIpv4_read b window type⟩
    next => cases h; exact ⟨rfl, encodeEth_read b len⟩

/-! ### Completion -/

/-- The engine has stopped, or waits for a frame over a queue as R40 says. -/
def State.Resting (t : State) : Prop :=
  t.runState = .running → t.dsm = .sRx ∧ t.pq.all t.pendingOk = true

/-- A part of a step that neither stops the model nor ends badly, and goes on to a state of `G`. -/
def Flow.Completes (G : State → Prop) : Flow → Prop
  | .go u => G u
  | .ended u => u.Resting
  | .fault _ | .refused _ => False

/-- A meaning with a next state, in which the engine rests. -/
def Out.Completes : Out → Prop
  | .next t => t.Resting
  | .fault _ | .refused _ => False

/-- What the stages of a frame step need of the tables. It reads none of the registers that a stage
writes, so that its three parts prove it again of the state after a write. -/
structure State.Able (s : State) : Prop where
  wf : tableWf s.iftab.length s.rt = true
  window : 42 ≤ s.cfg.maxFrame
  pending : s.pq.all s.pendingOk = true

section Completing

variable {s : State} {x : Flow} {G G' : State → Prop}

theorem Flow.Completes.andThen {k : State → Flow} (hx : x.Completes G)
    (hk : ∀ u, G u → (k u).Completes G') : (x.andThen k).Completes G' := by
  cases x with
  | go u => exact hk u hx
  | ended u => exact hx
  | fault r => exact hx
  | refused r => exact hx

theorem Flow.Completes.thenOut {k : State → Out} (hx : x.Completes G)
    (hk : ∀ u, G u → Out.Completes (k u)) : Out.Completes (x.thenOut k) := by
  cases x with
  | go u => exact hk u hx
  | ended u => exact hx
  | fault r => exact hx
  | refused r => exact hx

/-- A flow that always ends the step. -/
theorem Flow.Completes.out (hx : x.Completes fun _ => False) : Out.Completes x.out :=
  hx.thenOut fun _ => False.elim

theorem Out.Completes.whenRunning {o : Out} (h : o.Completes) : Out.Completes (whenRunning s o) := by
  by_cases run : s.runState = .running
  · rwa [whenRunning_running s o run]
  · rw [whenRunning_not_running s o run]
    exact fun h => absurd h run

theorem State.raise_resting (s : State) (c : FaultCause) : (s.raise c).Resting := nofun

theorem State.Able.finish (h : s.Able) (o : OutcomeCode) : (s.finish o).Resting :=
  fun _ => ⟨rfl, h.pending⟩

end Completing

/-! ### The IPv4 path (R229 to R237) -/

section Ipv4Path

variable {t : State} {h : Ipv4Frame} {i : Nat} {r : Route} {G : State → Prop}

theorem replyIcmp_completes (ty : Byte) (o : OutcomeCode) (able : t.Able)
    (e : t.f = ⟨encodeIpv4 h, i⟩) (hi : i < t.iftab.length) : (replyIcmp ty o t).Completes G := by
  cases fails : t.txFail.headD false with
  | false =>
    rw [replyIcmp_sent ty o e hi able.window fails]
    exact fun _ => ⟨rfl, able.pending⟩
  | true =>
    rw [replyIcmp_failed ty o e hi able.window fails]
    exact nofun

theorem ipForward_completes {out : IfRow} (mac : Mac) (able : t.Able) (e : t.f = ⟨encodeIpv4 h, i⟩)
    (fits : 42 + h.tail.length ≤ t.cfg.maxFrame) (ho : t.iftab[r.iface]? = some out) :
    (ipForward r mac t).Completes G := by
  cases fails : t.txFail.headD false with
  | false =>
    rw [ipForward_sent e ho fits fails]
    exact fun _ => ⟨rfl, able.pending⟩
  | true =>
    rw [ipForward_failed e ho fits fails]
    exact nofun

/-- The queue takes a frame that is pending as R40 says, or is full and stops the engine. -/
theorem ipQueue_completes {out : IfRow} (able : t.Able) (ho : t.iftab[r.iface]? = some out)
    (pending : t.pendingOk t.f = true) : (ipQueue r t).Completes G := by
  cases room : below t.pq.length t.cfg.pqDepth with
  | false =>
    rw [ipQueue_full room]
    exact t.raise_resting .capacity
  | true =>
    cases fails : t.txFail.headD false with
    | false =>
      rw [ipQueue_sent ho able.window room fails]
      have all : (t.pq ++ [t.f]).all t.pendingOk = true := by
        rw [List.all_append, able.pending, Bool.true_and, List.all_cons, pending]
        rfl
      exact fun _ => ⟨rfl, all⟩
    | true =>
      rw [ipQueue_failed ho able.window room fails]
      exact nofun

/-- Step 3g: what is queued is a valid IPv4 frame with a live TTL and a Route, and its next hop has just
been missed in the cache. -/
theorem ipResolve_completes (able : t.Able) (e : t.f = ⟨encodeIpv4 h, i⟩) (hi : i < t.iftab.length)
    (fits : 42 + h.tail.length ≤ t.cfg.maxFrame) (valid : csumVerify (ipv4Header h) = true)
    (live : 1 ≤ h.ttl) (lk : lpmLookup t.rt h.ipDst = some r) : (ipResolve r t).Completes G := by
  obtain ⟨out, ho⟩ := lpmLookup_row t able.wf lk
  cases hit : arpLookup t.arpc r.nextHop with
  | some mac =>
    rw [ipResolve_hit hit]
    exact ipForward_completes mac ⟨able.wf, able.window, able.pending⟩ e fits ho
  | none =>
    rw [ipResolve_miss hit]
    have pending : t.pendingOk (pendingFrame (h, i)) = true :=
      (pendingOk_iff t (h, i)).mpr ⟨fits, hi, valid, live, r, lk, hit⟩
    refine ipQueue_completes ⟨able.wf, able.window, able.pending⟩ ho ?_
    exact (congrArg t.pendingOk e).trans pending

/-- Steps 3e to 3g, on the frame whose header and TTL have been tested. -/
theorem ipRoute_completes (able : t.Able) (e : t.f = ⟨encodeIpv4 h, i⟩) (hi : i < t.iftab.length)
    (fits : 42 + h.tail.length ≤ t.cfg.maxFrame) (valid : csumVerify (ipv4Header h) = true)
    (live : 2 ≤ h.ttl.toNat) (dst : t.curDst = h.ipDst) : (ipRoute t).Completes G := by
  cases lk : lpmLookup t.rt t.curDst with
  | none =>
    rw [ipRoute_none able.wf lk]
    exact replyIcmp_completes _ _ ⟨able.wf, able.window, able.pending⟩ e hi
  | some r =>
    rw [ipRoute_found able.wf lk, ipDec_valid (by exact e) valid live]
    have alive : 1 ≤ (decFields h).ttl := by
      rw [decFields_ttl]
      have := h.ttl.isLt
      bv_omega
    exact ipResolve_completes ⟨able.wf, able.window, able.pending⟩ rfl hi fits
      (withIpSum_verifies _) alive (dst ▸ lk)

theorem ipLocal_completes (able : t.Able) (e : t.f = ⟨encodeIpv4 h, i⟩) (hi : i < t.iftab.length)
    (fits : 42 + h.tail.length ≤ t.cfg.maxFrame) : (ipLocal t).Completes G := by
  have hr := List.getElem?_eq_getElem hi
  obtain ⟨u, hu, eq⟩ := ipLocal_eq e hr
  have able : u.Able := by rw [hu]; exact ⟨able.wf, able.window, able.pending⟩
  have e : u.f = ⟨encodeIpv4 h, i⟩ := by rw [hu]; exact e
  have hi : i < u.iftab.length := by rw [hu]; exact hi
  have fits : 42 + h.tail.length ≤ u.cfg.maxFrame := by rw [hu]; exact fits
  have dst : u.curDst = h.ipDst := by rw [hu]
  rw [eq]
  split
  · exact replyIcmp_completes _ _ able e hi
  split
  · exact able.finish _
  cases valid : csumVerify (ipv4Header h) with
  | false =>
    rw [ipCsumTest_drop e valid]
    exact State.Able.finish ⟨able.wf, able.window, able.pending⟩ .dropCsum
  | true =>
    rw [ipCsumTest_pass e valid]
    by_cases dead : h.ttl.toNat ≤ 1
    · rw [ipTtl_expired (by exact e) dead]
      exact replyIcmp_completes _ _ ⟨able.wf, able.window, able.pending⟩ e hi
    · rw [ipTtl_live (by exact e) (by omega)]
      exact ipRoute_completes ⟨able.wf, able.window, able.pending⟩ e hi fits valid (by omega) dst

end Ipv4Path

/-! ### ARP (R191 to R202) -/

section ArpPath

variable {s t : State} {G : State → Prop} {key : Ip} {q : Frame}

theorem arpRequestFlow_completes {h : ArpFrame} {i : Nat} (able : t.Able)
    (e : t.f = ⟨encodeArp 1 h, i⟩) (hi : i < t.iftab.length)
    (fits : 42 + h.pad.length ≤ t.cfg.maxFrame) : (arpRequestFlow t).Completes G := by
  have hr := List.getElem?_eq_getElem hi
  by_cases own : t.ownAddress t.iftab[i] h.tpa
  · cases fails : t.txFail.headD false with
    | false =>
      rw [arpRequestFlow_sent e hr own fits fails _ rfl]
      exact fun _ => ⟨rfl, able.pending⟩
    | true =>
      rw [arpRequestFlow_failed e hr own fits fails _ rfl]
      exact nofun
  · rw [arpRequestFlow_far e hr own]
    exact State.Able.finish ⟨able.wf, able.window, able.pending⟩ .dropArpNotLocal

/-- An entry with a Route is released or kept, never answered (R201). -/
theorem disposeOp_routed {e : Pending} {r : Route} (hp : t.p = pendingFrame e)
    (wf : tableWf t.iftab.length t.rt = true) (lk : lpmLookup t.rt e.1.ipDst = some r) :
    disposeOp t = disposeRouted r { t with curDst := e.1.ipDst, curRoute := some r } := by
  rw [disposeOp_eq hp wf, lk]

theorem disposeRouted_release {r : Route} {mac : Mac} (hit : arpLookup t.arpc t.drainKey = some mac)
    (own : r.nextHop = t.drainKey) :
    disposeRouted r t = disposeRelease r mac { t with curMac := some mac } := by
  rw [disposeRouted_eq, hit]
  exact if_pos own

theorem disposeRouted_keep {r : Route} {mac : Mac} (hit : arpLookup t.arpc t.drainKey = some mac)
    (other : r.nextHop ≠ t.drainKey) :
    disposeRouted r t = disposeKeep { t with curMac := some mac } := by
  rw [disposeRouted_eq, hit]
  exact if_neg other

/-- What a drain for `key` may meet in the queue: an IPv4 frame that fits and has a Route, and is pending
as R40 says unless it waits for `key`. -/
def State.Drainable (s : State) (key : Ip) (q : Frame) : Prop :=
  ∃ (e : Pending) (r : Route), q = pendingFrame e ∧ 42 + e.1.tail.length ≤ s.cfg.maxFrame ∧
    lpmLookup s.rt e.1.ipDst = some r ∧ (r.nextHop ≠ key → s.pendingOk q = true)

/-- One round of a drain whose key is in the cache sends the entry if it waits for the key, and puts it
back behind the others if not (R201). -/
theorem drainEntry_completes {rest : List Frame} (hq : s.pq = q :: rest) (hk : s.drainKey = key)
    (wf : tableWf s.iftab.length s.rt = true) (hit : arpLookup s.arpc key ≠ none)
    (hd : s.Drainable key q) :
    (drainEntry s).Completes fun u => DrainFrame s u ∧ u.drainI = s.drainI + 1 ∧
      ∃ kept, u.pq = rest ++ kept ∧ kept.all s.pendingOk = true := by
  subst hk
  obtain ⟨e, r, hp, fits, lk, waits⟩ := hd
  obtain ⟨row, hr⟩ := lpmLookup_row s wf lk
  obtain ⟨mac, hmac⟩ := Option.ne_none_iff_exists'.mp hit
  have deq : pqDeqOp (s.enter .sDrainEntry) = .go { s.enter .sDrainEntry with pq := rest, p := q } := by
    simp [pqDeqOp, hq]
  rw [drainEntry, deq, Flow.andThen_go, disposeOp_routed (by exact hp) (by exact wf) (by exact lk)]
  by_cases own : r.nextHop = s.drainKey
  · rw [disposeRouted_release (by exact hmac) (by exact own)]
    cases fails : s.txFail.headD false with
    | false =>
      rw [disposeRelease_sent (e := e) (row := row) (by exact hp) (by exact hr) (by exact fits)
        (by exact fails)]
      exact ⟨⟨rfl⟩, rfl, [], (List.append_nil rest).symm, rfl⟩
    | true =>
      rw [disposeRelease_failed (e := e) (row := row) (by exact hp) (by exact hr) (by exact fits)
        (by exact fails)]
      exact nofun
  · rw [disposeRouted_keep (by exact hmac) (by exact own)]
    cases room : below rest.length s.cfg.pqDepth with
    | false =>
      rw [disposeKeep, pqEnqOp_full _ _ (by exact room)]
      exact State.raise_resting _ _
    | true =>
      rw [disposeKeep_room (by exact room)]
      exact ⟨⟨rfl⟩, rfl, [q], rfl, by rw [List.all_cons, waits own]; rfl⟩

/-- The drain takes the entries it found, `rem`, off the head, and leaves behind what it has put back. -/
theorem drainLoop_completes (rem : List Frame) {kept : List Frame} (hq : s.pq = rem ++ kept)
    (hk : s.drainKey = key) (count : s.drainI + rem.length = s.drainN)
    (wf : tableWf s.iftab.length s.rt = true) (hit : arpLookup s.arpc key ≠ none)
    (hrem : ∀ q ∈ rem, s.Drainable key q) (hkept : kept.all s.pendingOk = true) :
    (drainLoop rem.length s).Completes fun u => u.dsm = .sRx ∧ u.pq.all u.pendingOk = true := by
  induction rem generalizing s kept with
  | nil =>
    have all : s.pq.all s.pendingOk = true := by rwa [hq, List.nil_append]
    exact ⟨rfl, all⟩
  | cons q rem ih =>
    have more : s.drainI < s.drainN := by rw [← count, List.length_cons]; omega
    rw [List.length_cons, drainLoop, if_pos (by exact more)]
    refine (drainEntry_completes (s := s.enter .sDrainNext) (rest := rem ++ kept) hq hk wf hit
      (hrem q List.mem_cons_self)).andThen ?_
    rintro u ⟨⟨same⟩, next, back, hback, hpending⟩
    have cfg : u.cfg = s.cfg := by rw [same]; rfl
    have iftab : u.iftab = s.iftab := by rw [same]; rfl
    have rt : u.rt = s.rt := by rw [same]; rfl
    have arpc : u.arpc = s.arpc := by rw [same]; rfl
    have key' : u.drainKey = s.drainKey := by rw [same]; rfl
    have bound : u.drainN = s.drainN := by rw [same]; rfl
    have ok : u.pendingOk = s.pendingOk := pendingOk_congr cfg iftab rt arpc
    refine ih (kept := kept ++ back) (by rw [hback, List.append_assoc]) (key'.trans hk) ?_
      (by rwa [iftab, rt]) (by rwa [arpc]) ?_ ?_
    · rw [next, bound, ← count, List.length_cons, State.enter_drainI]
      omega
    · intro q' hq'
      have := hrem q' (List.mem_cons_of_mem _ hq')
      unfold State.Drainable at this ⊢
      rwa [cfg, rt, ok]
    · rw [ok, List.all_append, hkept, Bool.true_and]
      exact hpending

/-- After the insert of R198 only the entries that wait for the new key need not be pending as R40 says,
and the drain sends those. -/
theorem arpReplyFlow_completes (able : s.Able) : (arpReplyFlow s).Completes G := by
  unfold arpReplyFlow
  obtain e | ⟨-, -, e⟩ := arpInsertOp_cases (s.enter .sArpLearn) s.f.arpSpa s.f.arpSha
  · rw [e, Flow.andThen_go]
    have hit := arpLookup_learns s s.f.arpSpa s.f.arpSha
    have drainable : ∀ q ∈ s.pq, State.Drainable
        { s.enter .sArpLearn with arpc := s.learns s.f.arpSpa s.f.arpSha } s.f.arpSpa q := by
      intro q hq
      have ok := List.all_eq_true.mp able.pending q hq
      have entry : s.entryOk q = true := by
        simp only [State.pendingOk, Bool.and_eq_true] at ok
        exact ok.1.1.1
      simp only [State.entryOk, Bool.and_eq_true, decide_eq_true_eq, beq_iff_eq] at entry
      obtain ⟨⟨⟨len, -⟩, -⟩, type⟩ := entry
      obtain ⟨p, rfl⟩ := exists_pendingFrame len type
      obtain ⟨fits, iface, valid, live, r, lk, miss⟩ := (pendingOk_iff s p).mp ok
      refine ⟨p, r, rfl, fits, lk, fun ne => (pendingOk_iff _ p).mpr ?_⟩
      exact ⟨fits, iface, valid, live, r, lk, (arpLookup_learns_ne s _ _ _ ne).trans miss⟩
    refine Flow.Completes.andThen (drainLoop_completes (key := s.f.arpSpa) s.pq (kept := [])
      (List.append_nil _).symm rfl (Nat.zero_add _) able.wf hit drainable rfl) ?_
    rintro u ⟨dsm, pending⟩
    exact fun _ => ⟨dsm, pending⟩
  · rw [e]
    exact State.raise_resting _ _

end ArpPath

/-! ### The frame step (R220) -/

section Step

variable {s : State}

/-- The class of an admitted frame that has passed the filter (R223). -/
theorem dispatchFrame_completes (able : s.Able) (hi : s.f.iface < s.iftab.length)
    (fits : s.f.buf.length ≤ s.cfg.maxFrame) : Out.Completes (dispatchFrame s) := by
  unfold dispatchFrame
  split
  next i decoded =>
    obtain ⟨port, word⟩ := decodeFrame_ok decoded
    have loaded (bytes : List Byte) (eq : bytes = s.f.buf) : s.loadF bytes = s := by rw [eq]; rfl
    have ipv4 (h : Ipv4Frame) (eq : encodeIpv4 h = s.f.buf) :
        Out.Completes (ipLocal (s.loadF (encodeIpv4 h))).out := by
      rw [loaded _ eq]
      refine (ipLocal_completes (h := h) (i := s.f.iface) able (by rw [eq]) hi ?_).out
      rwa [← encodeIpv4_length, eq]
    cases i with
    | arpRequest h =>
      refine Out.Completes.whenRunning (Flow.Completes.out ?_)
      have fits : 42 + h.pad.length ≤ s.cfg.maxFrame := by
        rw [← encodeArp_length 1]
        exact (congrArg List.length word).trans_le fits
      exact arpRequestFlow_completes ⟨able.wf, able.window, able.pending⟩ rfl hi fits
    | arpReply h =>
      refine Out.Completes.whenRunning (Flow.Completes.out ?_)
      exact arpReplyFlow_completes ⟨able.wf, able.window, able.pending⟩
    | arpRsvd op h =>
      refine Out.Completes.whenRunning (o := .next _) ?_
      exact State.Able.finish ⟨able.wf, able.window, able.pending⟩ .dropArpOp
    | ipv4EchoReq h => exact (ipv4 h word).whenRunning
    | ipv4 h => exact (ipv4 h word).whenRunning
    | ethRsvd h =>
      refine Out.Completes.whenRunning (o := .next _) ?_
      exact State.Able.finish ⟨able.wf, able.window, able.pending⟩ .dropEtype
    | _ => cases port
  next => exact s.raise_resting _

theorem processFrame_completes (able : s.Able) (hi : s.f.iface < s.iftab.length)
    (fits : s.f.buf.length ≤ s.cfg.maxFrame) : Out.Completes (processFrame s) := by
  unfold processFrame
  obtain ⟨absent, -⟩ | ⟨row, -, e | e⟩ := l2Stage_cases s
  · simp [List.getElem?_eq_getElem hi] at absent
  · rw [e, Flow.thenOut_go]
    exact dispatchFrame_completes ⟨able.wf, able.window, able.pending⟩ hi fits
  · rw [e, Flow.thenOut_ended]
    exact able.finish _

/-- The invariant, with its last clause as the claim that the engine rests. -/
theorem engineOk_iff : s.engineOk = true ↔
    42 ≤ s.cfg.maxFrame ∧ s.ops = [] ∧ s.tablesOk = true ∧ s.statusOk = true ∧ s.Resting := by
  have rest : (!(s.runState == .running) || (s.dsm == .sRx && s.pq.all s.pendingOk)) = true ↔
      s.Resting := by
    unfold State.Resting
    by_cases run : s.runState = .running
    · simp [run]
    · simp [run]
  unfold State.engineOk
  simp only [Bool.and_eq_true, decide_eq_true_eq, List.isEmpty_iff, and_assoc, rest]
  rfl

theorem execFrameStep_completes (ok : s.engineOk = true) : Out.Completes (execFrameStep s) := by
  obtain ⟨window, -, tables, -, rest⟩ := engineOk_iff.mp ok
  by_cases run : s.runState = .running
  · obtain ⟨dsm, pending⟩ := rest run
    obtain ⟨wf, -⟩ := (tablesOk_iff s).mp tables
    rw [execFrameStep, whenRunning_running s _ run, dsm]
    obtain ⟨-, e⟩ | ⟨rest, -, e⟩ | ⟨fr, rest, c, -, -, e⟩ | ⟨fr, rest, -, hi, -, fits, e⟩ :=
      receiveOp_cases s <;> simp only [e]
    · exact fun _ => ⟨dsm, pending⟩
    · exact State.raise_resting _ _
    · exact State.raise_resting _ _
    · exact processFrame_completes ⟨wf, window, pending⟩ hi fits
  · rw [execFrameStep, whenRunning_not_running s _ run]
    exact rest

end Step

/-- Settles O57: the frame step completes with the engine at rest, and keeps the tables, the status and
the configuration as every step does. -/
theorem engineNeverStopsAndKeepsItsInvariant : Obligations.EngineNeverStopsAndKeepsItsInvariant := by
  intro s ok
  have done := execFrameStep_completes ok
  have acts := execFrameStep_acts (s := s)
  obtain ⟨window, ops, tables, status, -⟩ := engineOk_iff.mp ok
  rw [step_of_no_ops ops, show exec .frameStep s = execFrameStep s from rfl]
  cases h : execFrameStep s with
  | next t =>
    rw [h] at done acts
    refine ⟨t, rfl, ?_⟩
    obtain rfl | ⟨run, ends⟩ := acts
    · exact ok
    · obtain ⟨cfg, -, -, hops⟩ := ends.config
      exact engineOk_iff.mpr
        ⟨cfg ▸ window, hops.trans ops, ends.tables tables, ends.status run status, done⟩
  | fault r => rw [h] at done; exact done.elim
  | refused r => rw [h] at done; exact done.elim

end Sys2Proof.Machine

/-! ## The drain whose transmission fails (R67, R200, R201)

SUPPORT. The rounds of a drain up to the failing one, taken together, and the round that fails. -/

namespace Sys2Proof.Machine

/-! ### The rounds that go on -/

section Rounds

variable {s t u : State} {key : Ip} {e : Pending} {es : List Pending} {rest : List Frame}

/-- A round reads the configuration, the key and the snapshot, and leaves them. -/
theorem DrainFrame.kept (h : DrainFrame s t) : t.cfg = s.cfg ∧ t.iftab = s.iftab ∧ t.rt = s.rt ∧
    t.drainKey = s.drainKey ∧ t.drainN = s.drainN := by
  rw [h.same]
  exact ⟨rfl, rfl, rfl, rfl, rfl⟩

theorem DrainFrame.drainable_eq (h : DrainFrame s t) : t.drainable = s.drainable := by
  rw [h.same]
  rfl

theorem DrainFrame.drainCase_eq (h : DrainFrame s t) : t.drainCase = s.drainCase := by
  rw [h.same]
  rfl

theorem DrainFrame.drainKeeps_eq (h : DrainFrame s t) : t.drainKeeps = s.drainKeeps := by
  rw [h.same]
  rfl

theorem DrainFrame.drainSends_eq (h : DrainFrame s t) : t.drainSends = s.drainSends := by
  rw [h.same]
  rfl

theorem drainable_cons : s.drainable (e :: es) = true ↔
    42 + e.1.tail.length ≤ s.cfg.maxFrame ∧ e.2 < s.iftab.length ∧ s.drainable es = true := by
  unfold State.drainable
  simp only [List.all_cons, Bool.and_eq_true, decide_eq_true_eq, and_assoc]
  rfl

theorem drainable_append {es' : List Pending} :
    s.drainable (es ++ es') = true ↔ s.drainable es = true ∧ s.drainable es' = true := by
  simp [State.drainable]

/-- A round of the loop while entries of the snapshot remain (R200). -/
theorem drainLoop_succ {n : Nat} (remain : s.drainI < s.drainN) :
    drainLoop (n + 1) s = (drainEntry (s.enter .sDrainNext)).andThen (drainLoop n) := by
  rw [drainLoop]
  exact if_pos remain

/-- The next `n` transmissions succeed (R264). -/
def State.txSucceeds (s : State) (n : Nat) : Prop := (s.txFail.take n).all (! ·) = true

theorem txSucceeds_of_add {n m : Nat} (h : s.txSucceeds (n + m)) : s.txSucceeds n := by
  simp only [State.txSucceeds, List.take_add, List.all_append, Bool.and_eq_true] at h
  exact h.1

theorem txSucceeds_after {n m : Nat} (h : s.txSucceeds (n + m)) (hu : u.txFail = s.txFail.drop n) :
    u.txSucceeds m := by
  simp only [State.txSucceeds, List.take_add, List.all_append, Bool.and_eq_true, ← hu] at h
  exact h.2

theorem txSucceeds_one (h : s.txSucceeds 1) : s.txFail.headD false = false := by
  cases hs : s.txFail with
  | nil => rfl
  | cons b l => simpa [State.txSucceeds, hs] using h

/-- The state `t` is what a drain for `key` makes of `s` in one round for each of `es`, the entries at
the head of its queue, with `rest` behind them. -/
structure DrainVisits (key : Ip) (es : List Pending) (rest : List Frame) (s t : State) : Prop where
  frame : DrainFrame s t
  queue : t.pq = rest ++ (es.filter (s.drainKeeps key)).map pendingFrame
  sent : t.txTrace = s.txTrace ++ es.filterMap (s.drainSends key)
  results : t.txFail = s.txFail.drop (es.filterMap (s.drainSends key)).length
  labels : t.drainLabels = s.drainLabels ++ es.map (s.drainCase key)
  count : t.drainI = s.drainI + es.length
  trace : t.dsmTrace = s.dsmTrace ++ es.flatMap fun _ => [.sDrainNext, .sDrainEntry]

/-- A round for each of no entries. -/
theorem DrainVisits.nil (hq : s.pq = rest) : DrainVisits key [] rest s s where
  frame := ⟨rfl⟩
  queue := by simp [hq]
  sent := (List.append_nil _).symm
  results := rfl
  labels := (List.append_nil _).symm
  count := rfl
  trace := (List.append_nil _).symm

/-- Rounds compose: those for `es` and then those for `es'`, where the entries `es` put back are behind
what the second part finds. -/
theorem DrainVisits.append {es' : List Pending}
    (h : DrainVisits key es (es'.map pendingFrame ++ rest) s t)
    (h' : DrainVisits key es' (rest ++ (es.filter (s.drainKeeps key)).map pendingFrame) t u) :
    DrainVisits key (es ++ es') rest s u where
  frame := h.frame.trans h'.frame
  queue := by simp [h'.queue, h.frame.drainKeeps_eq]
  sent := by simp [h'.sent, h.sent, h.frame.drainSends_eq]
  results := by simp [h'.results, h.results, h.frame.drainSends_eq]
  labels := by simp [h'.labels, h.labels, h.frame.drainCase_eq]
  count := by simp [h'.count, h.count, Nat.add_assoc]
  trace := by simp [h'.trace, h.trace]

/-- One round of the loop, on an entry that the drain can dispose of. -/
theorem drainEntry_visits (hq : s.pq = pendingFrame e :: rest) (hk : s.drainKey = key)
    (wf : tableWf s.iftab.length s.rt = true) (fits : s.drainable [e] = true)
    (room : atMost s.pq.length s.cfg.pqDepth = true)
    (ok : s.txSucceeds ([e].filterMap (s.drainSends key)).length) :
    ∃ t, drainEntry (s.enter .sDrainNext) = .go t ∧ DrainVisits key [e] rest s t := by
  obtain ⟨big, iface, -⟩ := drainable_cons.mp fits
  have sends : [e].filterMap (s.drainSends key) = (s.drainSends key e).toList := by
    cases h : s.drainSends key e <;> simp [h]
  have first : s.drainSends key e ≠ none → s.txFail.headD false = false := by
    intro sending
    obtain ⟨fr, hfr⟩ := Option.ne_none_iff_exists'.mp sending
    rw [sends, hfr] at ok
    exact txSucceeds_one ok
  obtain ⟨t, ht, frame, queue, sent, results, labels, count, trace, -⟩ :=
    drainEntry_next (s.enter .sDrainNext) key e rest hq hk wf big iface room first
  refine ⟨t, ht, DrainFrame.trans ⟨rfl⟩ frame, ?_, ?_, ?_, labels, count, ?_⟩
  · rw [queue, show (s.enter .sDrainNext).drainKeeps = s.drainKeeps from rfl]
    cases h : s.drainKeeps key e <;> simp [h]
  · rw [sends]
    exact sent
  · rw [sends]
    exact results
  · simp [trace, State.enter]

/-- Rounds put back no more than they take. -/
theorem DrainVisits.length_le (h : DrainVisits key es rest s t) (hq : s.pq = es.map pendingFrame ++ rest) :
    t.pq.length ≤ s.pq.length := by
  have kept := List.length_filter_le (s.drainKeeps key) es
  simp only [h.queue, hq, List.length_append, List.length_map]
  omega

/-- The rounds of a drain on the entries at the head of the queue, with transmissions that succeed: the
loop goes on with the rounds that are left. -/
theorem drainLoop_visits {n : Nat} (hq : s.pq = es.map pendingFrame ++ rest) (hk : s.drainKey = key)
    (remain : s.drainI + es.length ≤ s.drainN) (wf : tableWf s.iftab.length s.rt = true)
    (fits : s.drainable es = true) (room : atMost s.pq.length s.cfg.pqDepth = true)
    (ok : s.txSucceeds (es.filterMap (s.drainSends key)).length) :
    ∃ t, drainLoop (es.length + n) s = drainLoop n t ∧ DrainVisits key es rest s t := by
  induction es generalizing s rest with
  | nil => exact ⟨s, by rw [List.length_nil, Nat.zero_add], .nil hq⟩
  | cons e es ih =>
    rw [List.length_cons] at remain
    rw [← List.singleton_append, drainable_append] at fits
    obtain ⟨fitsHead, fitsTail⟩ := fits
    rw [← List.singleton_append, List.filterMap_append, List.length_append] at ok
    obtain ⟨t, ht, head⟩ := drainEntry_visits hq hk wf fitsHead room (txSucceeds_of_add ok)
    obtain ⟨cfg, iftab, rt, key', bound⟩ := head.frame.kept
    have queue : t.pq = es.map pendingFrame ++
        (rest ++ ([e].filter (s.drainKeeps key)).map pendingFrame) := by
      rw [head.queue]
      exact List.append_assoc ..
    have room' : atMost t.pq.length t.cfg.pqDepth = true := by
      rw [cfg]
      exact atMost_mono (head.length_le hq) room
    obtain ⟨u, hu, tail⟩ := ih queue (key'.trans hk)
      (by rw [head.count, bound, List.length_singleton]; omega) (by rwa [iftab, rt])
      (by rwa [head.frame.drainable_eq]) room'
      (by rw [head.frame.drainSends_eq]; exact txSucceeds_after ok head.results)
    refine ⟨u, ?_, head.append tail⟩
    rw [List.length_cons, Nat.add_right_comm, drainLoop_succ (by omega), ht, Flow.andThen_go, hu]

end Rounds

/-! ### The round that fails -/

section Failure

variable {s t : State} {key : Ip} {e : Pending} {rest : List Frame}

/-- The entries a drain sends: those with no Route and those that wait for a key in the cache (R201). -/
theorem drainSends_ne_none (h : s.drainSends key e ≠ none) :
    lpmLookup s.rt e.1.ipDst = none ∨ ∃ r mac row, lpmLookup s.rt e.1.ipDst = some r ∧
      arpLookup s.arpc key = some mac ∧ s.iftab[r.iface]? = some row ∧ r.nextHop = key := by
  unfold State.drainSends at h
  split at h
  next noRoute => exact .inl noRoute
  next r found =>
    split at h
    next mac row hit hr =>
      split at h
      next own => exact .inr ⟨r, mac, row, found, hit, hr, own⟩
      next => exact absurd rfl h
    next => exact absurd rfl h

/-- The disposal whose transmission fails: its frame is left in `P` alone (R264). -/
theorem disposeOp_failed (hp : t.p = pendingFrame e) (wf : tableWf t.iftab.length t.rt = true)
    (big : 42 + e.1.tail.length ≤ t.cfg.maxFrame) (iface : e.2 < t.iftab.length)
    (sends : t.drainSends t.drainKey e ≠ none) (bad : t.txFail.headD false = true) :
    ∃ y r m, disposeOp t = .ended (State.raise { t with
      p := y, curDst := e.1.ipDst, curRoute := r, curMac := m, txFail := t.txFail.tail } .txIo) := by
  obtain noRoute | ⟨r, mac, row, found, hit, hr, own⟩ := drainSends_ne_none sends
  · refine ⟨⟨encodeIpv4 (synthFields t.cfg.synthTtlFn 3 e.1), e.2⟩, none, t.curMac, ?_⟩
    rw [disposeOp_eq hp wf, noRoute]
    exact disposeUnreach_failed (t := { t with curDst := e.1.ipDst, curRoute := none }) hp iface
      (Nat.le_of_add_right_le big) bad _ rfl
  · refine ⟨t.released mac row r e.1, some r, some mac, ?_⟩
    rw [disposeOp_routed hp wf found, disposeRouted_release (by exact hit) (by exact own)]
    exact disposeRelease_failed
      (t := { t with curDst := e.1.ipDst, curRoute := some r, curMac := some mac }) hp hr big bad

/-- A round begins with the oldest entry in `P` (R200). -/
theorem drainEntry_eq {q : Frame} (hq : s.pq = q :: rest) :
    drainEntry s = disposeOp { s.enter .sDrainEntry with
      pq := rest, p := q, drainI := s.drainI + 1 } := by
  simp [drainEntry, pqDeqOp, hq]

/-- The round whose transmission fails has dequeued its entry and puts nothing back (R67). -/
theorem drainEntry_failed (hq : s.pq = pendingFrame e :: rest) (hk : s.drainKey = key)
    (wf : tableWf s.iftab.length s.rt = true) (fits : s.drainable [e] = true)
    (sends : s.drainSends key e ≠ none) (bad : s.txFail.headD false = true) :
    ∃ u, drainEntry (s.enter .sDrainNext) = .ended (u.raise .txIo) ∧ DrainFrame s u ∧ u.pq = rest ∧
      u.txTrace = s.txTrace ∧ u.txFail = s.txFail.tail := by
  subst hk
  obtain ⟨big, iface, -⟩ := drainable_cons.mp fits
  obtain ⟨y, r, m, h⟩ := disposeOp_failed (t := { (s.enter .sDrainNext).enter .sDrainEntry with
    pq := rest, p := pendingFrame e, drainI := s.drainI + 1 }) rfl wf big iface sends bad
  exact ⟨_, (drainEntry_eq (by exact hq)).trans h, ⟨rfl⟩, rfl, rfl, rfl⟩

/-- The loop up to the transmission that fails: the rounds before it stand, and it ends the drain (R67). -/
theorem drainLoop_failed {before : List Pending} {more : List Bool} {n : Nat}
    (hq : s.pq = before.map pendingFrame ++ pendingFrame e :: rest) (hk : s.drainKey = key)
    (remain : s.drainI + before.length < s.drainN) (wf : tableWf s.iftab.length s.rt = true)
    (fits : s.drainable (before ++ [e]) = true) (room : atMost s.pq.length s.cfg.pqDepth = true)
    (sends : s.drainSends key e ≠ none)
    (results : s.txFail =
      List.replicate (before.filterMap (s.drainSends key)).length false ++ true :: more) :
    ∃ u, drainLoop (before.length + (n + 1)) s = .ended (u.raise .txIo) ∧ DrainFrame s u ∧
      u.pq = rest ++ (before.filter (s.drainKeeps key)).map pendingFrame ∧
      u.txTrace = s.txTrace ++ before.filterMap (s.drainSends key) ∧ u.txFail = more := by
  obtain ⟨fitsBefore, fitsFailing⟩ := drainable_append.mp fits
  have ok : s.txSucceeds (before.filterMap (s.drainSends key)).length := by
    simp [State.txSucceeds, results]
  obtain ⟨t, ht, visits⟩ := drainLoop_visits (n := n + 1) hq hk remain.le wf fitsBefore room ok
  obtain ⟨-, iftab, rt, key', bound⟩ := visits.frame.kept
  have remain' : t.drainI < t.drainN := by rwa [visits.count, bound]
  have left : t.txFail = true :: more := by simp [visits.results, results]
  obtain ⟨u, hu, frame, queue, sent, fails⟩ := drainEntry_failed visits.queue (key'.trans hk)
    (by rwa [iftab, rt]) (by rwa [visits.frame.drainable_eq]) (by rwa [visits.frame.drainSends_eq])
    (by rw [left, List.headD_cons])
  refine ⟨u, ?_, visits.frame.trans frame, queue, sent.trans visits.sent, ?_⟩
  · rw [ht, drainLoop_succ remain', hu, Flow.andThen_ended]
  · rw [fails, left, List.tail_cons]

end Failure

/-- Settles O34: the rounds before the failing one stand, and the fault writes the status alone. -/
theorem failedDrainStaysPartlyDone : Obligations.FailedDrainStaysPartlyDone := by
  intro s key before e after more run wf hq fits room sends results
  have all : s.pq.length = before.length + (after.length + 1) := by simp [hq]
  rw [List.append_cons, drainable_append] at fits
  obtain ⟨u, hu, ⟨same⟩, queue, sent, fails⟩ :=
    drainLoop_failed (s := { s with drainKey := key, drainN := s.pq.length, drainI := 0 })
      (rest := after.map pendingFrame) (n := after.length) (by simp [hq]) rfl
      (by dsimp only; omega) wf fits.1 room sends results
  have drain : drainOp key s = .ended (u.raise .txIo) := by
    rw [drainOp, all, ← hu, all]
  refine ⟨u.raise .txIo, ?_, rfl, rfl, rfl, ?_, sent, fails, ?_, ?_, ?_⟩
  · rw [exec, execPqDrain, whenRunning_running s _ run, drain, Flow.out_ended]
  · rw [List.map_append]
    exact queue
  all_goals rw [same]; rfl

end Sys2Proof.Machine

/-! ## Encoding (family 30_encoding)

SUPPORT. The frame decoder case by case; the operation decoder arm by arm, once as the inverse of the
encoder and once as its right inverse; the six tests of R96 on the bytes of a frame. -/

namespace Sys2Proof

open Sys2Proof.Machine

/-! ### The frame decoder, case by case (R96) -/

section DecodeFrame

variable {b : List Byte}

/-- The EtherType of a byte sequence (R82). -/
def etherType (b : List Byte) : Half := BitVec.ofNat 16 (field b 12 2)

theorem decodeFrame_arp (len : 42 ≤ b.length) (t : etherType b = etherArp) :
    decodeFrame b = .ok (decodeArp b) := by
  have header : ¬ b.length < ethHeaderLen := by unfold ethHeaderLen; omega
  exact (if_neg header).trans ((if_pos t).trans (if_neg len.not_gt))

theorem decodeFrame_ipv4 (len : 42 ≤ b.length) (t : etherType b = etherIpv4) :
    decodeFrame b = .ok (decodeIpv4 b) := by
  have header : ¬ b.length < ethHeaderLen := by unfold ethHeaderLen; omega
  have arp : ¬ etherType b = etherArp := by rw [t]; decide
  exact (if_neg header).trans ((if_neg arp).trans ((if_pos t).trans (if_neg len.not_gt)))

theorem decodeFrame_eth (len : 14 ≤ b.length) (arp : etherType b ≠ etherArp)
    (ipv4 : etherType b ≠ etherIpv4) : decodeFrame b = .ok (.ethRsvd (readEth b)) :=
  (if_neg len.not_gt).trans ((if_neg arp).trans (if_neg ipv4))

/-- A frame of an ARP or IPv4 EtherType, or of none, that ends before its headers do (R104, R225, R226). -/
theorem decodeFrame_runt (len : b.length < 42)
    (t : b.length < 14 ∨ etherType b = etherArp ∨ etherType b = etherIpv4) :
    decodeFrame b = .bad .runtFrame := by
  by_cases header : b.length < ethHeaderLen
  · exact if_pos header
  refine (if_neg header).trans ?_
  by_cases arp : etherType b = etherArp
  · exact (if_pos arp).trans (if_pos len)
  · have ipv4 : etherType b = etherIpv4 := (t.resolve_left header).resolve_left arp
    exact (if_neg arp).trans ((if_pos ipv4).trans (if_pos len))

end DecodeFrame

/-! ### Encoded frames decode (R96) -/

theorem etherType_encodeArp (op : Half) (h : ArpFrame) : etherType (encodeArp op h) = etherArp := by
  rw [etherType, field_of_slice (v := etherArp.toNat) (by simp [encodeArp, beBytes]) (by decide)]
  rfl

theorem etherType_encodeIpv4 (h : Ipv4Frame) : etherType (encodeIpv4 h) = etherIpv4 :=
  ipv4_ethType h 0

theorem etherType_encodeEth (h : EthFrame) : etherType (encodeEth h) = h.etype :=
  congrArg EthFrame.etype (readEth_encode h)

theorem arpOp_encodeArp (op : Half) (h : ArpFrame) :
    (BitVec.ofNat 16 (field (encodeArp op h) 20 2) : Half) = op := by
  rw [field_of_slice (v := op.toNat) (by simp [encodeArp, beBytes]) op.isLt, BitVec.ofNat_toNat,
    BitVec.setWidth_eq]

/-- The class of an ARP frame by its operation (R96 rows 1 to 3). -/
def arpInstr (op : Half) (h : ArpFrame) : Instr :=
  if op = 1 then .arpRequest h else if op = 2 then .arpReply h else .arpRsvd op h

theorem decodeArp_eq (b : List Byte) :
    decodeArp b = arpInstr (BitVec.ofNat 16 (field b 20 2)) (readArp b) := rfl

theorem decodeFrame_encodeArp (op : Half) (h : ArpFrame) :
    decodeFrame (encodeArp op h) = .ok (arpInstr op h) := by
  rw [decodeFrame_arp (by simp) (etherType_encodeArp op h), decodeArp_eq, arpOp_encodeArp,
    readArp_encode]

theorem decodeFrame_encodeIpv4 (h : Ipv4Frame) :
    decodeFrame (encodeIpv4 h) = .ok (if h.isEcho then .ipv4EchoReq h else .ipv4 h) := by
  rw [decodeFrame_ipv4 (by simp) (etherType_encodeIpv4 h), decodeIpv4, readIpv4_encode]

theorem etherReserved_iff (t : Half) : etherReserved t = true ↔ t ≠ etherArp ∧ t ≠ etherIpv4 := by
  simp [etherReserved, etherArp, etherIpv4]

theorem arpOpReserved_iff (op : Half) : arpOpReserved op = true ↔ op ≠ 1 ∧ op ≠ 2 := by
  simp [arpOpReserved]

theorem decodeFrame_encodeEth (h : EthFrame) (reserved : etherReserved h.etype = true) :
    decodeFrame (encodeEth h) = .ok (.ethRsvd h) := by
  obtain ⟨arp, ipv4⟩ := (etherReserved_iff _).mp reserved
  rw [← etherType_encodeEth h] at arp ipv4
  rw [decodeFrame_eth (by simp) arp ipv4, readEth_encode]

/-! ### Encoded operation words decode (R98, R99; operand layout log 4) -/

/-- An operand held in a bit vector of its width. -/
@[simp] theorem operand_toNat_append {n w : Nat} (hw : 2 ^ w = 256 ^ n) (v : BitVec w)
    (rest : List Byte) (k : Nat → List Byte → Decoded) :
    operand n (beBytes n v.toNat ++ rest) k = k v.toNat rest := by
  rw [operand_append, Nat.mod_eq_of_lt (hw ▸ v.isLt)]

/-- The last operand of a word. -/
@[simp] theorem operand_toNat {n w : Nat} (hw : 2 ^ w = 256 ^ n) (v : BitVec w)
    (k : Nat → List Byte → Decoded) : operand n (beBytes n v.toNat) k = k v.toNat [] := by
  simpa only [List.append_nil] using operand_toNat_append hw v [] k

/-- A number of 32 bits as the last operand of a word. -/
@[simp] theorem operand_fits32 {v : Nat} (fits : fits32 v = true) (k : Nat → List Byte → Decoded) :
    operand 4 (beBytes 4 v) k = k v [] := by
  have lt : v < 256 ^ 4 := by simpa [fits32] using fits
  simpa only [List.append_nil, Nat.mod_eq_of_lt lt] using operand_append 4 v [] k

/-- A byte as the last operand of a word. -/
@[simp] theorem operand_singleton (v : Byte) (k : Nat → List Byte → Decoded) :
    operand 1 [v] k = k v.toNat [] := by
  rw [operand, if_neg (by simp), List.take_succ_cons, List.take_zero, beNat_singleton]
  rfl

@[simp] theorem synthRegOperand_cons {x : FrameReg} (ok : synthReg x = true) (rest : List Byte)
    (k : FrameReg → List Byte → Decoded) : synthRegOperand (encodeReg x :: rest) k = k x rest := by
  rw [synthRegOperand, regOperand_cons, if_pos ok]

/-- A table as the last operand of a word. -/
@[simp] theorem tableOperand_encodeTable {rs : List Route} (ok : tableEncodable rs = true)
    (k : List Route → List Byte → Decoded) : tableOperand (encodeTable rs) k = k rs [] := by
  simpa only [List.append_nil] using tableOperand_append rs ok [] k

/-- A byte sequence as the last operand of a word. -/
@[simp] theorem bytesOperand_encodeBytes {bs : List Byte} (ok : fits32 bs.length = true)
    (k : List Byte → List Byte → Decoded) : bytesOperand (encodeBytes bs) k = k bs [] := by
  simpa only [List.append_nil] using bytesOperand_append bs ok [] k

/-- Each operation reads from its word, operand by operand, what the encoder wrote, and nothing is left. -/
theorem decodeOp_encode (i : Instr) (wf : i.wellFormed = true) (port : i.port = .op) :
    decodeOp (encode i) = .ok i := by
  cases i with
  | arpRequest | arpReply | arpRsvd | ipv4EchoReq | ipv4 | ethRsvd => cases port
  | icmpEchoReply | icmpTimeExceeded | pqDeq | pqSize | l2Filter | frameStep | rx | hostStart
  | hostReset => rfl
  | pqEnq x | tx x => exact regOperand_cons x [] _
  | lpmLookup | arpcLookup | pqDrain | csumIncr | arpcInsert => simp [encode, decodeOp]
  | icmpDestUnreach | icmpSynth | lpmBuild | csum | csumVerify | ifMac | ifIp | arpReqEmit =>
    simp only [Instr.wellFormed] at wf
    simp [encode, decodeOp, wf]
  | hostLoadRoutes entries =>
    cases entries with
    | none => rfl
    | some rs => exact tableOperand_encodeTable wf _

/-! ### The frame classes of well-formed instructions -/

theorem decodeFrame_encode (i : Instr) (wf : i.wellFormed = true) (port : i.port = .rx) :
    decodeFrame (encode i) = .ok i := by
  cases i with
  | arpRequest h => exact decodeFrame_encodeArp 1 h
  | arpReply h => exact decodeFrame_encodeArp 2 h
  | arpRsvd op h =>
    obtain ⟨request, reply⟩ := (arpOpReserved_iff op).mp wf
    exact (decodeFrame_encodeArp op h).trans (by rw [arpInstr, if_neg request, if_neg reply])
  | ipv4EchoReq h => exact (decodeFrame_encodeIpv4 h).trans (congrArg Decoded.ok (if_pos wf))
  | ipv4 h =>
    have echo : ¬ h.isEcho = true := by simpa [Instr.wellFormed] using wf
    exact (decodeFrame_encodeIpv4 h).trans (congrArg Decoded.ok (if_neg echo))
  | ethRsvd h => exact decodeFrame_encodeEth h wf
  | _ => cases port

/-- Settles O1, frame classes by the fields read back, operations by the operands read back. -/
theorem decodeInvertsEncode : Obligations.DecodeInvertsEncode := by
  intro i wf
  cases port : i.port with
  | rx => exact decodeFrame_encode i wf port
  | op => exact decodeOp_encode i wf port

/-! ### What decodes is the word of its instruction (R82 to R99) -/

theorem decodeArp_wellFormed (b : List Byte) : (decodeArp b).wellFormed = true := by
  rw [decodeArp_eq, arpInstr]
  split
  · rfl
  split
  · rfl
  next request reply => exact (arpOpReserved_iff _).mpr ⟨request, reply⟩

theorem decodeIpv4_wellFormed (b : List Byte) : (decodeIpv4 b).wellFormed = true := by
  unfold decodeIpv4
  dsimp only
  split
  next echo => exact echo
  next echo => simpa [Instr.wellFormed] using echo

/-- A frame that decodes is taken apart as an ARP, an IPv4 or a reserved-EtherType frame. -/
theorem decodeFrame_ok_cases {b : List Byte} {i : Instr} (h : decodeFrame b = .ok i) :
    i = decodeArp b ∨ i = decodeIpv4 b ∨
      (etherType b ≠ etherArp ∧ etherType b ≠ etherIpv4 ∧ i = .ethRsvd (readEth b)) := by
  have runt {p : Prop} (len : b.length < 42)
      (t : b.length < 14 ∨ etherType b = etherArp ∨ etherType b = etherIpv4) : p := by
    rw [decodeFrame_runt len t] at h
    cases h
  have ok {j : Instr} (e : decodeFrame b = .ok j) : i = j := by
    rw [h] at e
    exact Decoded.ok.inj e
  by_cases arp : etherType b = etherArp
  · obtain len | len := Nat.lt_or_ge b.length 42
    · exact runt len (.inr (.inl arp))
    · exact .inl (ok (decodeFrame_arp len arp))
  by_cases ipv4 : etherType b = etherIpv4
  · obtain len | len := Nat.lt_or_ge b.length 42
    · exact runt len (.inr (.inr ipv4))
    · exact .inr (.inl (ok (decodeFrame_ipv4 len ipv4)))
  obtain len | len := Nat.lt_or_ge b.length 14
  · exact runt (by omega) (.inl len)
  · exact .inr (.inr ⟨arp, ipv4, ok (decodeFrame_eth len arp ipv4)⟩)

/-- Settles O2: the writer puts back every field the reader took. -/
theorem frameDecodeLosesNoBit : Obligations.FrameDecodeLosesNoBit := by
  intro b i h
  refine ⟨?_, decodeFrame_ok h⟩
  obtain rfl | rfl | ⟨arp, ipv4, rfl⟩ := decodeFrame_ok_cases h
  · exact decodeArp_wellFormed b
  · exact decodeIpv4_wellFormed b
  · exact (etherReserved_iff _).mpr ⟨arp, ipv4⟩

/-- What a word decodes to, read on from `rest` after the bytes `pre`, is well formed and has that word. -/
def Decoded.Lossless (pre rest : List Byte) (d : Decoded) : Prop :=
  ∀ i, d = .ok i → i.wellFormed = true ∧ i.port = .op ∧ encode i = pre ++ rest

section Lossless

variable {pre rest : List Byte} {n : Nat}

theorem endWord_lossless {i : Instr} (wf : i.wellFormed = true) (port : i.port = .op)
    (word : encode i = pre) : (endWord i rest).Lossless pre rest := by
  intro j h
  obtain ⟨rfl, rfl⟩ := endWord_ok h
  exact ⟨wf, port, by rw [word, List.append_nil]⟩

theorem operand_lossless {k : Nat → List Byte → Decoded}
    (h : ∀ v rest, v < 256 ^ n → (k v rest).Lossless (pre ++ beBytes n v) rest) :
    (operand n rest k).Lossless pre rest := by
  intro i e
  obtain ⟨v, rest, lt, rfl, taken⟩ := operand_ok e
  simpa only [List.append_assoc] using h v rest lt i taken

theorem regOperand_lossless {k : FrameReg → List Byte → Decoded}
    (h : ∀ x rest, (k x rest).Lossless (pre ++ [encodeReg x]) rest) :
    (regOperand rest k).Lossless pre rest := by
  intro i e
  obtain ⟨x, rest, rfl, taken⟩ := regOperand_ok e
  simpa only [List.append_assoc, List.singleton_append] using h x rest i taken

theorem synthRegOperand_lossless {k : FrameReg → List Byte → Decoded}
    (h : ∀ x rest, synthReg x = true → (k x rest).Lossless (pre ++ [encodeReg x]) rest) :
    (synthRegOperand rest k).Lossless pre rest := by
  refine regOperand_lossless fun x rest => ?_
  split
  next ok => exact h x rest ok
  next => exact nofun

theorem tableOperand_lossless {k : List Route → List Byte → Decoded}
    (h : ∀ rs rest, tableEncodable rs = true → (k rs rest).Lossless (pre ++ encodeTable rs) rest) :
    (tableOperand rest k).Lossless pre rest := by
  intro i e
  obtain ⟨rs, rest, ok, rfl, taken⟩ := tableOperand_ok e
  simpa only [List.append_assoc] using h rs rest ok i taken

theorem bytesOperand_lossless {k : List Byte → List Byte → Decoded}
    (h : ∀ bs rest, fits32 bs.length = true → (k bs rest).Lossless (pre ++ encodeBytes bs) rest) :
    (bytesOperand rest k).Lossless pre rest := by
  intro i e
  obtain ⟨bs, rest, ok, rfl, taken⟩ := bytesOperand_ok e
  simpa only [List.append_assoc] using h bs rest ok i taken

end Lossless

theorem beBytes_ofNat {n w v : Nat} (hw : 2 ^ w = 256 ^ n) (lt : v < 256 ^ n) :
    beBytes n (BitVec.ofNat w v).toNat = beBytes n v := by
  rw [BitVec.toNat_ofNat, hw, Nat.mod_eq_of_lt lt]

theorem byte_eq_of_toNat {c : Byte} {n : Nat} (h : c.toNat = n) : c = BitVec.ofNat 8 n := by
  rw [← h, BitVec.ofNat_toNat, BitVec.setWidth_eq]

theorem fits32_of_lt {v : Nat} (lt : v < 256 ^ 4) : fits32 v = true := decide_eq_true lt

/-- Each arm of the operation decoder, in its order, puts back the code and the operands it took. -/
theorem decodeOp_cons_lossless (c : Byte) (b : List Byte) : (decodeOp (c :: b)).Lossless [c] b := by
  dsimp only [decodeOp]
  split
  case h_26 => exact nofun
  all_goals rename_i code; obtain rfl := byte_eq_of_toNat code
  · -- `ICMP.ECHO_REPLY`
    exact endWord_lossless rfl rfl rfl
  · -- `ICMP.DEST_UNREACH`
    exact synthRegOperand_lossless fun _ _ ok => endWord_lossless ok rfl rfl
  · -- `ICMP.TIME_EXCEEDED`
    exact endWord_lossless rfl rfl rfl
  · -- `LPM.BUILD`
    exact tableOperand_lossless fun _ _ ok => endWord_lossless ok rfl rfl
  · -- `LPM.LOOKUP`
    exact operand_lossless fun _ _ lt =>
      endWord_lossless rfl rfl (congrArg _ (beBytes_ofNat rfl lt))
  · -- `CSUM`
    exact bytesOperand_lossless fun _ _ ok => endWord_lossless ok rfl rfl
  · -- `CSUM.VERIFY`
    exact bytesOperand_lossless fun _ _ ok => endWord_lossless ok rfl rfl
  · -- `CSUM.INCR`
    exact operand_lossless fun _ _ ltSum => operand_lossless fun _ _ ltOld =>
      operand_lossless fun _ _ ltNew => endWord_lossless rfl rfl (by
        rw [encode, beBytes_ofNat rfl ltSum, beBytes_ofNat rfl ltOld, beBytes_ofNat rfl ltNew]
        rfl)
  · -- `ICMP.SYNTH`
    exact synthRegOperand_lossless fun _ _ ok => operand_lossless fun _ _ _ =>
      endWord_lossless ok rfl (by simp [encode, beBytes])
  · -- `ARPC.LOOKUP`
    exact operand_lossless fun _ _ lt =>
      endWord_lossless rfl rfl (congrArg _ (beBytes_ofNat rfl lt))
  · -- `ARPC.INSERT`
    exact operand_lossless fun _ _ ltIp => operand_lossless fun _ _ ltMac =>
      endWord_lossless rfl rfl (by
        rw [encode, beBytes_ofNat rfl ltIp, beBytes_ofNat rfl ltMac]
        rfl)
  · -- `PQ.ENQ`
    exact regOperand_lossless fun _ _ => endWord_lossless rfl rfl rfl
  · -- `PQ.DEQ`
    exact endWord_lossless rfl rfl rfl
  · -- `PQ.SIZE`
    exact endWord_lossless rfl rfl rfl
  · -- `PQ.DRAIN`
    exact operand_lossless fun _ _ lt =>
      endWord_lossless rfl rfl (congrArg _ (beBytes_ofNat rfl lt))
  · -- `ARP.REQ.EMIT`
    exact operand_lossless fun _ _ ltHop => operand_lossless fun _ _ ltIface =>
      endWord_lossless (fits32_of_lt ltIface) rfl (by
        rw [encode, beBytes_ofNat rfl ltHop]
        rfl)
  · -- `L2.FILTER`
    exact endWord_lossless rfl rfl rfl
  · -- `FRAME.STEP`
    exact endWord_lossless rfl rfl rfl
  · -- `RX`
    exact endWord_lossless rfl rfl rfl
  · -- `TX`
    exact regOperand_lossless fun _ _ => endWord_lossless rfl rfl rfl
  · -- `IF.MAC`
    exact operand_lossless fun _ _ lt => endWord_lossless (fits32_of_lt lt) rfl rfl
  · -- `IF.IP`
    exact operand_lossless fun _ _ lt => endWord_lossless (fits32_of_lt lt) rfl rfl
  · -- `HOST.LOAD_ROUTES`
    refine operand_lossless fun tag _ _ => ?_
    split
    next entries =>
      subst entries
      exact tableOperand_lossless fun _ _ ok => endWord_lossless ok rfl rfl
    split
    next error =>
      subst error
      exact endWord_lossless rfl rfl rfl
    next => exact nofun
  · -- `HOST.START`
    exact endWord_lossless rfl rfl rfl
  · -- `HOST.RESET`
    exact endWord_lossless rfl rfl rfl

/-- Settles O3: every operand the decoder takes stands in the word as the encoder writes it. -/
theorem operationDecodeLosesNoBit : Obligations.OperationDecodeLosesNoBit := by
  intro b i h
  cases b with
  | nil => cases h
  | cons c b => exact decodeOp_cons_lossless c b i h

/-- Settles O7: a code of a listed operation is in the list, and the last arm of the decoder refuses. -/
theorem reservedOperationCodesAreRefused : Obligations.ReservedOperationCodesAreRefused := by
  intro c b reserved
  dsimp only [decodeOp]
  split
  case h_26 => rfl
  all_goals
    rename_i code
    exact absurd (byte_eq_of_toNat code ▸ by decide) reserved

/-- Settles O6: closed words, run through the decoder. -/
theorem specWordsDecode : Obligations.SpecWordsDecode := by
  unfold Obligations.SpecWordsDecode
  decide +kernel

end Sys2Proof

namespace Sys2Proof

open Sys2Proof.Machine

/-! ### The six tests of R96 -/

/-- The tests of R96 in order, on the EtherType, the ARP operation, the protocol and the ICMP type. -/
def classOf (type op : Half) (proto icmp : Byte) : FrameClass :=
  if type = etherArp then
    if op = 1 then .arpRequest else if op = 2 then .arpReply else .arpRsvd
  else if type = etherIpv4 then
    if proto = 1 ∧ icmp = 8 then .ipv4EchoReq else .ipv4
  else .ethRsvd

/-- The class of a byte sequence by the tests of R96. -/
def frameClassOf (b : List Byte) : FrameClass :=
  classOf (etherType b) (BitVec.ofNat 16 (field b 20 2)) (byteAt b 23) (byteAt b 34)

theorem decodeArp_frameClass {b : List Byte} (t : etherType b = etherArp) :
    (decodeArp b).frameClass = some (frameClassOf b) := by
  rw [decodeArp_eq, arpInstr, frameClassOf, classOf, if_pos t]
  rw [apply_ite Instr.frameClass, apply_ite Instr.frameClass, apply_ite some, apply_ite some]
  rfl

theorem decodeIpv4_frameClass {b : List Byte} (t : etherType b = etherIpv4) :
    (decodeIpv4 b).frameClass = some (frameClassOf b) := by
  have arp : etherType b ≠ etherArp := by rw [t]; decide
  have echo : (readIpv4 b).isEcho = true ↔ byteAt b 23 = 1 ∧ byteAt b 34 = 8 := by
    simp [Ipv4Frame.isEcho, readIpv4]
  rw [frameClassOf, classOf, if_neg arp, if_pos t, apply_ite some, decodeIpv4,
    apply_ite Instr.frameClass]
  exact if_congr echo rfl rfl

/-- A frame of at least 42 bytes decodes to the class of the tests (R96). -/
theorem decodeFrame_frameClass {b : List Byte} (len : 42 ≤ b.length) :
    ∃ i, decodeFrame b = .ok i ∧ i.frameClass = some (frameClassOf b) := by
  by_cases arp : etherType b = etherArp
  · exact ⟨_, decodeFrame_arp len arp, decodeArp_frameClass arp⟩
  by_cases ipv4 : etherType b = etherIpv4
  · exact ⟨_, decodeFrame_ipv4 len ipv4, decodeIpv4_frameClass ipv4⟩
  · refine ⟨_, decodeFrame_eth (by omega) arp ipv4, ?_⟩
    rw [frameClassOf, classOf, if_neg arp, if_neg ipv4, Instr.frameClass]

/-! ### The tests on single bytes -/

theorem byteAt_eq_iff {b : List Byte} {off : Nat} (h : off < b.length) (x : Byte) :
    byteAt b off = x ↔ b[off]? = some x := by
  simp [byteAt, h]

/-- A two-byte field, its first byte high (R12). -/
theorem ofNat_field_two {b : List Byte} {off : Nat} (h : off + 1 < b.length) :
    (BitVec.ofNat 16 (field b off 2) : Half) = byteAt b off ++ byteAt b (off + 1) := by
  rw [field, ← slice_join b off 1 1, ← byteAt_slice (by omega), ← byteAt_slice h, beNat_append,
    beNat_singleton, beNat_singleton, List.length_singleton, Nat.pow_one, ← ttlWord_toNat,
    BitVec.ofNat_toNat, BitVec.setWidth_eq]

theorem bitVec_append_inj {u v : Nat} {x x' : BitVec u} {y y' : BitVec v} :
    x ++ y = x' ++ y' ↔ x = x' ∧ y = y' := by
  constructor
  · intro h
    have hi := congrArg (BitVec.extractLsb' v u) h
    have lo := congrArg (BitVec.extractLsb' 0 v) h
    rw [BitVec.extractLsb'_append_eq_left, BitVec.extractLsb'_append_eq_left] at hi
    rw [BitVec.extractLsb'_append_eq_right, BitVec.extractLsb'_append_eq_right] at lo
    exact ⟨hi, lo⟩
  · rintro ⟨rfl, rfl⟩
    rfl

theorem ofNat_field_two_eq_iff {b : List Byte} {off : Nat} (h : off + 1 < b.length) (hi lo : Byte) :
    (BitVec.ofNat 16 (field b off 2) : Half) = hi ++ lo ↔ b[off]? = some hi ∧ b[off + 1]? = some lo := by
  rw [ofNat_field_two h, bitVec_append_inj, byteAt_eq_iff (by omega), byteAt_eq_iff h]

theorem etherType_eq_arp_iff {b : List Byte} (len : 14 ≤ b.length) :
    etherType b = etherArp ↔ b[12]? = some 0x08 ∧ b[13]? = some 0x06 :=
  ofNat_field_two_eq_iff len 0x08 0x06

theorem etherType_eq_ipv4_iff {b : List Byte} (len : 14 ≤ b.length) :
    etherType b = etherIpv4 ↔ b[12]? = some 0x08 ∧ b[13]? = some 0x00 :=
  ofNat_field_two_eq_iff len 0x08 0x00

/-- The class by single bytes, as R96 writes the tests. -/
theorem frameClassOf_eq {b : List Byte} (len : 42 ≤ b.length) :
    frameClassOf b =
      if b[12]? = some 0x08 ∧ b[13]? = some 0x06 then
        if b[20]? = some 0x00 ∧ b[21]? = some 0x01 then .arpRequest
        else if b[20]? = some 0x00 ∧ b[21]? = some 0x02 then .arpReply
        else .arpRsvd
      else if b[12]? = some 0x08 ∧ b[13]? = some 0x00 then
        if b[23]? = some 0x01 ∧ b[34]? = some 0x08 then .ipv4EchoReq else .ipv4
      else .ethRsvd := by
  have request : (BitVec.ofNat 16 (field b 20 2) : Half) = 1 ↔
      b[20]? = some 0x00 ∧ b[21]? = some 0x01 := ofNat_field_two_eq_iff (by omega) 0x00 0x01
  have reply : (BitVec.ofNat 16 (field b 20 2) : Half) = 2 ↔
      b[20]? = some 0x00 ∧ b[21]? = some 0x02 := ofNat_field_two_eq_iff (by omega) 0x00 0x02
  have proto := byteAt_eq_iff (b := b) (off := 23) (by omega) 1
  have icmp := byteAt_eq_iff (b := b) (off := 34) (by omega) 8
  simp only [frameClassOf, classOf, etherType_eq_arp_iff (b := b) (by omega),
    etherType_eq_ipv4_iff (b := b) (by omega), request, reply, proto, icmp]

/-- Settles O4: the decoder's case split is the tests of R96, each on the bytes it names. -/
theorem framesAreClassifiedInOrder : Obligations.FramesAreClassifiedInOrder := by
  intro b
  constructor
  · intro len
    rw [← frameClassOf_eq len]
    exact decodeFrame_frameClass len
  · intro short
    by_cases header : 14 ≤ b.length
    · have known : (b[12]? = some 0x08 ∧ (b[13]? = some 0x06 ∨ b[13]? = some 0x00)) ↔
          etherType b = etherArp ∨ etherType b = etherIpv4 := by
        rw [etherType_eq_arp_iff header, etherType_eq_ipv4_iff header, and_or_left]
      by_cases type : etherType b = etherArp ∨ etherType b = etherIpv4
      · rw [if_neg fun h => h.2 (known.mpr type)]
        exact decodeFrame_runt short (.inr type)
      · rw [if_pos ⟨header, mt known.mp type⟩]
        obtain ⟨arp, ipv4⟩ := not_or.mp type
        exact ⟨_, decodeFrame_eth header arp ipv4⟩
    · rw [if_neg fun h => header h.1]
      exact decodeFrame_runt short (.inl (by omega))

/-! ### The masks of the table (R97) -/

/-- The first 42 bytes of a frame, put together of the fields the table masks and what lies between. -/
def window (dst : BitVec 96) (type : Half) (arp : BitVec 48) (op : Half) (ttl proto : Byte)
    (ip : BitVec 80) (icmp : Byte) (rest : BitVec 56) : BitVec 336 :=
  dst ++ type ++ arp ++ op ++ ttl ++ proto ++ ip ++ icmp ++ rest

/-- The rows of the table with each mask and pattern put together of its fields. -/
theorem frameRows_eq : frameRows = [
    ⟨window 0 0xFFFF 0 0xFFFF 0 0 0 0 0, window 0 etherArp 0 1 0 0 0 0 0, .arpRequest⟩,
    ⟨window 0 0xFFFF 0 0xFFFF 0 0 0 0 0, window 0 etherArp 0 2 0 0 0 0 0, .arpReply⟩,
    ⟨window 0 0xFFFF 0 0 0 0 0 0 0, window 0 etherArp 0 0 0 0 0 0 0, .arpRsvd⟩,
    ⟨window 0 0xFFFF 0 0 0 0xFF 0 0xFF 0, window 0 etherIpv4 0 0 0 1 0 8 0, .ipv4EchoReq⟩,
    ⟨window 0 0xFFFF 0 0 0 0 0 0 0, window 0 etherIpv4 0 0 0 0 0 0 0, .ipv4⟩,
    ⟨window 0 0 0 0 0 0 0 0 0, window 0 0 0 0 0 0 0 0 0, .ethRsvd⟩] := by
  decide +kernel

theorem and_append_eq_iff {u v : Nat} {x m p : BitVec u} {y n q : BitVec v} :
    (x ++ y) &&& (m ++ n) = p ++ q ↔ x &&& m = p ∧ y &&& n = q := by
  rw [BitVec.and_append, bitVec_append_inj]

section Table

variable (dst : BitVec 96) (type : Half) (arp : BitVec 48) (op : Half) (ttl proto : Byte)
  (ip : BitVec 80) (icmp : Byte) (rest : BitVec 56)

/-- A row selects by the fields its mask covers, whatever stands in the others. -/
theorem window_and_eq_iff (mType mOp pType pOp : Half) (mProto mIcmp pProto pIcmp : Byte) :
    window dst type arp op ttl proto ip icmp rest &&& window 0 mType 0 mOp 0 mProto 0 mIcmp 0 =
        window 0 pType 0 pOp 0 pProto 0 pIcmp 0 ↔
      type &&& mType = pType ∧ op &&& mOp = pOp ∧ proto &&& mProto = pProto ∧ icmp &&& mIcmp = pIcmp := by
  change (_ : BitVec (96 + 16 + 48 + 16 + 8 + 8 + 80 + 8 + 56)) &&& _ = _ ↔ _
  simp only [window, and_append_eq_iff, and_assoc, BitVec.ofNat_eq_ofNat, BitVec.and_zero, true_and,
    and_true]

theorem half_and_ones (x : Half) : x &&& 0xFFFF = x := BitVec.and_allOnes

theorem byte_and_ones (x : Byte) : x &&& 0xFF = x := BitVec.and_allOnes

theorem classByTable_window :
    classByTable (window dst type arp op ttl proto ip icmp rest) =
      some (classOf type op proto icmp) := by
  have none {w : Nat} (x : BitVec w) : x &&& 0 = 0 := BitVec.and_zero
  have ipv4NotArp : ¬ etherIpv4 = etherArp := by decide
  have replyNotRequest : ¬ (2 : Half) = 1 := by decide
  unfold classByTable classOf
  simp only [frameRows_eq, List.find?_cons, beq_eq_decide, window_and_eq_iff, half_and_ones, byte_and_ones,
    none, true_and, and_true]
  split_ifs with arp request reply ipv4 echo
  all_goals simp only [*, decide_true, decide_false, true_and, false_and, and_self, Option.map_some]

end Table

theorem ofNat_field_one {b : List Byte} {off : Nat} (h : off < b.length) :
    BitVec.ofNat 8 (field b off 1) = byteAt b off := by
  rw [field, ← byteAt_slice h, beNat_singleton, BitVec.ofNat_toNat, BitVec.setWidth_eq]

/-- The first bytes of a frame as a bit vector, the last field of them split off. -/
theorem ofNat_take_add {b : List Byte} {u v n m : Nat} (len : n + m ≤ b.length)
    (hu : u = 8 * n) (hv : v = 8 * m) :
    BitVec.ofNat (u + v) (beNat (b.take (n + m))) =
      BitVec.ofNat u (beNat (b.take n)) ++ BitVec.ofNat v (field b n m) := by
  replace hu : 2 ^ u = 256 ^ n := by rw [hu, pow_mul]; rfl
  replace hv : 2 ^ v = 256 ^ m := by rw [hv, pow_mul]; rfl
  have high : beNat (b.take n) < 2 ^ u := by
    have lt := beNat_lt (b.take n)
    rwa [List.length_take, Nat.min_eq_left (by omega), ← hu] at lt
  have low : field b n m < 2 ^ v := hv ▸ field_lt b n m
  have value : beNat (b.take (n + m)) = beNat (b.take n) * 2 ^ v + field b n m := by
    rw [List.take_add, beNat_append, hv]
    simp [field, Nat.min_eq_left (show m ≤ b.length - n by omega)]
  apply BitVec.eq_of_toNat_eq
  rw [value, BitVec.toNat_append, BitVec.toNat_ofNat, BitVec.toNat_ofNat, BitVec.toNat_ofNat,
    Nat.mod_eq_of_lt high, Nat.mod_eq_of_lt low, Nat.shiftLeft_eq, Nat.mul_comm,
    ← Nat.two_pow_add_eq_or_of_lt low, Nat.mod_eq_of_lt]
  rw [Nat.pow_add]
  nlinarith

/-- The first 42 bytes of a frame, cut at the fields the table masks. -/
theorem window_eq {b : List Byte} (len : 42 ≤ b.length) :
    BitVec.ofNat 336 (beNat (b.take 42)) =
      window (.ofNat 96 (field b 0 12)) (etherType b) (.ofNat 48 (field b 14 6))
        (.ofNat 16 (field b 20 2)) (byteAt b 22) (byteAt b 23) (.ofNat 80 (field b 24 10))
        (byteAt b 34) (.ofNat 56 (field b 35 7)) := by
  change BitVec.ofNat (96 + 16 + 48 + 16 + 8 + 8 + 80 + 8 + 56)
    (beNat (b.take (12 + 2 + 6 + 2 + 1 + 1 + 10 + 1 + 7))) = _
  iterate 8 rw [ofNat_take_add (by omega) (by decide) (by decide)]
  rw [← ofNat_field_one (off := 22) (by omega), ← ofNat_field_one (off := 23) (by omega),
    ← ofNat_field_one (off := 34) (by omega)]
  rfl

/-- Settles O5: each row's mask cuts out the fields that the test of its class reads. -/
theorem tableMasksSelectTheClass : Obligations.TableMasksSelectTheClass := by
  intro b i len h
  obtain ⟨j, decodes, cls⟩ := decodeFrame_frameClass len
  obtain rfl : i = j := Decoded.ok.inj (h.symm.trans decodes)
  rw [cls, window_eq len, classByTable_window, frameClassOf]

end Sys2Proof

namespace Sys2Proof.Machine

/-! ### What ignores the frame register `F` (R85, R199) -/

/-- The state with another frame in `F`. -/
def State.withF (s : State) (y : Frame) : State := { s with f := y }

@[simp] theorem State.withF_cfg (s : State) (y : Frame) : (s.withF y).cfg = s.cfg := rfl
@[simp] theorem State.withF_drainKey (s : State) (y : Frame) : (s.withF y).drainKey = s.drainKey := rfl
@[simp] theorem State.withF_curRoute (s : State) (y : Frame) : (s.withF y).curRoute = s.curRoute := rfl
@[simp] theorem State.withF_arpc (s : State) (y : Frame) : (s.withF y).arpc = s.arpc := rfl
@[simp] theorem State.withF_pq (s : State) (y : Frame) : (s.withF y).pq = s.pq := rfl
@[simp] theorem State.withF_ifRow (s : State) (y : Frame) (i : Nat) :
    (s.withF y).ifRow i = s.ifRow i := rfl

/-- What a part of a step ends in, with another frame in `F`. -/
def Flow.withF (y : Frame) : Flow → Flow
  | .go s => .go (s.withF y)
  | .ended s => .ended (s.withF y)
  | .fault r => .fault r
  | .refused r => .refused r

/-- The operation neither reads nor writes `F`. -/
def IgnoresF (op : State → Flow) : Prop := ∀ (s : State) (y : Frame), op (s.withF y) = (op s).withF y

section IgnoringF

variable {s : State} {y : Frame}

/-- Two parts of a step of which the first answers the same but for `F`. -/
theorem andThen_withF {x x' : Flow} {k : State → Flow} (hx : x' = x.withF y) (hk : IgnoresF k) :
    x'.andThen k = (x.andThen k).withF y := by
  subst hx
  cases x with
  | go t => exact hk t y
  | ended t | fault r | refused r => rfl

theorem IgnoresF.andThen {op k : State → Flow} (hop : IgnoresF op) (hk : IgnoresF k) :
    IgnoresF fun s => (op s).andThen k := fun s y => andThen_withF (hop s y) hk

theorem ite_withF {c : Prop} [Decidable c] {x x' z z' : Flow} (hx : x' = x.withF y)
    (hz : z' = z.withF y) : (if c then x' else z') = (if c then x else z).withF y := by
  rw [hx, hz, apply_ite (Flow.withF y)]

theorem lookupOp_ignoresF (d : Ip) : IgnoresF (lookupOp d) := fun _ _ => ite_withF rfl rfl

theorem synthOp_P_ignoresF (t : Byte) : IgnoresF (synthOp .P t) := fun _ _ => ite_withF rfl rfl

theorem txFrame_ignoresF (fr : Frame) : IgnoresF (txFrame fr) := fun _ _ =>
  ite_withF (ite_withF rfl rfl) rfl

theorem pqEnqOp_ignoresF (fr : Frame) : IgnoresF (pqEnqOp fr) := fun _ _ => ite_withF rfl rfl

theorem pqDeqOp_ignoresF : IgnoresF pqDeqOp := by
  intro s y
  unfold pqDeqOp
  rw [State.withF_pq]
  cases s.pq <;> rfl

theorem arpInsertOp_ignoresF (a : Ip) (m : Mac) : IgnoresF (arpInsertOp a m) := by
  intro s y
  unfold arpInsertOp
  rw [State.withF_arpc, State.withF_cfg]
  cases arpLookup s.arpc a with
  | some _ => cases s.cfg.arpDupPolicy <;> rfl
  | none => exact ite_withF rfl rfl

theorem disposeUnreach_ignoresF : IgnoresF disposeUnreach :=
  (synthOp_P_ignoresF 0x03).andThen fun s y =>
    andThen_withF (txFrame_ignoresF s.p s y) fun _ _ => rfl

theorem disposeRelease_ignoresF (r : Route) (mac : Mac) : IgnoresF (disposeRelease r mac) := by
  intro s y
  unfold disposeRelease
  rw [State.withF_ifRow]
  cases s.ifRow r.iface with
  | none => rfl
  | some row =>
    let out := releaseFrame s.cfg.drainRewriteSrc row.mac mac r s.p
    exact andThen_withF (txFrame_ignoresF out { s with p := out } y) fun _ _ => rfl

theorem disposeKeep_ignoresF : IgnoresF disposeKeep := fun s y =>
  andThen_withF (pqEnqOp_ignoresF s.p s y) fun _ _ => rfl

theorem disposeRouted_ignoresF (r : Route) : IgnoresF (disposeRouted r) := by
  intro s y
  rw [disposeRouted_eq, disposeRouted_eq, State.withF_arpc, State.withF_drainKey]
  cases arpLookup s.arpc s.drainKey with
  | none => exact disposeKeep_ignoresF { s with curMac := none } y
  | some mac =>
    exact ite_withF (disposeRelease_ignoresF r mac { s with curMac := some mac } y)
      (disposeKeep_ignoresF { s with curMac := some mac } y)

theorem disposeOp_ignoresF : IgnoresF disposeOp := by
  intro s y
  refine ite_withF rfl (andThen_withF
    (lookupOp_ignoresF s.p.ipDst { s with curDst := s.p.ipDst } y) fun t z => ?_)
  rw [State.withF_curRoute]
  cases t.curRoute with
  | none => exact disposeUnreach_ignoresF t z
  | some r => exact disposeRouted_ignoresF r t z

theorem drainEntry_ignoresF : IgnoresF drainEntry := fun s y =>
  andThen_withF (pqDeqOp_ignoresF (s.enter .sDrainEntry) y) fun s y =>
    disposeOp_ignoresF { s with drainI := s.drainI + 1 } y

theorem drainLoop_ignoresF (n : Nat) : IgnoresF (drainLoop n) := by
  induction n with
  | zero => exact fun _ _ => rfl
  | succ n ih =>
    exact fun s y => ite_withF (andThen_withF (drainEntry_ignoresF (s.enter .sDrainNext) y) ih) rfl

theorem drainOp_ignoresF (key : Ip) : IgnoresF (drainOp key) := fun s y =>
  drainLoop_ignoresF s.pq.length { s with drainKey := key, drainN := s.pq.length, drainI := 0 } y

end IgnoringF

/-- A reply is its sender addresses, on the state with the reply in `F`. -/
theorem arpReplyFlow_encode (s : State) (h : ArpFrame) :
    arpReplyFlow ((s.loadF (encodeArp 2 h)).enter .sArpOp) =
      (((arpInsertOp h.spa h.sha ((s.enter .sArpOp).enter .sArpLearn)).andThen fun t =>
        (drainOp h.spa t).andThen fun u =>
          .ended { u with outcomes := u.outcomes ++ [.arpLearned] })).withF
            ⟨encodeArp 2 h, s.f.iface⟩ := by
  unfold arpReplyFlow
  simp only [State.enter_f, State.loadF_f, arp_arpSpa, arp_arpSha]
  exact andThen_withF (arpInsertOp_ignoresF h.spa h.sha ((s.enter .sArpOp).enter .sArpLearn) _)
    ((drainOp_ignoresF h.spa).andThen fun _ _ => rfl)

theorem blankF_out_withF (x : Flow) (y : Frame) : Out.blankF (x.withF y).out = Out.blankF x.out := by
  cases x <;> rfl

/-- Settles O38: insert and drain read the sender addresses and never `F`. -/
theorem arpReplyReadsSenderFieldsOnly : Obligations.ArpReplyReadsSenderFieldsOnly := by
  intro s h k spa sha
  dsimp only [exec, execArpReply]
  by_cases run : s.runState = .running
  · rw [whenRunning_running s _ run, whenRunning_running s _ run, arpReplyFlow_encode,
      arpReplyFlow_encode, blankF_out_withF, blankF_out_withF, spa, sha]
  · rw [whenRunning_not_running s _ run, whenRunning_not_running s _ run]

end Sys2Proof.Machine

/-! ## Lookup (family 41_lpm_lookup)

SUPPORT. What a lookup answers is said once (`Answers`, R130 with R123) and has one value only. The scan
of R122 answers it by induction on the table from its end; the trie of R127 answers it because the mark
at a path is the first Route inserted there. -/

namespace Sys2Proof.Machine

/-! ### Masks and well-formed tables (R30, R31, R121, R124) -/

/-- The contiguous mask of length `l` has its `l` top bits set (R30). -/
theorem getLsbD_maskOf (l i : Nat) : (maskOf l).getLsbD i = (decide (i < 32) && decide (32 - l ≤ i)) := by
  have pos : 0 < 2 ^ (32 - l) := Nat.two_pow_pos _
  have le : 2 ^ (32 - l) ≤ 2 ^ 32 := Nat.pow_le_pow_right (by decide) (Nat.sub_le 32 l)
  rw [maskOf, BitVec.getLsbD_ofNat, ← Nat.sub_add_cancel pos,
    Nat.testBit_two_pow_sub_succ (by omega), Nat.testBit_two_pow_sub_one]
  simp only [← decide_not, Nat.not_lt, Bool.and_self_left]

theorem getMsbD_maskOf {l k : Nat} (hl : l ≤ 32) (hk : k < 32) :
    (maskOf l).getMsbD k = decide (k < l) := by
  rw [BitVec.getMsbD_eq_getLsbD, getLsbD_maskOf]
  rw [← Bool.decide_and, ← Bool.decide_and]
  exact decide_eq_decide.mpr (by omega)

theorem countP_le_range (m n : Nat) : (List.range n).countP (fun k => decide (m ≤ k)) = n - m := by
  induction n with
  | zero => simp
  | succ n ih =>
    rw [List.range_succ, List.countP_append, ih, List.countP_singleton]
    simp only [decide_eq_true_eq]
    split <;> omega

/-- The one bits of a contiguous mask are as many as its length (R124). -/
theorem maskLen_maskOf {l : Nat} (hl : l ≤ 32) : maskLen (maskOf l) = l := by
  have bits : maskLen (maskOf l) = (List.range 32).countP fun k => decide (32 - l ≤ k) :=
    List.countP_congr fun k hk => by
      rw [getLsbD_maskOf, decide_eq_true (List.mem_range.mp hk), Bool.true_and]
  rw [bits, countP_le_range, Nat.sub_sub_self hl]

/-- Longer contiguous masks are larger numbers (R124). -/
theorem maskOf_lt_maskOf {l k : Nat} (hl : l ≤ 32) (hk : k ≤ 32) : maskOf k < maskOf l ↔ k < l := by
  have value (n : Nat) : (maskOf n).toNat = 2 ^ 32 - 2 ^ (32 - n) :=
    (BitVec.toNat_ofNat _ _).trans (Nat.mod_eq_of_lt (Nat.sub_lt (by decide) (Nat.two_pow_pos _)))
  have le (n : Nat) : 2 ^ (32 - n) ≤ 2 ^ 32 := Nat.pow_le_pow_right (by decide) (Nat.sub_le 32 n)
  have lt : 2 ^ (32 - l) < 2 ^ (32 - k) ↔ 32 - l < 32 - k := Nat.pow_lt_pow_iff_right (by decide)
  rw [BitVec.lt_def, value, value]
  have := le l
  have := le k
  omega

/-- Settles O21: both the count of one bits and the value of a contiguous mask grow with its length. -/
theorem maskLengthOrdersMasks : Obligations.MaskLengthOrdersMasks := by
  intro l k hl hk
  refine ⟨maskLen_maskOf hl, ?_⟩
  rw [maskLen_maskOf hl, maskLen_maskOf hk, maskOf_lt_maskOf hl hk]

theorem contiguous_iff (m : Ip) : contiguous m = true ↔ ∃ l ≤ 32, m = maskOf l := by
  simp [contiguous, List.any_eq_true, Nat.lt_succ_iff]

theorem routeWf_iff (n : Nat) (r : Route) : routeWf n r = true ↔
    (∃ l ≤ 32, r.mask = maskOf l) ∧ r.pfx = r.pfx &&& r.mask ∧ r.iface < n := by
  simp [routeWf, contiguous_iff, and_assoc]

theorem tableWf_iff (n : Nat) (rt : List Route) : tableWf n rt = true ↔
    ∀ r ∈ rt, (∃ l ≤ 32, r.mask = maskOf l) ∧ r.pfx = r.pfx &&& r.mask ∧ r.iface < n := by
  simp only [tableWf, List.all_eq_true, routeWf_iff]

theorem atMost_iff (n : Nat) (d : Option Nat) : atMost n d = true ↔ ∀ m, d = some m → n ≤ m := by
  cases d <;> simp [atMost]

/-- A table the engine accepts, in the words of R121 and R31. -/
theorem loadable_iff (s : State) (entries : List Route) : s.loadable entries = true ↔
    (∀ r ∈ entries, (∃ l ≤ 32, r.mask = maskOf l) ∧ r.pfx = r.pfx &&& r.mask ∧
      r.iface < s.iftab.length) ∧ ∀ m, s.cfg.maxRoutes = some m → entries.length ≤ m := by
  rw [State.loadable, Bool.and_eq_true, and_comm, tableWf_iff, atMost_iff]
  rfl

/-! ### The operations (R120, R122) -/

/-- Settles O24: `LPM.BUILD` asks just whether the entries are loadable. -/
theorem buildSetsTheTable : Obligations.BuildSetsTheTable := by
  intro s entries un
  have built : exec (.lpmBuild entries) s =
      if s.loadable entries then .next { s with rt := entries } else .refused .illFormedTable :=
    if_pos un
  rw [built]
  exact ⟨fun good => if_pos ((loadable_iff s entries).mpr good),
    fun bad => if_neg fun ok => bad ((loadable_iff s entries).mp ok)⟩

theorem lookupOp_ill_formed {s : State} (d : Ip) (ill : tableWf s.iftab.length s.rt = false) :
    lookupOp d s = .refused .illFormedTable := by
  simp [lookupOp, State.nIf, ill]

/-- Settles O23: the shared lookup writes `cur_route`, and the operation copies it to its result. -/
theorem lookupWritesCurRouteOnly : Obligations.LookupWritesCurRouteOnly := by
  intro s d run
  have running : exec (.lpmLookup d) s =
      ((lookupOp d s).andThen fun t => .go { t with ret := .optRoute t.curRoute }).out :=
    whenRunning_running s _ run
  refine ⟨fun wf => ?_, fun ill => ?_⟩
  · rw [running, lookupOp_wf s d wf, Flow.andThen_go, Flow.out_go]
  · rw [running, lookupOp_ill_formed d ill, Flow.andThen_refused, Flow.out_refused]

/-! ### What a lookup answers (R123, R130) -/

theorem routeMatches_iff (d : Ip) (r : Route) : routeMatches d r = true ↔ d &&& r.mask = r.pfx := by
  simp [routeMatches]

/-- The entry at `k` matches, and every entry that matches is shorter, or as long and not before it. -/
structure BestAt (rt : List Route) (d : Ip) (k : Nat) (r : Route) : Prop where
  entry : rt[k]? = some r
  hit : d &&& r.mask = r.pfx
  best : ∀ (j : Nat) (q : Route), rt[j]? = some q → d &&& q.mask = q.pfx →
    maskLen q.mask < maskLen r.mask ∨ (maskLen q.mask = maskLen r.mask ∧ k ≤ j)

/-- R130: the longest match, the first inserted on a tie, or none if none matches. -/
def Answers (rt : List Route) (d : Ip) : Option Route → Prop
  | none => ∀ r ∈ rt, d &&& r.mask ≠ r.pfx
  | some r => ∃ k, BestAt rt d k r

section Answering

variable {rt : List Route} {d : Ip}

/-- No two Routes are both the best: each is then no longer than the other, and not before it. -/
theorem BestAt.unique {k j : Nat} {r q : Route} (hr : BestAt rt d k r) (hq : BestAt rt d j q) :
    r = q := by
  have le := hr.best j q hq.entry hq.hit
  have ge := hq.best k r hr.entry hr.hit
  obtain rfl : k = j := by omega
  exact Option.some.inj (hr.entry.symm.trans hq.entry)

theorem BestAt.not_none {k : Nat} {r : Route} (hr : BestAt rt d k r) : ¬ Answers rt d none :=
  fun no => no r (List.mem_of_getElem? hr.entry) hr.hit

theorem Answers.unique {a b : Option Route} (ha : Answers rt d a) (hb : Answers rt d b) : a = b := by
  cases a with
  | none =>
    cases b with
    | none => rfl
    | some q => exact absurd ha hb.choose_spec.not_none
  | some r =>
    cases b with
    | none => exact absurd hb ha.choose_spec.not_none
    | some q => exact congrArg some (ha.choose_spec.unique hb.choose_spec)

/-! ### The scan (R122) -/

theorem lpmScan_append (xs ys : List Route) (best : Option Route) :
    lpmScan d (xs ++ ys) best = lpmScan d ys (lpmScan d xs best) := by
  induction xs generalizing best with
  | nil => rfl
  | cons r rest ih => exact ih _

/-- The scan of one more entry compares it with the best of those before it. -/
theorem lpmLookup_concat (rt : List Route) (q : Route) (d : Ip) : lpmLookup (rt ++ [q]) d =
    if routeMatches d q then better (lpmLookup rt d) q else lpmLookup rt d :=
  lpmScan_append rt [q] none

theorem getElem?_concat_cases {q x : Route} {j : Nat} (h : (rt ++ [q])[j]? = some x) :
    rt[j]? = some x ∨ (j = rt.length ∧ x = q) := by
  rcases Nat.lt_trichotomy j rt.length with lt | rfl | gt
  · exact .inl (List.getElem?_append_left lt ▸ h)
  · exact .inr ⟨rfl, by simpa using h.symm⟩
  · simp [List.getElem?_eq_none (l := rt ++ [q]) (by simpa using gt)] at h

/-- A best Route stays the best when the entry added does not match or is no longer. -/
theorem BestAt.concat {k : Nat} {r q : Route} (h : BestAt rt d k r)
    (le : d &&& q.mask = q.pfx → maskLen q.mask ≤ maskLen r.mask) : BestAt (rt ++ [q]) d k r where
  entry := List.getElem?_append_left (List.getElem?_eq_some_iff.mp h.entry).1 ▸ h.entry
  hit := h.hit
  best j x hx hit := by
    obtain old | ⟨rfl, rfl⟩ := getElem?_concat_cases hx
    · exact h.best j x old hit
    · have := le hit
      have := (List.getElem?_eq_some_iff.mp h.entry).1
      omega

/-- The entry added is the best when it matches and all that matched before it are shorter. -/
theorem BestAt.last {q : Route} (hit : d &&& q.mask = q.pfx)
    (shorter : ∀ x ∈ rt, d &&& x.mask = x.pfx → maskLen x.mask < maskLen q.mask) :
    BestAt (rt ++ [q]) d rt.length q where
  entry := List.getElem?_concat_length
  hit := hit
  best j x hx hx' := by
    obtain old | ⟨rfl, rfl⟩ := getElem?_concat_cases hx
    · exact .inl (shorter x (List.mem_of_getElem? old) hx')
    · exact .inr ⟨rfl, Nat.le_refl _⟩

theorem Answers.concat_miss {o : Option Route} {q : Route} (h : Answers rt d o)
    (miss : d &&& q.mask ≠ q.pfx) : Answers (rt ++ [q]) d o := by
  cases o with
  | none => exact List.forall_mem_append.mpr ⟨h, List.forall_mem_singleton.mpr miss⟩
  | some r =>
    obtain ⟨k, hr⟩ := h
    exact ⟨k, hr.concat fun hit => absurd hit miss⟩

theorem Answers.concat_hit {o : Option Route} {q : Route} (h : Answers rt d o)
    (hit : d &&& q.mask = q.pfx) : Answers (rt ++ [q]) d (better o q) := by
  cases o with
  | none => exact ⟨_, .last hit fun x hx hx' => absurd hx' (h x hx)⟩
  | some r =>
    obtain ⟨k, hr⟩ := h
    rw [better]
    split
    · rename_i longer
      refine ⟨_, .last hit fun x hx hx' => ?_⟩
      obtain ⟨j, hj⟩ := List.mem_iff_getElem?.mp hx
      have := hr.best j x hj hx'
      omega
    · exact ⟨k, hr.concat fun _ => by omega⟩

theorem lpmLookup_answers (rt : List Route) (d : Ip) : Answers rt d (lpmLookup rt d) := by
  induction rt using List.reverseRecOn with
  | nil => exact fun r hr => absurd hr List.not_mem_nil
  | append_singleton rt q ih =>
    rw [lpmLookup_concat]
    split
    · exact ih.concat_hit ((routeMatches_iff d q).mp ‹_›)
    · exact ih.concat_miss fun hit => absurd ((routeMatches_iff d q).mpr hit) ‹_›

end Answering

/-- Settles O20: the scan keeps the longest match of the entries it has seen, the first on a tie. -/
theorem lookupReturnsLongestFirst : Obligations.LookupReturnsLongestFirst := by
  intro rt d
  have answers := lpmLookup_answers rt d
  cases h : lpmLookup rt d with
  | none => rwa [h] at answers
  | some r =>
    rw [h] at answers
    obtain ⟨k, hr⟩ := answers
    exact ⟨k, hr.entry, hr.hit, hr.best⟩

/-! ### Paths in the trie (R127) -/

/-- The mark at a node. -/
def Trie.term : Trie → Option Nat
  | .leaf => none
  | .node t _ _ => t

/-- The child on a bit. -/
def Trie.child : Bool → Trie → Trie
  | _, .leaf => .leaf
  | false, .node _ c0 _ => c0
  | true, .node _ _ c1 => c1

/-- The mark at the end of a path. -/
def Trie.mark : List Bool → Trie → Option Nat
  | [], t => t.term
  | b :: path, t => Trie.mark path (t.child b)

section Paths

variable (t : Trie) (b : Bool) (path : List Bool) (i : Nat)

theorem Trie.walk_nil (best : Option Nat) : t.walk [] best = t.term.or best := by
  cases t <;> simp [Trie.walk, Trie.term]

theorem Trie.walk_cons (best : Option Nat) :
    t.walk (b :: path) best = (t.child b).walk path (t.term.or best) := by
  cases t <;> cases b <;> simp [Trie.walk, Trie.term, Trie.child]

theorem Trie.term_insert_nil : (t.insert i []).term = t.term.or (some i) := by
  cases t <;> simp [Trie.insert, Trie.term]

theorem Trie.child_insert_nil : (t.insert i []).child b = t.child b := by
  cases t <;> cases b <;> rfl

theorem Trie.term_insert_cons : (t.insert i (b :: path)).term = t.term := by
  cases t <;> cases b <;> rfl

theorem Trie.child_insert_cons (c : Bool) :
    (t.insert i (b :: path)).child c = if c = b then (t.child b).insert i path else t.child c := by
  cases t <;> cases b <;> cases c <;> rfl

/-- An insert marks the end of its path unless it is marked, and no other path. -/
theorem Trie.mark_insert (q : List Bool) :
    (t.insert i path).mark q = if q = path then (t.mark path).or (some i) else t.mark q := by
  induction path generalizing t q with
  | nil =>
    cases q with
    | nil => exact t.term_insert_nil i
    | cons c q =>
      rw [if_neg (List.cons_ne_nil c q)]
      exact congrArg (Trie.mark q) (t.child_insert_nil c i)
  | cons b path ih =>
    cases q with
    | nil => exact t.term_insert_cons b path i
    | cons c q =>
      rw [Trie.mark, t.child_insert_cons]
      by_cases h : c = b
      · subst h
        rw [if_pos rfl, ih]
        simp [Trie.mark]
      · simp [h, Trie.mark]

/-- The path at which a Route ends. -/
def routePath (r : Route) : List Bool := topBits (maskLen r.mask) r.pfx

theorem Trie.mark_buildFrom (rt : List Route) (q : List Bool) : (Trie.buildFrom i rt t).mark q =
    (t.mark q).or ((rt.findIdx? fun r => routePath r = q).map (· + i)) := by
  induction rt generalizing i t with
  | nil => simp [Trie.buildFrom]
  | cons r rest ih =>
    have shift : (fun n => n + 1 + i) = fun n => n + (i + 1) := funext fun n => by omega
    rw [Trie.buildFrom, ih, ← routePath, t.mark_insert, List.findIdx?_cons]
    by_cases h : q = routePath r
    · subst h
      cases t.mark (routePath r) <;> simp
    · simp [h, Ne.symm h, shift, Function.comp_def]

theorem Trie.mark_leaf (q : List Bool) : Trie.leaf.mark q = none := by
  induction q with
  | nil => rfl
  | cons b q ih => cases b <;> exact ih

/-- The mark at a path is the first Route inserted there. -/
theorem Trie.mark_build (rt : List Route) (q : List Bool) :
    (Trie.build rt).mark q = rt.findIdx? fun r => routePath r = q := by
  have bare : (Trie.node none .leaf .leaf).mark q = none := by
    cases q with
    | nil => rfl
    | cons b q => cases b <;> exact Trie.mark_leaf q
  rw [Trie.build, Trie.mark_buildFrom, bare]
  simp

end Paths

/-! ### The walk (R127) -/

section Walking

variable {t : Trie} {key : List Bool} {i : Nat}

theorem Trie.walk_or (t : Trie) (key : List Bool) (best : Option Nat) :
    t.walk key best = (t.walk key none).or best := by
  induction key generalizing t best with
  | nil => rw [Trie.walk_nil, Trie.walk_nil, Option.or_none]
  | cons b key ih =>
    rw [Trie.walk_cons, Trie.walk_cons, ih, ih _ (t.term.or none), Option.or_none, Option.or_assoc]

/-- A mark further down the key beats the mark at the root. -/
theorem Trie.walk_cons_none (t : Trie) (b : Bool) (key : List Bool) :
    t.walk (b :: key) none = ((t.child b).walk key none).or t.term := by
  rw [Trie.walk_cons, Trie.walk_or, Option.or_none]

/-- A walk that finds nothing met no mark. -/
theorem Trie.mark_of_walk_none (h : t.walk key none = none) {q : List Bool} (hq : q <+: key) :
    t.mark q = none := by
  induction key generalizing t q with
  | nil =>
    obtain rfl := List.prefix_nil.mp hq
    rwa [Trie.walk_nil, Option.or_none] at h
  | cons b key ih =>
    rw [Trie.walk_cons_none, Option.or_eq_none_iff] at h
    obtain ⟨none_below, root⟩ := h
    obtain rfl | ⟨q, rfl, hq'⟩ := List.prefix_cons_iff.mp hq
    · exact root
    · exact ih none_below hq'

/-- A walk finds the deepest mark on the way down the key. -/
theorem Trie.mark_of_walk_some (h : t.walk key none = some i) : ∃ q, q <+: key ∧ t.mark q = some i ∧
    ∀ p, p <+: key → q.length < p.length → t.mark p = none := by
  induction key generalizing t with
  | nil =>
    rw [Trie.walk_nil, Option.or_none] at h
    exact ⟨[], List.prefix_rfl, h, fun p hp lt => absurd lt (by simp [List.prefix_nil.mp hp])⟩
  | cons b key ih =>
    rw [Trie.walk_cons_none, Option.or_eq_some_iff] at h
    obtain below | ⟨none_below, root⟩ := h
    · obtain ⟨q, hq, marked, deepest⟩ := ih below
      refine ⟨b :: q, (List.prefix_cons_inj b).mpr hq, marked, fun p hp lt => ?_⟩
      obtain rfl | ⟨p, rfl, hp'⟩ := List.prefix_cons_iff.mp hp
      · exact absurd lt (Nat.not_lt_zero _)
      · exact deepest p hp' (Nat.lt_of_succ_lt_succ lt)
    · refine ⟨[], List.nil_prefix, root, fun p hp lt => ?_⟩
      obtain rfl | ⟨p, rfl, hp'⟩ := List.prefix_cons_iff.mp hp
      · exact absurd lt (Nat.lt_irrefl _)
      · exact mark_of_walk_none none_below hp'

end Walking

/-! ### A Route matches just the addresses below its path -/

theorem length_topBits (l : Nat) (a : Ip) : (topBits l a).length = l := by simp [topBits]

theorem topBits_prefix_iff {l : Nat} (hl : l ≤ 32) (a d : Ip) :
    topBits l a <+: topBits 32 d ↔ ∀ k < l, a.getMsbD k = d.getMsbD k := by
  have top : (topBits 32 d).take l = topBits l d := by
    rw [topBits, ← List.map_take, List.take_range, Nat.min_eq_left hl, topBits]
  rw [List.prefix_iff_eq_take, length_topBits, top, topBits, topBits, List.map_inj_left]
  simp only [List.mem_range]

/-- A canonical `p` is an address masked when the two agree in the bits of the mask (R121, R122). -/
theorem and_maskOf_eq_iff {l : Nat} {p d : Ip} (hl : l ≤ 32) (hp : p = p &&& maskOf l) :
    d &&& maskOf l = p ↔ ∀ k < l, p.getMsbD k = d.getMsbD k := by
  have bit {a : Ip} {k : Nat} (hk : k < 32) :
      (a &&& maskOf l).getMsbD k = (a.getMsbD k && decide (k < l)) := by
    rw [BitVec.getMsbD_and, getMsbD_maskOf hl hk]
  constructor
  · intro h k hk
    rw [← h, bit (by omega), decide_eq_true hk, Bool.and_true]
  · intro agree
    rw [hp]
    refine BitVec.eq_of_getMsbD_eq fun k hk => ?_
    rw [bit hk, bit hk]
    by_cases h : k < l
    · rw [agree k h]
    · simp [h]

section Matching

variable {n : Nat} {rt : List Route} {d : Ip} {r : Route}

theorem length_routePath (r : Route) : (routePath r).length = maskLen r.mask := length_topBits _ _

/-- A well-formed Route matches an address just when its path begins the address's bits (R121, R122). -/
theorem routePath_prefix_iff (wf : routeWf n r = true) :
    routePath r <+: topBits 32 d ↔ d &&& r.mask = r.pfx := by
  obtain ⟨⟨l, hl, mask⟩, pfx, -⟩ := (routeWf_iff n r).mp wf
  rw [mask] at pfx
  rw [routePath, mask, maskLen_maskOf hl, topBits_prefix_iff hl, and_maskOf_eq_iff hl pfx]

/-- The walk's answer is the index of the best Route. -/
theorem bestAt_of_walk {k : Nat} (wf : tableWf n rt = true)
    (h : (Trie.build rt).walk (topBits 32 d) none = some k) : ∃ r, BestAt rt d k r := by
  obtain ⟨q, hq, marked, deepest⟩ := Trie.mark_of_walk_some h
  rw [Trie.mark_build, List.findIdx?_eq_some_iff_getElem] at marked
  obtain ⟨hk, here, first⟩ := marked
  obtain rfl := of_decide_eq_true here
  refine ⟨rt[k], List.getElem?_eq_getElem hk,
    (routePath_prefix_iff (List.all_eq_true.mp wf _ (List.getElem_mem hk))).mp hq, fun j x hx hit => ?_⟩
  obtain ⟨hj, rfl⟩ := List.getElem?_eq_some_iff.mp hx
  have hp := (routePath_prefix_iff (List.all_eq_true.mp wf _ (List.getElem_mem hj))).mpr hit
  rw [← length_routePath, ← length_routePath]
  rcases Nat.lt_trichotomy (routePath rt[j]).length (routePath rt[k]).length with lt | eq | gt
  · exact .inl lt
  · refine .inr ⟨eq, Nat.le_of_not_lt fun before => ?_⟩
    have same : routePath rt[j] = routePath rt[k] :=
      (List.prefix_of_prefix_length_le hp hq eq.le).eq_of_length eq
    exact first j before (decide_eq_true same)
  · have unmarked := deepest _ hp gt
    rw [Trie.mark_build, List.findIdx?_eq_none_iff] at unmarked
    exact absurd (unmarked _ (List.getElem_mem hj)) (by simp)

theorem trieLookup_answers (wf : tableWf n rt = true) : Answers rt d (trieLookup rt d) := by
  unfold trieLookup
  cases h : (Trie.build rt).walk (topBits 32 d) none with
  | none =>
    intro r hr hit
    have unmarked := Trie.mark_of_walk_none h
      ((routePath_prefix_iff (List.all_eq_true.mp wf r hr)).mpr hit)
    rw [Trie.mark_build, List.findIdx?_eq_none_iff] at unmarked
    exact absurd (unmarked r hr) (by simp)
  | some k =>
    obtain ⟨r, hr⟩ := bestAt_of_walk wf h
    rw [Option.bind_some, hr.entry]
    exact ⟨k, hr⟩

end Matching

/-- Settles O22: trie and scan both answer with the longest match, the first on a tie, and there is one. -/
theorem trieLookupIsTheScan : Obligations.TrieLookupIsTheScan :=
  fun _ rt d wf => (trieLookup_answers wf).unique (lpmLookup_answers rt d)

end Sys2Proof.Machine

/-! ## Checksum (family 42_checksum)

SUPPORT. Each round of the folding loop takes at least `0xFFFF` off, which bounds the rounds it needs. A
word written at an even offset replaces the field there in the word sum; from this the laws of R145 and
R150 follow by arithmetic modulo `0xFFFF`. -/

namespace Sys2Proof.Machine

/-! ### The folding loop (R141) -/

/-- The loop folds whatever its rounds can bring down to 16 bits, at `0xFFFF` or more a round. -/
theorem fold16Loop_eq_fold16 {fuel s : Nat} (h : s ≤ 0xFFFF * (fuel + 1)) :
    fold16Loop fuel s = fold16 s := by
  induction fuel generalizing s with
  | zero => exact (fold16_of_le h).symm
  | succ fuel ih =>
    rw [fold16Loop]
    split
    next big => rw [ih (by omega), fold16_round big]
    next small => exact (fold16_of_le (Nat.le_of_not_lt small)).symm

/-- Settles O14: the loop is the closed form, whose range and residue the laws of `fold16` give. -/
theorem foldingLoopIsTheClosedForm : Obligations.FoldingLoopIsTheClosedForm := by
  intro s fuel h
  have loop : fold16Loop fuel s = fold16 s := fold16Loop_eq_fold16 (by omega)
  have residue := fold16_mod s
  have le := fold16_le s
  have zero := fold16_eq_zero s
  refine ⟨loop, residue, le, zero, by omega, ?_⟩
  rintro bs rfl
  exact loop.symm

/-! ### Word sums (R140) -/

/-- The word sum as the sum over the words of R140. -/
theorem wordSum_eq_sum (bs : List Byte) :
    wordSum bs = ∑ j ∈ Finset.range (bs.length / 2),
      ((bs.getD (2 * j) 0).toNat * 256 + (bs.getD (2 * j + 1) 0).toNat) := by
  fun_induction wordSum bs with
  | case1 hi lo rest ih =>
    have words : (hi :: lo :: rest).length / 2 = rest.length / 2 + 1 := by
      simp only [List.length_cons]
      omega
    rw [words, Finset.sum_range_succ', ih, Nat.add_comm]
    rfl
  | case2 => simp
  | case3 => simp

/-- An even number of bytes not all zero has a positive sum. -/
theorem wordSum_pos {bs : List Byte} (even : bs.length % 2 = 0) {b : Byte} (mem : b ∈ bs) (ne : b ≠ 0) :
    0 < wordSum bs := by
  have pos : 0 < b.toNat := Nat.pos_of_ne_zero fun z => ne (BitVec.eq_of_toNat_eq z)
  fun_induction wordSum bs with
  | case1 hi lo rest ih =>
    obtain rfl | rfl | later : b = hi ∨ b = lo ∨ b ∈ rest := by simpa using mem
    · omega
    · omega
    · have := ih (by simp only [List.length_cons] at even; omega) later
      omega
  | case2 => simp at even
  | case3 => simp at mem

/-- A word written at an even offset takes the place of the field there. -/
theorem wordSum_patch {off : Nat} {bs buf : List Byte} (even : off % 2 = 0) (two : bs.length = 2)
    (fits : off + 2 ≤ buf.length) :
    wordSum (patch off bs buf) + field buf off 2 = wordSum buf + wordSum bs := by
  obtain ⟨x, y, rfl⟩ := List.length_eq_two.mp two
  fun_induction wordSum buf generalizing off with
  | case1 hi lo rest ih =>
    match off with
    | 0 =>
      simp only [patch, patch_nil, wordSum, field, List.drop_zero, List.take_succ_cons, List.take_zero,
        ← wordSum_pair]
      omega
    | 1 => omega
    | off + 2 =>
      have := ih (off := off) (by omega) (by simpa using fits)
      simp only [patch, wordSum, field, List.drop_succ_cons] at this ⊢
      omega
  | case2 => simp at fits
  | case3 => simp at fits

/-- A field at an even offset is one of the words summed. -/
theorem field_le_wordSum {off : Nat} {buf : List Byte} (even : off % 2 = 0) (fits : off + 2 ≤ buf.length) :
    field buf off 2 ≤ wordSum buf := by
  have zeroed := wordSum_patch (bs := [0, 0]) even rfl fits
  have zero : wordSum [0, 0] = 0 := rfl
  omega

/-- A 16-bit field reads back what was written (R12). -/
theorem field_patch_same {off : Nat} {buf : List Byte} (v : Half) (fits : off + 2 ≤ buf.length) :
    field (patch off (beBytes 2 v.toNat) buf) off 2 = v.toNat :=
  field_of_slice (slice_patch_same off (beBytes 2 v.toNat) buf fits) v.isLt

/-- A field is not changed by a write elsewhere (R12). -/
theorem field_patch_disjoint {off a n : Nat} {bs : List Byte} (buf : List Byte)
    (apart : a + n ≤ off ∨ off + bs.length ≤ a) : field (patch off bs buf) a n = field buf a n := by
  rw [field, field, slice_patch_disjoint off bs buf a n apart]

/-! ### `CSUM`, `CSUM.VERIFY` and `CSUM.INCR` (R142 to R144, R149) -/

section Operations

variable {s : State} {bs : List Byte} (run : s.runState = .running)
include run

theorem exec_csum_even (even : bs.length % 2 = 0) :
    exec (.csum bs) s = .next { s with ret := .half (csum bs) } :=
  (whenRunning_running s _ run).trans (if_pos even)

theorem exec_csum_odd (odd : bs.length % 2 = 1) : exec (.csum bs) s = .refused .oddChecksumLength :=
  (whenRunning_running s _ run).trans (if_neg (by omega))

theorem exec_csumVerify_even (even : bs.length % 2 = 0) :
    exec (.csumVerify bs) s = .next { s with ret := .flag (csumVerify bs) } :=
  (whenRunning_running s _ run).trans (if_pos even)

theorem exec_csumVerify_odd (odd : bs.length % 2 = 1) :
    exec (.csumVerify bs) s = .refused .oddChecksumLength :=
  (whenRunning_running s _ run).trans (if_neg (by omega))

theorem exec_csumIncr (hc m m' : Half) :
    exec (.csumIncr hc m m') s = .next { s with ret := .half (csumIncr hc m m') } :=
  whenRunning_running s _ run

end Operations

/-- Settles O15: the operation returns `CSUM`, whose word sum is the sum over the words. -/
theorem csumReturnsTheComplementedSum : Obligations.CsumReturnsTheComplementedSum :=
  fun _ bs run =>
    ⟨fun even => ⟨csum bs, exec_csum_even run even, by rw [csum_toNat, wordSum_eq_sum]⟩,
      exec_csum_odd run⟩

/-- Settles O16: the flag is `CSUM` tested for zero. -/
theorem verifyTestsTheFoldedSum : Obligations.VerifyTestsTheFoldedSum :=
  fun _ bs run =>
    ⟨fun even => ⟨csumVerify bs, exec_csumVerify_even run even, beq_iff_eq, csumVerify_iff bs⟩,
      exec_csumVerify_odd run⟩

/-- Settles O17: the argument is at most three times `0xFFFF`, which three rounds fold. -/
theorem incrReturnsTheFormula : Obligations.IncrReturnsTheFormula := by
  intro s hc m m' run
  refine ⟨csumIncr hc m m', exec_csumIncr run hc m m', ?_⟩
  have := hc.isLt
  have := m.isLt
  have := m'.isLt
  rw [csumIncr_toNat, BitVec.toNat_not, BitVec.toNat_not, fold16Loop_eq_fold16 (by omega)]

/-! ### Generation and incremental update (R145, R150) -/

/-- Bytes whose sum is that of others and the `CSUM` of those verify. -/
theorem csumVerify_of_wordSum {h z : List Byte} (sum : wordSum h = wordSum z + (csum z).toNat) :
    csumVerify h = true := by
  have le := fold16_le (wordSum z)
  have residue := fold16_mod (wordSum z)
  have zero := fold16_eq_zero (wordSum z)
  rw [csumVerify_iff, sum, csum_toNat]
  omega

/-- Settles O18: the field adds the checksum to the sum of the header with the field zeroed. -/
theorem generatedChecksumVerifies : Obligations.GeneratedChecksumVerifies := by
  intro pre post even _
  refine csumVerify_of_wordSum (z := pre ++ [0, 0] ++ post) ?_
  have zero : wordSum [0, 0] = 0 := rfl
  simp only [List.append_assoc, wordSum_append pre _ even]
  rw [wordSum_append [0, 0] post rfl, wordSum_append _ post (by rw [beBytes_length]), wordSum_beBytes]
  omega

section Update

variable {hd : List Byte} {c a : Nat} (m' : Half) (ceven : c % 2 = 0) (aeven : a % 2 = 0) (ne : c ≠ a)
  (afits : a + 2 ≤ hd.length)
include ceven aeven ne afits

/-- A new word in place of one and zero in place of the checksum: the sum of what is left (R145). -/
theorem wordSum_update (cfits : c + 2 ≤ hd.length) :
    wordSum (patch c [0, 0] (patch a (beBytes 2 m'.toNat) hd)) + field hd c 2 + field hd a 2 =
      wordSum hd + m'.toNat := by
  have newWord := wordSum_patch aeven (beBytes_length 2 m'.toNat) afits
  have zeroed := wordSum_patch (bs := [0, 0]) (buf := patch a (beBytes 2 m'.toNat) hd) ceven rfl
    (by rwa [patch_length])
  have zero : wordSum [0, 0] = 0 := rfl
  rw [field_patch_disjoint hd (by rw [beBytes_length]; omega)] at zeroed
  rw [wordSum_beBytes] at newWord
  omega

/-- The new word is one of the words of the changed header. -/
theorem le_wordSum_update :
    m'.toNat ≤ wordSum (patch c [0, 0] (patch a (beBytes 2 m'.toNat) hd)) := by
  have stands : field (patch c [0, 0] (patch a (beBytes 2 m'.toNat) hd)) a 2 = m'.toNat := by
    rw [field_patch_disjoint _ (by rw [List.length_cons, List.length_singleton]; omega),
      field_patch_same m' afits]
  exact stands.ge.trans (field_le_wordSum aeven (by rwa [patch_length, patch_length]))

end Update

/-- A two-byte field fits the 16-bit value read from it. -/
theorem toNat_ofNat_field (b : List Byte) (off : Nat) :
    (BitVec.ofNat 16 (field b off 2)).toNat = field b off 2 :=
  (BitVec.toNat_ofNat _ _).trans (Nat.mod_eq_of_lt (field_lt b off 2))

/-- Settles O19: the new sum lacks the old checksum and the old word, which is the law of the incremental
update; either proviso makes the new sum and the argument of the fold positive. -/
theorem incrementalUpdateIsRecomputation : Obligations.IncrementalUpdateIsRecomputation := by
  intro hd c a m' even ceven aeven ne cfits afits valid hc m z provisos
  have hcval : hc.toNat = field hd c 2 := toNat_ofNat_field hd c
  have mval : m.toNat = field hd a 2 := toNat_ofNat_field hd a
  have sum : wordSum z + field hd c 2 + field hd a 2 = wordSum hd + m'.toNat :=
    wordSum_update m' ceven aeven ne afits cfits
  have le : m'.toNat ≤ wordSum z := le_wordSum_update m' ceven aeven ne afits
  have positive : 0 < (0xFFFF - hc.toNat) + (0xFFFF - m.toNat) + m'.toNat ∧ 0 < wordSum z := by
    obtain ⟨pos, b, mem, nonzero⟩ | ⟨ttl, dec⟩ := provisos
    · rw [BitVec.toNat_not, BitVec.toNat_not] at pos
      have zlen : z.length = hd.length := (patch_length _ _ _).trans (patch_length _ _ _)
      exact ⟨pos, wordSum_pos (zlen ▸ even) mem nonzero⟩
    · have least : (0x0100 : Half) ≤ m := BitVec.le_def.mpr (Nat.le_trans (by decide) ttl)
      have new : m'.toNat = m.toNat - 0x0100 := by
        rw [dec, BitVec.toNat_sub_of_le least]
        rfl
      omega
  obtain ⟨-, residue⟩ := (csumVerify_iff hd).mp valid
  exact csumIncr_of_sums hc m m' (wordSum z - m'.toNat) z (by omega) positive.1 (by omega) positive.2

end Sys2Proof.Machine

/-! ## ICMP synthesizer (family 43_icmp_synth)

SUPPORT. A frame that R160 admits is an IPv4 frame given by its fields, of which the synthesizer makes the
frame with the fields of R161. Each clause of R162 is then read off that frame; the two checksums are valid
since each is computed over a header whose own field is zero (R150). -/

namespace Sys2Proof.Machine

/-! ### The synthesized frame (R161, R162) -/

/-- The word sum of an ICMP header by its fields. -/
theorem wordSum_icmpBytes (h : Ipv4Frame) : wordSum (icmpBytes h) =
    h.icmpType.toNat * 256 + h.icmpCode.toNat + h.icmpCsum.toNat +
      wordSum (beBytes 4 h.icmpRest.toNat) := by
  rw [icmpBytes, wordSum_append _ _ (by simp), wordSum_append _ _ (by simp), wordSum_beBytes]
  simp only [wordSum]
  omega

/-- An ICMP header whose checksum is computed with the field zero verifies (R148, R150). -/
theorem csumVerify_icmpBytes {h : Ipv4Frame} (zero : h.icmpCsum = 0) :
    csumVerify (icmpBytes { h with icmpCsum := csum (icmpBytes h) }) = true := by
  refine csumVerify_of_wordSum (z := icmpBytes h) ?_
  have z : h.icmpCsum.toNat = 0 := by rw [zero]; rfl
  rw [wordSum_icmpBytes, wordSum_icmpBytes h]
  simp only [z]
  omega

/-- Frames of the same TOS, identification, fragment field and rest of the ICMP header agree on the bytes
of these and of the EtherType. -/
theorem encodeIpv4_kept {g h : Ipv4Frame} (tos : g.tos = h.tos) (ident : g.ident = h.ident)
    (frag : g.frag = h.frag) (rest : g.icmpRest = h.icmpRest) {j : Nat}
    (hj : j = 12 ∨ j = 13 ∨ j = 15 ∨ (18 ≤ j ∧ j ≤ 21) ∨ (38 ≤ j ∧ j ≤ 41)) :
    (encodeIpv4 g)[j]? = (encodeIpv4 h)[j]? := by
  simp only [encodeIpv4, beBytes, List.cons_append, List.nil_append, tos, ident, frag, rest]
  obtain rfl | rfl | rfl | ⟨lo, hi⟩ | ⟨lo, hi⟩ := hj
  iterate 3
    · simp only [List.getElem?_cons_succ, List.getElem?_cons_zero]
  · interval_cases j <;> simp only [List.getElem?_cons_succ, List.getElem?_cons_zero]
  · interval_cases j <;> simp only [List.getElem?_cons_succ, List.getElem?_cons_zero]

section Synthesized

variable (fn : TtlFn) (t : Byte) (h : Ipv4Frame)

/-- The IP header is final once its checksum is computed (R161 step 4). -/
theorem synthFields_ipValid : csumVerify (ipv4Header (synthFields fn t h)) = true :=
  withIpSum_verifies _

/-- The ICMP checksum is computed last, over the final header (R161 step 6). -/
theorem synthFields_icmpValid : csumVerify (icmpBytes (synthFields fn t h)) = true :=
  csumVerify_icmpBytes rfl

/-- The fields of R161 meet every clause of R162: what is read from the new frame is what the synthesizer
makes of what is read from the old one. -/
theorem synthFields_post {x y : Frame} {i : Nat} (hx : x = ⟨encodeIpv4 h, i⟩)
    (hy : y = ⟨encodeIpv4 (synthFields fn t h), i⟩) : SynthPost fn t x y :=
  have read : readIpv4 y.buf = synthFields fn t (readIpv4 x.buf) := by
    rw [hx, hy, readIpv4_encode, readIpv4_encode]
  { len := by rw [hy, Frame.len, encodeIpv4_length, synthFields_tail, List.length_nil]
    iface := by rw [hx, hy]
    ipValid := by rw [hy, ipv4_ipHeader, synthFields_ipValid]
    icmpValid := by rw [hy, ipv4_icmpHeader, synthFields_icmpValid]
    ethDst := congrArg Ipv4Frame.dst read
    ethSrc := congrArg Ipv4Frame.src read
    ipSrc := congrArg Ipv4Frame.ipSrc read
    ipDst := congrArg Ipv4Frame.ipDst read
    ihl := congrArg Ipv4Frame.ihl read
    ver := congrArg Ipv4Frame.ver read
    proto := congrArg Ipv4Frame.proto read
    totalLen := congrArg Ipv4Frame.totalLen read
    ttl := congrArg Ipv4Frame.ttl read
    icmpType := congrArg Ipv4Frame.icmpType read
    icmpCode := congrArg Ipv4Frame.icmpCode read
    kept := fun j hj => by
      rw [hx, hy]
      exact encodeIpv4_kept (g := synthFields fn t h) (h := h) rfl rfl rfl rfl hj }

end Synthesized

/-! ### The operation and its three forms (R160, R164 to R166) -/

/-- R160, on a frame's bytes. -/
theorem synthReady_iff (x : Frame) :
    x.synthReady = true ↔ 42 ≤ x.buf.length ∧ x.ethType = 0x0800 := by
  rw [Frame.synthReady, Bool.and_eq_true, decide_eq_true_eq, beq_iff_eq]
  rfl

theorem synthOp_refused {s : State} {x : FrameReg} (t : Byte)
    (bad : (s.frame x).buf.length < 42 ∨ (s.frame x).ethType ≠ 0x0800) :
    synthOp x t s = .refused .synthPrecondition := by
  refine if_neg fun ready => ?_
  obtain ⟨len, type⟩ := (synthReady_iff _).mp ready
  exact bad.elim (Nat.not_lt.mpr len) (absurd type)

section Forms

variable {s : State} (run : s.runState = .running)
include run

theorem exec_icmpSynth (x : FrameReg) (t : Byte) : exec (.icmpSynth x t) s = (synthOp x t s).out :=
  whenRunning_running s _ run

theorem exec_icmpEchoReply : exec .icmpEchoReply s = (synthOp .F 0 s).out :=
  whenRunning_running s _ run

theorem exec_icmpDestUnreach (x : FrameReg) :
    exec (.icmpDestUnreach x) s = (synthOp x 3 s).out :=
  whenRunning_running s _ run

theorem exec_icmpTimeExceeded : exec .icmpTimeExceeded s = (synthOp .F 11 s).out :=
  whenRunning_running s _ run

end Forms

/-- Settles O26: the synthesizer makes of the fields those of R161. -/
theorem synthRewritesEveryField : Obligations.SynthRewritesEveryField := by
  intro s x t h i run e
  rw [exec_icmpSynth run, synthOp_encode s x t h i e, Flow.out_go]

/-- Settles O25: the frame is one by its fields, and the fields of R161 meet R162. -/
theorem synthMeetsItsPostcondition : Obligations.SynthMeetsItsPostcondition := by
  intro s x t run len type
  obtain ⟨⟨h, i⟩, e⟩ := exists_pendingFrame len type
  exact ⟨_, synthRewritesEveryField s x t h i run e, synthFields_post _ t h e rfl⟩

/-- Settles O27: each form is the operation with its register and type. -/
theorem synthFormsHaveFixedTypes : Obligations.SynthFormsHaveFixedTypes := by
  intro s h i run
  refine ⟨fun e => ⟨?_, ?_⟩, fun x e => ?_, fun bad => ⟨?_, ?_⟩, fun x bad => ⟨?_, fun t => ?_⟩⟩
  · rw [exec_icmpEchoReply run, synthOp_encode s .F 0 h i e, Flow.out_go, State.setFrame_F]
  · rw [exec_icmpTimeExceeded run, synthOp_encode s .F 11 h i e, Flow.out_go, State.setFrame_F]
  · rw [exec_icmpDestUnreach run, synthOp_encode s x 3 h i e, Flow.out_go]
  · rw [exec_icmpEchoReply run, synthOp_refused (x := .F) 0 bad, Flow.out_refused]
  · rw [exec_icmpTimeExceeded run, synthOp_refused (x := .F) 11 bad, Flow.out_refused]
  · rw [exec_icmpDestUnreach run, synthOp_refused 3 bad, Flow.out_refused]
  · rw [exec_icmpSynth run, synthOp_refused t bad, Flow.out_refused]

end Sys2Proof.Machine

/-! ## ARP (family 44_arp)

SUPPORT. The cache and the queue unit by unit; the drain on a queue given by its entries, of which a reply
is the drain after an insert; and the packet that waits in the queue, whose two ways out start from the
same decremented frame. -/

namespace Sys2Proof.Machine

/-! ### The units of the cache and the queue (R180 to R188) -/

theorem below_iff (n : Nat) (d : Option Nat) : below n d = true ↔ ∀ m, d = some m → n < m := by
  cases d <;> simp [below]

theorem below_eq_false {n m : Nat} {d : Option Nat} (hd : d = some m) (full : m ≤ n) :
    below n d = false := by
  simp [below, hd, full]

theorem arpLookup_eq_find? (c : List ArpEntry) (a : Ip) :
    arpLookup c a = (c.find? fun e => e.ip == a).map ArpEntry.mac := by
  induction c with
  | nil => rfl
  | cons e rest ih =>
    by_cases h : e.ip = a
    · simp [arpLookup, h]
    · simp [arpLookup, h, ih]

theorem arpLookup_of_absent {c : List ArpEntry} {a : Ip} (absent : ∀ q ∈ c, q.ip ≠ a) :
    arpLookup c a = none := by
  simpa [arpLookup_eq_none_iff] using absent

section FirstWithKey

variable {before after : List ArpEntry} {e : ArpEntry} {a : Ip} (he : e.ip = a)
  (first : ∀ q ∈ before, q.ip ≠ a)
include he first

theorem arpLookup_first : arpLookup (before ++ e :: after) a = some e.mac := by
  have skip : before.find? (fun q => q.ip == a) = none := by simpa using first
  simp [arpLookup_eq_find?, skip, he]

/-- The overwritten entry keeps its place (R182). -/
theorem arpReplace_first (m : Mac) :
    arpReplace (before ++ e :: after) a m = before ++ ⟨a, m⟩ :: after := by
  induction before with
  | nil => simp [arpReplace, ← he]
  | cons q before ih =>
    obtain ⟨ne, first⟩ := List.forall_mem_cons.mp first
    rw [List.cons_append, arpReplace, if_neg ne, ih first, List.cons_append]

end FirstWithKey

section Units

variable {s : State} (run : s.runState = .running)
include run

theorem exec_arpcInsert (a : Ip) (m : Mac) : exec (.arpcInsert a m) s = (arpInsertOp a m s).out :=
  whenRunning_running s _ run

theorem exec_pqEnq (x : FrameReg) : exec (.pqEnq x) s = (pqEnqOp (s.frame x) s).out :=
  whenRunning_running s _ run

theorem exec_pqDeq :
    exec .pqDeq s = ((pqDeqOp s).andThen fun t => .go { t with ret := .frame t.p }).out :=
  whenRunning_running s _ run

theorem exec_pqDrain (key : Ip) : exec (.pqDrain key) s = (drainOp key s).out :=
  whenRunning_running s _ run

theorem exec_arpReqEmit (nh : Ip) (i : Nat) :
    exec (.arpReqEmit nh i) s = (arpReqEmitOp nh i s).out :=
  whenRunning_running s _ run

theorem exec_arpRequest (h : ArpFrame) : exec (.arpRequest h) s =
    (arpRequestFlow ((s.loadF (encodeArp 1 h)).enter .sArpOp)).out :=
  whenRunning_running s _ run

theorem exec_arpReply (h : ArpFrame) : exec (.arpReply h) s =
    (arpReplyFlow ((s.loadF (encodeArp 2 h)).enter .sArpOp)).out :=
  whenRunning_running s _ run

theorem exec_ipv4 (h : Ipv4Frame) : exec (.ipv4 h) s = (ipLocal (s.loadF (encodeIpv4 h))).out :=
  whenRunning_running s _ run

end Units

/-- Settles O28: the lookup is the search for the key. -/
theorem cacheLookupFindsTheFirst : Obligations.CacheLookupFindsTheFirst := by
  intro s a run
  rw [← arpLookup_eq_find?]
  exact whenRunning_running s _ run

/-- Settles O29: a known key is looked up at its first entry, and a new one is a miss. -/
theorem cacheInsertFollowsThePolicy : Obligations.CacheInsertFollowsThePolicy := by
  intro s a m run
  rw [exec_arpcInsert run]
  refine ⟨fun before e after hc he first => ?_, fun absent => ⟨fun room => ?_, fun d hd full => ?_⟩⟩
  · have hit : arpLookup s.arpc a = some e.mac := hc ▸ arpLookup_first he first
    rw [arpInsertOp_learns s a m (.inl (by simp [hit])), Flow.out_go, State.learns, hit]
    refine ⟨fun policy => ?_, fun policy _ => ?_⟩
    · rw [policy]
    · rw [policy, ← arpReplace_first he first m, ← hc]
  · have free := (below_iff _ _).mpr room
    rw [arpInsertOp_learns s a m (.inr free), Flow.out_go, State.learns, arpLookup_of_absent absent]
  · rw [arpInsertOp_full s a m (arpLookup_of_absent absent) (below_eq_false hd full)]
    rfl

/-- Settles O30, by what each unit does with room and without, on an empty queue and on another. -/
theorem queueIsFirstInFirstOut : Obligations.QueueIsFirstInFirstOut := by
  intro s x run
  refine ⟨fun room => ?_, fun d hd full => ?_, fun q rest hq => ?_, fun empty => ?_, ?_⟩
  · rw [exec_pqEnq run, pqEnqOp_room s _ ((below_iff _ _).mpr room), Flow.out_go]
  · rw [exec_pqEnq run, pqEnqOp_full s _ (below_eq_false hd full)]
    rfl
  · simp [exec_pqDeq run, pqDeqOp, hq]
  · simp [exec_pqDeq run, pqDeqOp, empty]
  · exact whenRunning_running s _ run

/-! ### Requests, reserved frames, and the request generator (R191 to R194, R205) -/

/-- Settles O31: the request arm on the frame in `F`, after `S_ARP_OP`. -/
theorem arpRequestIsAnsweredInPlace : Obligations.ArpRequestIsAnsweredInPlace := by
  intro s h row run hr y
  rw [exec_arpRequest run]
  generalize word : encodeArp 1 h = bytes
  have loaded : ((s.loadF bytes).enter .sArpOp).f = ⟨encodeArp 1 h, s.f.iface⟩ := by rw [word]; rfl
  refine ⟨fun far => ?_, fun own fits ok => ?_, fun own fits bad => ?_⟩
  · rw [arpRequestFlow_far loaded hr far, Flow.out_ended]
    simp [State.enter, State.finish, State.loadF]
  · rw [arpRequestFlow_sent loaded hr own fits ok y rfl, Flow.out_ended]
    simp [State.enter, State.loadF]
  · rw [arpRequestFlow_failed loaded hr own fits bad y rfl, Flow.out_ended]
    simp [State.enter, State.loadF]

/-- Settles O32: the drop is all there is. -/
theorem reservedFramesAreDropped : Obligations.ReservedFramesAreDropped := by
  intro s op a h run
  refine ⟨(whenRunning_running s _ run).trans ?_, whenRunning_running s _ run⟩
  simp [State.enter, State.finish, State.loadF]

/-- Settles O37: the request is built for the interface's row, if there is one, and transmitted. -/
theorem requestIsBuiltInG : Obligations.RequestIsBuiltInG := by
  intro s nh i run
  rw [exec_arpReqEmit run]
  constructor
  · intro row hr big g
    refine ⟨requestBytes_length _ _ _, fun ok => ?_, fun bad => ?_⟩
    · rw [arpReqEmitOp_sent s nh i row hr big ok, Flow.out_go]
    · rw [arpReqEmitOp_failed s nh i row hr big bad, Flow.out_ended]
  · intro beyond
    have absent : s.ifRow i = none := List.getElem?_eq_none beyond
    rw [arpReqEmitOp, absent]
    rfl

/-! ### The whole drain (R200, R201) -/

section Drain

variable {s : State} {key : Ip} {es : List Pending}

theorem txSucceeds_of_neverFails (h : s.txNeverFails = true) (n : Nat) : s.txSucceeds n :=
  List.all_eq_true.mpr fun b hb => List.all_eq_true.mp h b (List.mem_of_mem_take hb)

/-- The drain registers as R200 sets them before the loop. -/
def State.startDrain (s : State) (key : Ip) : State :=
  { s with drainKey := key, drainN := s.pq.length, drainI := 0 }

theorem drainOp_eq : drainOp key s = drainLoop s.pq.length (s.startDrain key) := rfl

/-- A drain is one round for each entry and a last look at the count, whose transmissions succeed. -/
theorem drainOp_visits (hq : s.pq = es.map pendingFrame) (wf : tableWf s.iftab.length s.rt = true)
    (fits : s.drainable es = true) (room : atMost s.pq.length s.cfg.pqDepth = true)
    (ok : s.txNeverFails = true) :
    ∃ t, drainOp key s = .go ((t.enter .sDrainNext).enter .sRx) ∧
      DrainVisits key es [] (s.startDrain key) t := by
  have len : s.pq.length = es.length := by rw [hq, List.length_map]
  obtain ⟨t, ht, visits⟩ := drainLoop_visits (s := s.startDrain key) (key := key) (es := es)
    (rest := []) (n := 0) (by rw [List.append_nil]; exact hq) rfl
    (by rw [State.startDrain, len, Nat.zero_add]) wf fits room (txSucceeds_of_neverFails ok _)
  refine ⟨t, ?_, visits⟩
  rw [drainOp_eq, len]
  exact ht

/-- What a drain writes (R200). -/
theorem DrainVisits.same {t : State} (h : DrainVisits key es [] (s.startDrain key) t) : t = { s with
    p := t.p, curDst := t.curDst, curRoute := t.curRoute, curMac := t.curMac,
    drainN := s.pq.length, drainI := t.drainI, drainKey := key, dsm := t.dsm, pq := t.pq,
    txFail := t.txFail, txTrace := t.txTrace, drainLabels := t.drainLabels,
    dsmTrace := t.dsmTrace } := h.frame.same

/-- A round on an entry too short to hold a destination (log 9). -/
theorem drainOp_short {q : Frame} {rest : List Frame} (hq : s.pq = q :: rest)
    (short : q.buf.length < 34) : drainOp key s = .fault .beyondFrame := by
  have entry : drainEntry ((s.startDrain key).enter .sDrainNext) = .fault .beyondFrame :=
    (drainEntry_eq (s := (s.startDrain key).enter .sDrainNext) hq).trans (if_pos short)
  have more : (s.startDrain key).drainI < (s.startDrain key).drainN := by simp [State.startDrain, hq]
  rw [drainOp_eq, hq, List.length_cons, drainLoop_succ more, entry, Flow.andThen_fault]

end Drain

/-- Settles O33: the rounds of the drain, taken together. -/
theorem drainDisposesOfEachEntryOnce : Obligations.DrainDisposesOfEachEntryOnce := by
  intro s key run
  rw [exec_pqDrain run]
  refine ⟨fun es wf hq fits room ok => ?_, fun q rest hq short => by rw [drainOp_short hq short]; rfl⟩
  obtain ⟨t, ht, v⟩ := drainOp_visits (key := key) hq wf fits room ok
  have count : t.drainI = es.length := v.count.trans (Nat.zero_add _)
  have bound : t.drainN = es.length := by rw [v.same, hq, List.length_map]
  refine ⟨(t.enter .sDrainNext).enter .sRx, by rw [ht, Flow.out_go], v.queue, v.sent, v.results,
    v.labels, by rw [v.same]; rfl, bound, count, rfl, ?_, ?_⟩
  · simp only [State.enter_dsmTrace, v.trace, List.append_assoc]
    rfl
  · rw [v.same]
    rfl

/-! ### Replies (R198 to R202) -/

section Reply

variable {s : State} {h : ArpFrame}

/-- The state in which a reply begins its drain: the sender is in the cache. -/
def State.taught (s : State) (h : ArpFrame) : State :=
  { (s.enter .sArpOp).enter .sArpLearn with arpc := s.learns h.spa h.sha }

/-- A reply that the cache has room for is the drain for its sender, and the outcome (R198). -/
theorem exec_arpReply_learns (run : s.runState = .running)
    (room : arpLookup s.arpc h.spa ≠ none ∨ below s.arpc.length s.cfg.arpcDepth = true)
    {u : State} (drain : drainOp h.spa (s.taught h) = .go u) :
    exec (.arpReply h) s = .next { u with
      f := ⟨encodeArp 2 h, s.f.iface⟩, outcomes := u.outcomes ++ [.arpLearned] } := by
  have learns : arpInsertOp h.spa h.sha ((s.enter .sArpOp).enter .sArpLearn) = .go (s.taught h) :=
    arpInsertOp_learns _ h.spa h.sha room
  rw [exec_arpReply run, arpReplyFlow_encode, learns, Flow.andThen_go, drain, Flow.andThen_go]
  rfl

theorem exec_arpReply_full (run : s.runState = .running) (miss : arpLookup s.arpc h.spa = none)
    (full : below s.arpc.length s.cfg.arpcDepth = false) :
    exec (.arpReply h) s = .next { s with
      f := ⟨encodeArp 2 h, s.f.iface⟩, dsm := .sHalt,
      dsmTrace := s.dsmTrace ++ [.sArpOp, .sArpLearn, .sHalt],
      runState := .halted, faultCause := .capacity } := by
  have raises := arpInsertOp_full ((s.enter .sArpOp).enter .sArpLearn) h.spa h.sha miss full
  rw [exec_arpReply run, arpReplyFlow_encode, raises, Flow.andThen_ended]
  simp [Flow.withF, State.withF, State.enter, State.raise]

/-- With its key in the cache a drain keeps just the entries with a Route to another next hop (R202). -/
theorem drainKeeps_of_hit {key : Ip} (hit : arpLookup s.arpc key ≠ none) (e : Pending) :
    s.drainKeeps key e = (lpmLookup s.rt e.1.ipDst).any fun r => r.nextHop != key := by
  unfold State.drainKeeps State.drainCase
  cases lpmLookup s.rt e.1.ipDst with
  | none => rfl
  | some r => by_cases own : r.nextHop = key <;> simp [own, hit]

end Reply

/-- Settles O35: the drain after the insert, in which the sender is a hit. -/
theorem arpReplyLearnsAndReleases : Obligations.ArpReplyLearnsAndReleases := by
  intro s h es run
  refine ⟨fun wf hq fits depth ok room => ?_, fun miss full => exec_arpReply_full run miss full⟩
  obtain ⟨t, ht, v⟩ := drainOp_visits (s := s.taught h) (key := h.spa) hq wf fits depth ok
  refine ⟨_, exec_arpReply_learns run room ht, ?_⟩
  have keeps : ((s.taught h).startDrain h.spa).drainKeeps h.spa = fun e =>
      (lpmLookup s.rt e.1.ipDst).any fun r => r.nextHop != h.spa :=
    funext (drainKeeps_of_hit (s := (s.taught h).startDrain h.spa) (arpLookup_learns s h.spa h.sha))
  have queue := v.queue
  rw [keeps, List.nil_append] at queue
  refine ⟨?_, queue, v.sent, ?_⟩
  all_goals
    rw [v.same]
    simp [State.taught, run]

/-! ### A frame queued alone (R204) -/

@[simp] theorem decFields_src (h : Ipv4Frame) : (decFields h).src = h.src := rfl

section Alone

variable {s : State} {h k : Ipv4Frame} {row out : IfRow} {r : Route} {mac : Mac}

/-- The encoded frame with another Ethernet source address (R82). -/
theorem encodeIpv4_src (h : Ipv4Frame) (src : Mac) :
    encodeIpv4 { h with src := src } = patch 6 (beBytes 6 src.toNat) (encodeIpv4 h) := by
  simp only [encodeIpv4, beBytes, List.cons_append, List.nil_append, patch]

/-- What the two ways of a routed packet `h` have in common: it is for another, valid and alive, its Route
leaves by the interface of `out`, and it is `k` after step 3f. -/
structure Transit (s : State) (h k : Ipv4Frame) (row out : IfRow) (r : Route) : Prop where
  run : s.runState = .running
  arrived : s.iftab[s.f.iface]? = some row
  other : h.ipDst ≠ row.ip
  far : ¬ s.ownAddress row h.ipDst
  valid : csumVerify (ipv4Header h) = true
  live : 2 ≤ h.ttl.toNat
  wf : tableWf s.iftab.length s.rt = true
  found : lpmLookup s.rt h.ipDst = some r
  leaves : s.iftab[r.iface]? = some out
  fits : 42 + h.tail.length ≤ s.cfg.maxFrame
  dec : k = decFields h

theorem fixed_config {t : State} (h : t.fixed = s.fixed) :
    t.cfg = s.cfg ∧ t.iftab = s.iftab ∧ t.rt = s.rt ∧ t.runState = s.runState :=
  ⟨(congrArg State.cfg h :), (congrArg State.iftab h :), (congrArg State.rt h :),
    (congrArg State.runState h :)⟩

/-- A packet whose next hop is in the cache is sent at once (R236). -/
theorem ipResolve_sent {i : Nat} (e : s.f = ⟨encodeIpv4 k, i⟩) (leaves : s.iftab[r.iface]? = some out)
    (fits : 42 + k.tail.length ≤ s.cfg.maxFrame) (ok : s.txFail.headD false = false)
    (hit : arpLookup s.arpc r.nextHop = some mac) :
    ∃ t, ipResolve r s = .ended t ∧
      t.txTrace = s.txTrace ++ [⟨encodeIpv4 { k with dst := mac, src := out.mac }, r.iface⟩] := by
  rw [ipResolve_hit hit, ipForward_sent (by exact e) (by exact leaves) (by exact fits) (by exact ok)]
  exact ⟨_, rfl, State.finish_txTrace _ _⟩

/-- A packet whose next hop is not goes to the tail of the queue, and one request out (R237). -/
theorem ipResolve_queued (leaves : s.iftab[r.iface]? = some out) (window : 42 ≤ s.cfg.maxFrame)
    (ok : s.txFail.headD false = false) (room : below s.pq.length s.cfg.pqDepth = true)
    (miss : arpLookup s.arpc r.nextHop = none) :
    ∃ t request, ipResolve r s = .ended t ∧ t.txTrace = s.txTrace ++ [request] ∧
      t.pq = s.pq ++ [s.f] ∧ t.txFail = s.txFail.tail ∧ t.arpc = s.arpc ∧ t.fixed = s.fixed := by
  rw [ipResolve_miss miss, ipQueue_sent (by exact leaves) (by exact window) (by exact room)
    (by exact ok)]
  refine ⟨_, ⟨requestBytes s.cfg.arpreqTha out r.nextHop, r.iface⟩, rfl, ?_⟩
  simp [State.fixed]

/-- The way to the question to the cache writes no table and sends nothing. -/
theorem Transit.exec_eq (p : Transit s h k row out r) :
    ∃ t, exec (.ipv4 h) s = (ipResolve r t).out ∧ t.f = ⟨encodeIpv4 k, s.f.iface⟩ ∧
      t.txTrace = s.txTrace ∧ t.pq = s.pq ∧ t.txFail = s.txFail ∧ t.arpc = s.arpc ∧
      t.fixed = s.fixed := by
  have path {bytes : List Byte} (word : bytes = encodeIpv4 h) :=
    ipLocal_toResolve (t := s.loadF bytes) (h := h) (i := s.f.iface) (by rw [word]; rfl) p.arrived
      p.other p.far p.valid p.live p.wf p.found
  refine ⟨_, by rw [exec_ipv4 p.run, path rfl], ?_⟩
  simp [State.fixed, p.dec]

/-- The hit path (R236). -/
theorem Transit.exec_hit (p : Transit s h k row out r) (ok : s.txFail.headD false = false)
    (hit : arpLookup s.arpc r.nextHop = some mac) :
    ∃ t, exec (.ipv4 h) s = .next t ∧
      t.txTrace = s.txTrace ++ [⟨encodeIpv4 { k with dst := mac, src := out.mac }, r.iface⟩] := by
  obtain ⟨t, ht, loaded, trace, -, fails, arpc, fixed⟩ := p.exec_eq
  obtain ⟨cfg, iftab, -⟩ := fixed_config fixed
  have tail : k.tail = h.tail := by rw [p.dec, decFields_tail]
  obtain ⟨u, hu, sent⟩ := ipResolve_sent (s := t) loaded (by rw [iftab]; exact p.leaves)
    (by rw [cfg, tail]; exact p.fits) (by rw [fails]; exact ok) (by rw [arpc]; exact hit)
  exact ⟨u, by rw [ht, hu, Flow.out_ended], by rw [sent, trace]⟩

/-- The miss path (R237). -/
theorem Transit.exec_miss (p : Transit s h k row out r) (ok : s.txFail.headD false = false)
    (room : below s.pq.length s.cfg.pqDepth = true) (miss : arpLookup s.arpc r.nextHop = none) :
    ∃ t request, exec (.ipv4 h) s = .next t ∧ t.txTrace = s.txTrace ++ [request] ∧
      t.pq = s.pq ++ [pendingFrame (k, s.f.iface)] ∧ t.txFail = s.txFail.tail ∧ t.arpc = s.arpc ∧
      t.fixed = s.fixed := by
  obtain ⟨t, ht, loaded, trace, queue, fails, arpc, fixed⟩ := p.exec_eq
  obtain ⟨cfg, iftab, -⟩ := fixed_config fixed
  obtain ⟨u, request, hu, uTrace, uQueue, uFails, uArpc, uFixed⟩ := ipResolve_queued (s := t)
    (by rw [iftab]; exact p.leaves) (by rw [cfg]; exact Nat.le_of_add_right_le p.fits)
    (by rw [fails]; exact ok) (by rw [queue, cfg]; exact room) (by rw [arpc]; exact miss)
  refine ⟨u, request, by rw [ht, hu, Flow.out_ended], by rw [uTrace, trace], ?_,
    by rw [uFails, fails], uArpc.trans arpc, uFixed.trans fixed⟩
  rw [uQueue, queue, loaded, pendingFrame]

/-- The reply for its next hop releases the packet, if it waits alone (R201, R202). -/
theorem exec_arpReply_alone {a : ArpFrame} {i : Nat} (run : s.runState = .running)
    (hq : s.pq = [pendingFrame (k, i)]) (wf : tableWf s.iftab.length s.rt = true)
    (found : lpmLookup s.rt k.ipDst = some r) (leaves : s.iftab[r.iface]? = some out)
    (drainable : s.drainable [(k, i)] = true) (depth : atMost s.pq.length s.cfg.pqDepth = true)
    (ok : s.txNeverFails = true) (space : below s.arpc.length s.cfg.arpcDepth = true)
    (miss : arpLookup s.arpc r.nextHop = none) (spa : a.spa = r.nextHop) :
    ∃ t, exec (.arpReply a) s = .next t ∧ t.pq = [] ∧
      t.txTrace = s.txTrace ++ [s.released a.sha out r k] := by
  obtain ⟨t, ht, -, queue, sent, -⟩ :=
    (arpReplyLearnsAndReleases s a [(k, i)] run).1 wf hq drainable depth ok (.inr space)
  have learned : arpLookup (s.learns a.spa a.sha) a.spa = some a.sha := by
    rw [State.learns, spa, miss]
    exact arpLookup_append _ _ _ miss
  have sends : State.drainSends { s with arpc := s.learns a.spa a.sha } a.spa (k, i) =
      some (s.released a.sha out r k) := by
    simp only [State.drainSends, found, learned, leaves, if_pos spa.symm]
    rfl
  refine ⟨t, ht, ?_, ?_⟩
  · simpa [found, spa] using queue
  · rw [sent, List.filterMap_cons_some sends, List.filterMap_nil]

end Alone

/-- Settles O36: the cache is asked after step 3f, and what the queue holds of the packet is what the hit
path rewrites. -/
theorem pendingFrameLeavesAsOnTheHitPath : Obligations.PendingFrameLeavesAsOnTheHitPath := by
  intro s h row r a run arrived wf fits other far valid live found miss empty results room space spa
  obtain ⟨out, leaves⟩ := lpmLookup_row s wf found
  obtain ⟨k, dec⟩ : ∃ k, k = decFields h := ⟨_, rfl⟩
  have ok : s.txFail.headD false = false := by rw [results]; rfl
  have transit (c : List ArpEntry) : Transit { s with arpc := c } h k row out r :=
    ⟨run, arrived, other, far, valid, live, wf, found, leaves, fits, dec⟩
  obtain ⟨hit, hhit, hitSent⟩ := (transit (s.arpc ++ [⟨r.nextHop, a.sha⟩])).exec_hit ok
    (arpLookup_append s.arpc r.nextHop a.sha miss)
  obtain ⟨queued, request, hqueued, requested, queue, fails, arpc, fixed⟩ :=
    (transit s.arpc).exec_miss ok room miss
  obtain ⟨cfg, iftab, rt, running⟩ := fixed_config fixed
  rw [empty, List.nil_append] at queue
  have dst : k.ipDst = h.ipDst := by rw [dec, decFields_ipDst]
  have tail : k.tail = h.tail := by rw [dec, decFields_tail]
  have src : k.src = h.src := by rw [dec, decFields_src]
  have depth : atMost queued.pq.length queued.cfg.pqDepth = true := by
    rw [queue, cfg]
    exact atMost_of_below (by rwa [empty] at room)
  have drainable : queued.drainable [(k, s.f.iface)] = true := by
    rw [drainable_cons, cfg, iftab, tail]
    exact ⟨fits, (List.getElem?_eq_some_iff.mp arrived).1, rfl⟩
  obtain ⟨released, hreleased, drained, sent⟩ := exec_arpReply_alone (a := a) (out := out)
    (running.trans run) queue (by rw [iftab, rt]; exact wf) (by rw [rt, dst]; exact found)
    (by rw [iftab]; exact leaves) drainable depth (by simp [State.txNeverFails, fails, results])
    (by rw [arpc, cfg]; exact space) (by rw [arpc]; exact miss) spa
  refine ⟨hit, queued, released, _, queued.released a.sha out r k, request, hhit, hitSent, hqueued,
    requested, hreleased, ?_, drained, fun rewrites => ?_, fun keeps => ⟨rfl, ?_⟩⟩
  · simp [sent, requested]
  · rw [State.released, cfg, if_pos rewrites]
  · rw [State.released, cfg, ← encodeIpv4_src, if_neg (by rw [keeps]; decide), ← src]

end Sys2Proof.Machine

/-! ## Dispatch (family 45_dispatch)

SUPPORT. The frame step up to the class decode, as equations for a frame that is offered: receive and
admission, filter, dispatch. Then the IPv4 path, where each way out is that of its stage after the way to
it. Last, every frame step in any state whatever: each part of it goes on with nothing done that R239
counts, or halts the engine, or ends in its one action. -/

namespace Sys2Proof.Machine

/-! ### The operation port (R220, R261) -/

theorem awaitsFrame_iff (s : State) :
    s.awaitsFrame = true ↔ s.runState = .running ∧ s.dsm = .sRx ∧ s.rxq = [] := by
  simp [State.awaitsFrame, and_assoc]

theorem receives_iff (i : Instr) : (Decoded.ok i).receives = true ↔ i = .rx ∨ i = .frameStep :=
  decide_eq_true_iff

theorem fetch_word {s : State} {w : List Byte} {rest : List (List Byte)} (hops : s.ops = w :: rest) :
    fetch s = (decodeOp w,
      if (decodeOp w).receives && s.awaitsFrame then s else { s with ops := rest }) := by
  rw [fetch, hops]

section Receiving

variable {s : State} (run : s.runState = .running) (dsm : s.dsm = .sRx)
include run dsm

theorem exec_frameStep_sRx : exec .frameStep s = (receiveOp s).thenOut processFrame := by
  rw [exec, execFrameStep, whenRunning_running s _ run, dsm]

theorem exec_rx_sRx : exec .rx s = (receiveOp s).out :=
  (whenRunning_running s _ run).trans (if_pos dsm)

/-- A receive with nothing offered changes nothing (log 6). -/
theorem exec_receive_waits {i : Instr} (hi : i = .rx ∨ i = .frameStep) (hq : s.rxq = []) :
    exec i s = .next s := by
  have waits : receiveOp s = .ended s := by rw [receiveOp, rxOp, hq, Flow.andThen_ended]
  obtain rfl | rfl := hi
  · rw [exec_rx_sRx run dsm, waits, Flow.out_ended]
  · rw [exec_frameStep_sRx run dsm, waits, Flow.thenOut_ended]

end Receiving

/-- Settles O8: what `fetch` takes from the port, and a receive that waits. -/
theorem stepRunsTheOperationWord : Obligations.StepRunsTheOperationWord := by
  intro s w rest
  refine ⟨step_of_no_ops, fun hops => ⟨?_, fun e decodes => ?_⟩⟩
  · intro i decodes waits
    have stays : ((decodeOp w).receives && s.awaitsFrame) = true ↔ waits := by
      rw [decodes, Bool.and_eq_true, receives_iff, awaitsFrame_iff]
    refine ⟨fun waiting => ?_, fun acts => ?_⟩
    · rw [step, fetch_word hops, if_pos (stays.mpr waiting), decodes]
      obtain ⟨hi, run, dsm, hq⟩ := waiting
      exact exec_receive_waits run dsm hi hq
    · rw [step, fetch_word hops, if_neg (mt stays.mp acts), decodes]
  · rw [step, fetch_word hops, decodes]

/-! ### Admission (R221) -/

/-- The frame that is offered is in `F`, and not yet admitted (R261). -/
def State.received (s : State) (fr : Frame) (rest : List RxItem) : State :=
  { s with rxq := rest, f := fr }.enter .sL2

theorem receiveOp_frame {s : State} {fr : Frame} {rest : List RxItem}
    (hq : s.rxq = .frame fr :: rest) : receiveOp s = admitOp (s.received fr rest) := by
  rw [receiveOp, rxOp, hq, Flow.andThen_go]
  rfl

/-- The tests in the order of D12. -/
theorem admissionFault_lengthFirst {s : State} (order : s.cfg.admissionOrder = .lengthFirst) :
    s.admissionFault =
      if s.f.buf.length < 14 then some .runtFrame
      else if s.cfg.maxFrame < s.f.buf.length then some .oversizeFrame
      else if s.iftab.length ≤ s.f.iface then some .badIface else none := by
  simp only [State.admissionFault, order, decide_eq_true_eq]
  rfl

/-- The tests in the order of R221 and R290. -/
theorem admissionFault_ifaceFirst {s : State} (order : s.cfg.admissionOrder = .ifaceFirst) :
    s.admissionFault =
      if s.iftab.length ≤ s.f.iface then some .badIface
      else if s.cfg.maxFrame < s.f.buf.length then some .oversizeFrame
      else if s.f.buf.length < 14 then some .runtFrame else none := by
  simp only [State.admissionFault, order, decide_eq_true_eq]
  rfl

theorem admitOp_admissible {s : State} (iface : s.f.iface < s.iftab.length)
    (header : 14 ≤ s.f.buf.length) (fits : s.f.buf.length ≤ s.cfg.maxFrame) : admitOp s = .go s := by
  have passes : s.admissionFault = none := by
    cases order : s.cfg.admissionOrder with
    | lengthFirst =>
      rw [admissionFault_lengthFirst order, if_neg header.not_gt, if_neg fits.not_gt,
        if_neg iface.not_ge]
    | ifaceFirst =>
      rw [admissionFault_ifaceFirst order, if_neg iface.not_ge, if_neg fits.not_gt,
        if_neg header.not_gt]
  rw [admitOp, passes]

section Offered

variable {s : State} {fr : Frame} {rest : List RxItem} (run : s.runState = .running)
  (dsm : s.dsm = .sRx) (hq : s.rxq = .frame fr :: rest)
include run dsm hq

/-- A frame in which admission finds a cause halts the engine, received by `FRAME.STEP` or by `RX`. -/
theorem exec_receive_inadmissible {i : Instr} (hi : i = .frameStep ∨ i = .rx) {c : FaultCause}
    (found : (s.received fr rest).admissionFault = some c) :
    exec i s = .next { s with
      rxq := rest, f := fr, dsm := .sHalt, dsmTrace := s.dsmTrace ++ [.sL2, .sHalt],
      runState := .halted, faultCause := c } := by
  have halts : receiveOp s = .ended ((s.received fr rest).raise c) := by
    rw [receiveOp_frame hq, admitOp, found]
  have halted : (s.received fr rest).raise c = { s with
      rxq := rest, f := fr, dsm := .sHalt, dsmTrace := s.dsmTrace ++ [.sL2, .sHalt],
      runState := .halted, faultCause := c } := by
    simp [State.received, State.enter, State.raise]
  obtain rfl | rfl := hi
  · rw [exec_frameStep_sRx run dsm, halts, Flow.thenOut_ended, halted]
  · rw [exec_rx_sRx run dsm, halts, Flow.out_ended, halted]

/-- An admissible frame goes on to the filter. -/
theorem exec_frameStep_admitted (iface : fr.iface < s.iftab.length) (header : 14 ≤ fr.buf.length)
    (fits : fr.buf.length ≤ s.cfg.maxFrame) :
    exec .frameStep s = processFrame (s.received fr rest) := by
  rw [exec_frameStep_sRx run dsm, receiveOp_frame hq,
    admitOp_admissible (by exact iface) (by exact header) (by exact fits), Flow.thenOut_go]

end Offered

/-- Settles O11: the first test that holds gives the cause, in the order that the parameter says. -/
theorem admissionTestsInOrder : Obligations.AdmissionTestsInOrder := by
  intro s fr rest run dsm hq t i hi
  have halts {c : FaultCause} := exec_receive_inadmissible (c := c) run dsm hq hi
  refine ⟨fun order => ?_, fun order => ?_⟩
  · rw [admissionFault_lengthFirst (by exact order)] at halts
    refine ⟨fun runt => halts ?_, fun header long => halts ?_, fun header fits absent => halts ?_⟩
    · exact if_pos runt
    · exact (if_neg header.not_gt).trans (if_pos long)
    · exact (if_neg header.not_gt).trans ((if_neg fits.not_gt).trans (if_pos absent))
  · rw [admissionFault_ifaceFirst (by exact order)] at halts
    refine ⟨fun absent => halts ?_, fun iface long => halts ?_, fun iface fits runt => halts ?_⟩
    · exact if_pos absent
    · exact (if_neg iface.not_ge).trans (if_pos long)
    · exact (if_neg iface.not_ge).trans ((if_neg fits.not_gt).trans (if_pos runt))

/-! ### Filter and dispatch (R222, R223) -/

theorem l2Accepts_iff (row : IfRow) (x : Frame) :
    l2Accepts row x = true ↔ x.ethDst = row.mac ∨ x.ethDst = 0xFFFFFFFFFFFF := by
  rw [l2Accepts, Bool.or_eq_true, beq_iff_eq, beq_iff_eq]
  rfl

section Filtering

variable {s : State} {row : IfRow} (hr : s.iftab[s.f.iface]? = some row)
include hr

theorem processFrame_accepted (own : s.f.ethDst = row.mac ∨ s.f.ethDst = 0xFFFFFFFFFFFF) :
    processFrame s = dispatchFrame (s.enter .sEtype) := by
  have goes : l2Stage s = .go (s.enter .sEtype) := by
    rw [l2Stage, State.ifRow, hr]
    exact if_pos ((l2Accepts_iff row s.f).mpr own)
  rw [processFrame, goes, Flow.thenOut_go]

theorem processFrame_dropped (mac : s.f.ethDst ≠ row.mac) (all : s.f.ethDst ≠ 0xFFFFFFFFFFFF) :
    processFrame s = .next (s.finish .dropL2) := by
  have drops : l2Stage s = .ended (s.finish .dropL2) := by
    rw [l2Stage, State.ifRow, hr]
    exact if_neg fun own => ((l2Accepts_iff row s.f).mp own).elim mac all
  rw [processFrame, drops, Flow.thenOut_ended]

end Filtering

/-- The meaning of a class is that of its instruction. -/
theorem runClass_eq_exec {i : Instr} (port : i.port = .rx) (s : State) : runClass i s = exec i s := by
  cases i with
  | arpRequest h | arpReply h | arpRsvd op h | ipv4EchoReq h | ipv4 h | ethRsvd h => rfl
  | _ => cases port

/-- Settles O9: admission and filter pass the frame on, and it is decoded to its class. -/
theorem stepRunsTheReceivedFrame : Obligations.StepRunsTheReceivedFrame := by
  intro s fr rest row i hops run dsm hq hr header fits own decodes
  have iface := (List.getElem?_eq_some_iff.mp hr).1
  have entered : (s.received fr rest).enter .sEtype = { s with
      rxq := rest, f := fr, dsm := .sEtype, dsmTrace := s.dsmTrace ++ [.sL2, .sEtype] } := by
    simp [State.received, State.enter]
  have decodes' : decodeFrame ((s.received fr rest).enter .sEtype).f.buf = .ok i := decodes
  rw [step_of_no_ops hops, exec_frameStep_admitted run dsm hq iface header fits,
    processFrame_accepted (by exact hr) (by exact own), dispatchFrame, decodes', entered]
  exact runClass_eq_exec (decodeFrame_ok decodes).1 _

/-- Settles O12: the filter stands before the class decode, which finds the frame too short. -/
theorem filterComesBeforePathEntry : Obligations.FilterComesBeforePathEntry := by
  intro s fr rest row run dsm hq hr header fits
  have iface := (List.getElem?_eq_some_iff.mp hr).1
  rw [exec_frameStep_admitted run dsm hq iface header fits]
  refine ⟨fun mac all => ?_, fun own type short => ?_⟩
  · rw [processFrame_dropped (by exact hr) mac all]
    simp [State.received, State.enter, State.finish]
  · have runt : decodeFrame ((s.received fr rest).enter .sEtype).f.buf = .bad .runtFrame :=
      decodeFrame_runt short (.inr type)
    rw [processFrame_accepted (by exact hr) (by exact own), dispatchFrame, runt]
    simp [State.received, State.enter, State.raise]

/-- The destination of a frame that begins with the bytes of an address (R82). -/
theorem ethDst_of_buf {x : Frame} {d : Mac} {rest : List Byte} (h : x.buf = beBytes 6 d.toNat ++ rest) :
    x.ethDst = d := by
  have dst : field x.buf 0 6 = d.toNat :=
    field_of_slice (by rw [h, List.drop_zero, List.take_left' (beBytes_length 6 _)]) d.isLt
  rw [Frame.ethDst, Frame.memRead, dst, BitVec.ofNat_toNat, BitVec.setWidth_eq]

/-- Settles O48: the operation answers the filter's question, and stops where it has no answer. -/
theorem filterAcceptsOwnAndBroadcast : Obligations.FilterAcceptsOwnAndBroadcast := by
  intro s d rest run
  rw [exec, execL2Filter, whenRunning_running s _ run, State.ifRow]
  refine ⟨fun row hr hbuf => ?_, fun absent => ?_, fun iface short => ?_⟩
  · have long : ¬ s.f.len < 6 := by
      rw [Frame.len, hbuf, List.length_append, beBytes_length]
      omega
    have answer : l2Accepts row s.f = decide (d = row.mac ∨ d = 0xFFFFFFFFFFFF) := by
      rw [Bool.eq_iff_iff, l2Accepts_iff, ethDst_of_buf hbuf, decide_eq_true_iff]
    rw [hr, ← answer]
    exact if_neg long
  · rw [List.getElem?_eq_none absent]
  · rw [List.getElem?_eq_getElem iface]
    exact if_pos short

/-! ### The IPv4 path (R229 to R237) -/

/-- Both IPv4 classes are the IPv4 path on the frame in `F` (R229). -/
theorem exec_ipv4Class {s : State} {h : Ipv4Frame} {i : Instr} (run : s.runState = .running)
    (hi : i = .ipv4 h ∨ i = .ipv4EchoReq h) : exec i s = (ipLocal (s.loadF (encodeIpv4 h))).out := by
  obtain rfl | rfl := hi
  · exact exec_ipv4 run h
  · exact whenRunning_running s _ run

/-- The state in which a class begins, with the bytes of its frame kept opaque. -/
theorem loadF_f_of_eq (s : State) {bytes : List Byte} {h : Ipv4Frame} (word : encodeIpv4 h = bytes) :
    (s.loadF bytes).f = ⟨encodeIpv4 h, s.f.iface⟩ := by
  rw [State.loadF_f, word]

/-- Settles O39: step 3a comes before every test of the packet. -/
theorem echoRequestIsAnswered : Obligations.EchoRequestIsAnswered := by
  intro s h row i hi run hr window own proto type y
  rw [exec_ipv4Class run hi]
  generalize word : encodeIpv4 h = bytes
  have loaded := loadF_f_of_eq s word
  have iface := (List.getElem?_eq_some_iff.mp hr).1
  rw [ipLocal_echo loaded hr own proto type]
  refine ⟨fun ok => ?_, fun bad => ?_⟩
  · rw [replyIcmp_sent 0 .echoReply (by exact loaded) (by exact iface) (by exact window)
      (by exact ok), Flow.out_ended]
    simp [State.enter, State.finish, State.loadF, y]
  · rw [replyIcmp_failed 0 .echoReply (by exact loaded) (by exact iface) (by exact window)
      (by exact bad), Flow.out_ended]
    simp [State.enter, State.loadF, y]

/-- Settles O40: step 3b comes before the checksum, and step 3c before all else. -/
theorem localAndCorruptPacketsAreDropped : Obligations.LocalAndCorruptPacketsAreDropped := by
  intro s h row i hi run hr other
  rw [exec_ipv4Class run hi]
  generalize word : encodeIpv4 h = bytes
  have loaded := loadF_f_of_eq s word
  refine ⟨fun own => ?_, fun far corrupt => ?_⟩
  · rw [ipLocal_drop loaded hr other own, Flow.out_ended]
    simp [State.enter, State.finish, State.loadF]
  · rw [ipLocal_pass loaded hr other far, ipCsumTest_drop (by exact loaded) corrupt, Flow.out_ended]
    simp [State.enter, State.finish, State.loadF]

/-- Settles O41: a valid packet in transit reaches the test of its TTL, and goes no further. -/
theorem expiredPacketGetsTimeExceeded : Obligations.ExpiredPacketGetsTimeExceeded := by
  intro s h row i hi run hr window other far valid dead y t passed
  rw [exec_ipv4Class run hi]
  generalize word : encodeIpv4 h = bytes
  have loaded := loadF_f_of_eq s word
  have iface := (List.getElem?_eq_some_iff.mp hr).1
  rw [ipLocal_toTtl loaded hr other far valid, ipTtl_expired (by exact loaded) dead]
  refine ⟨fun ok => ?_, fun bad => ?_⟩
  · rw [replyIcmp_sent 11 .timeExceeded (by exact loaded) (by exact iface) (by exact window)
      (by exact ok), Flow.out_ended]
    simp [State.enter, State.finish, State.loadF, t, y, passed]
  · rw [replyIcmp_failed 11 .timeExceeded (by exact loaded) (by exact iface) (by exact window)
      (by exact bad), Flow.out_ended]
    simp [State.enter, State.loadF, t, y, passed]

/-- Settles O42: a live packet in transit reaches the lookup, which finds nothing. -/
theorem unroutablePacketGetsUnreachable : Obligations.UnroutablePacketGetsUnreachable := by
  intro s h row i hi run hr window wf other far valid live noRoute y t passed
  rw [exec_ipv4Class run hi]
  generalize word : encodeIpv4 h = bytes
  have loaded := loadF_f_of_eq s word
  have iface := (List.getElem?_eq_some_iff.mp hr).1
  rw [ipLocal_toRoute loaded hr other far valid live, ipRoute_none (by exact wf) (by exact noRoute)]
  refine ⟨fun ok => ?_, fun bad => ?_⟩
  · rw [replyIcmp_sent 3 .noRoute (by exact loaded) (by exact iface) (by exact window)
      (by exact ok), Flow.out_ended]
    simp [State.enter, State.finish, State.loadF, t, y, passed]
  · rw [replyIcmp_failed 3 .noRoute (by exact loaded) (by exact iface) (by exact window)
      (by exact bad), Flow.out_ended]
    simp [State.enter, State.loadF, t, y, passed]

/-- Settles O43: the cache has the next hop of a routed packet, whose frame leaves rewritten. -/
theorem routedPacketIsForwarded : Obligations.RoutedPacketIsForwarded := by
  intro s h row out r mac i hi run hr fits wf other far valid live found hit leaves y t passed
  rw [exec_ipv4Class run hi]
  generalize word : encodeIpv4 h = bytes
  rw [ipLocal_toResolve (loadF_f_of_eq s word) hr other far valid live wf found,
    ipResolve_hit (by exact hit)]
  -- Left open to unification, the encoding would be unfolded at each side condition.
  generalize dec : (⟨encodeIpv4 (decFields h), s.f.iface⟩ : Frame) = fr
  refine ⟨fun ok => ?_,
    fun bad => ?_⟩
  · rw [ipForward_sent (by exact dec.symm) (by exact leaves) (by exact fits) (by exact ok),
      Flow.out_ended]
    simp [State.enter, State.finish, State.loadF, t, y, passed]
  · rw [ipForward_failed (by exact dec.symm) (by exact leaves) (by exact fits) (by exact bad),
      Flow.out_ended]
    simp [State.enter, State.loadF, t, y, passed]

/-- Settles O44: the cache lacks the next hop of a routed packet, whose frame waits as step 3f left it. -/
theorem unresolvedPacketIsQueued : Obligations.UnresolvedPacketIsQueued := by
  intro s h row out r i hi run hr window wf other far valid live found miss leaves q g t passed
  rw [exec_ipv4Class run hi]
  generalize word : encodeIpv4 h = bytes
  rw [ipLocal_toResolve (loadF_f_of_eq s word) hr other far valid live wf found,
    ipResolve_miss (by exact miss)]
  generalize dec : (⟨encodeIpv4 (decFields h), s.f.iface⟩ : Frame) = fr
  refine ⟨fun room ok => ?_,
    fun room bad => ?_, fun full => ?_⟩
  · rw [ipQueue_sent (by exact leaves) (by exact window) (by exact room) (by exact ok),
      Flow.out_ended]
    simp [State.enter, State.finish, State.loadF, t, q, g, passed, dec]
  · rw [ipQueue_failed (by exact leaves) (by exact window) (by exact room) (by exact bad),
      Flow.out_ended]
    simp [State.enter, State.loadF, t, q, g, passed, dec]
  · rw [ipQueue_full (by exact full), Flow.out_ended]
    simp [State.enter, State.raise, State.loadF, t, q, passed, dec]

/-! ### One action for each frame (R28, R238, R239) -/

/-- A part of a step in which the step ends as `E` says, or goes on as `G` says. -/
def Flow.Meets (E G : State → Prop) : Flow → Prop
  | .go u => G u
  | .ended t => E t
  | .fault _ | .refused _ => True

/-- A meaning whose next state, if there is one, is as `E` says. -/
def Out.Meets (E : State → Prop) : Out → Prop
  | .next t => E t
  | .fault _ | .refused _ => True

/-- What R239 counts: the cache, the queue, what was transmitted and the outcomes. All else is blanked. -/
def State.record (s : State) : State :=
  { State.reset with arpc := s.arpc, pq := s.pq, txTrace := s.txTrace, outcomes := s.outcomes }

/-- `t` is halted, with a cause and no outcome of its own (R288). -/
structure State.Halts (s t : State) : Prop where
  runState : t.runState = .halted
  dsm : t.dsm = .sHalt
  cause : t.faultCause ≠ .none
  outcomes : t.outcomes = s.outcomes

/-- `t` is back in `S_RX` with the outcome `o` and the frames `sent`, and has done to the tables what R239
gives that outcome. -/
structure State.Acts (s : State) (o : OutcomeCode) (sent : List Frame) (t : State) : Prop where
  dsm : t.dsm = .sRx
  outcomes : t.outcomes = s.outcomes ++ [o]
  trace : t.txTrace = s.txTrace ++ sent
  drop : o.isDrop = true → sent = []
  queued : o = .queued → sent = [t.g] ∧ t.pq = s.pq ++ [t.f]
  answer : o = .forwarded ∨ o = .echoReply ∨ o = .timeExceeded ∨ o = .noRoute ∨ o = .arpReplied →
    sent = [t.f]
  cache : o ≠ .arpLearned → t.arpc = s.arpc
  queue : o ≠ .arpLearned → o ≠ .queued → t.pq = s.pq
  learned : o = .arpLearned → t.pq.Sublist s.pq ∧ s.arpc.length ≤ t.arpc.length ∧
    t.arpc.length ≤ s.arpc.length + 1

/-- A frame's step that has ended in `t` (R238). -/
def State.EndsOnce (s t : State) : Prop := s.Halts t ∨ ∃ o sent, s.Acts o sent t

section Meeting

variable {s u t : State} {E E' G G' : State → Prop} {x : Flow}

theorem Flow.Meets.andThen {k : State → Flow} (hx : x.Meets E G) (hk : ∀ u, G u → (k u).Meets E G') :
    (x.andThen k).Meets E G' := by
  cases x with
  | go u => exact hk u hx
  | ended u => exact hx
  | fault r | refused r => trivial

theorem Flow.Meets.mono (hx : x.Meets E G) (he : ∀ t, E t → E' t) (hg : ∀ u, G u → G' u) :
    x.Meets E' G' := by
  cases x with
  | go u => exact hg u hx
  | ended u => exact he u hx
  | fault r | refused r => trivial

/-- A flow that always ends the step. -/
theorem Out.Meets.of_flow (hx : x.Meets E fun _ => False) : Out.Meets E x.out := by
  cases x with
  | go u => exact hx.elim
  | ended u => exact hx
  | fault r | refused r => trivial

theorem State.raise_halts {c : FaultCause} (hc : c ≠ .none) (h : u.outcomes = s.outcomes) :
    s.Halts (u.raise c) := ⟨rfl, rfl, hc, h⟩

theorem State.Halts.of_outcomes (h : u.Halts t) (same : u.outcomes = s.outcomes) : s.Halts t :=
  ⟨h.runState, h.dsm, h.cause, h.outcomes.trans same⟩

/-- A stage that has done nothing that counts leaves the step as it was. -/
theorem State.EndsOnce.of_record (h : u.EndsOnce t) (same : u.record = s.record) : s.EndsOnce t := by
  have arpc : u.arpc = s.arpc := (congrArg State.arpc same :)
  have pq : u.pq = s.pq := (congrArg State.pq same :)
  have trace : u.txTrace = s.txTrace := (congrArg State.txTrace same :)
  have outcomes : u.outcomes = s.outcomes := (congrArg State.outcomes same :)
  obtain halts | ⟨o, sent, a⟩ := h
  · exact .inl (halts.of_outcomes outcomes)
  · refine .inr ⟨o, sent, ?_⟩
    exact {
      dsm := a.dsm
      outcomes := outcomes ▸ a.outcomes
      trace := trace ▸ a.trace
      drop := a.drop
      queued := pq ▸ a.queued
      answer := a.answer
      cache := arpc ▸ a.cache
      queue := pq ▸ a.queue
      learned := pq ▸ arpc ▸ a.learned }

theorem Flow.Meets.of_record (hx : x.Meets u.EndsOnce G) (same : u.record = s.record) :
    x.Meets s.EndsOnce G := hx.mono (fun _ h => h.of_record same) fun _ => id

theorem Out.Meets.mono {o : Out} (ho : o.Meets E) (he : ∀ t, E t → E' t) : o.Meets E' := by
  cases o with
  | next t => exact he t ho
  | fault r | refused r => trivial

/-! #### A drop, an answer, a packet that is queued -/

theorem State.EndsOnce.drops {o : OutcomeCode} (drop : o.isDrop = true) (same : u.record = s.record) :
    s.EndsOnce (u.finish o) := by
  have learns : o ≠ .arpLearned := by rintro rfl; cases drop
  have queues : o ≠ .queued := by rintro rfl; cases drop
  refine State.EndsOnce.of_record (u := u) (.inr ⟨o, [], ?_⟩) same
  exact {
    dsm := rfl
    outcomes := rfl
    trace := (List.append_nil _).symm
    drop := fun _ => rfl
    queued := fun e => absurd e queues
    answer := by rintro (rfl | rfl | rfl | rfl | rfl) <;> cases drop
    cache := fun _ => rfl
    queue := fun _ _ => rfl
    learned := fun e => absurd e learns }

/-- An answer: the frame in `F` is sent and nothing else happens. -/
theorem sendF_meets {o : OutcomeCode} (answers : o.isDrop = false ∧ o ≠ .queued ∧ o ≠ .arpLearned) :
    ((txFrame s.f s).andThen fun u => .ended (u.finish o)).Meets s.EndsOnce G := by
  obtain ⟨drop, queues, learns⟩ := answers
  obtain ⟨e, -⟩ | ⟨e, -⟩ | e := txFrame_cases s s.f <;> rw [e]
  · refine .inr ⟨o, [s.f], ?_⟩
    exact {
      dsm := rfl
      outcomes := rfl
      trace := rfl
      drop := fun d => absurd (drop.symm.trans d) nofun
      queued := fun e => absurd e queues
      answer := fun _ => rfl
      cache := fun _ => rfl
      queue := fun _ _ => rfl
      learned := fun e => absurd e learns }
  · exact .inl ⟨rfl, rfl, nofun, rfl⟩
  · trivial

theorem ipQueue_meets (r : Route) : (ipQueue r s).Meets s.EndsOnce G := by
  unfold ipQueue
  obtain ⟨-, e⟩ | ⟨-, e⟩ := pqEnqOp_cases s s.f <;> rw [e]
  · rw [Flow.andThen_go, arpReqEmitOp]
    cases State.ifRow _ r.iface with
    | none => trivial
    | some row =>
      dsimp only
      generalize (⟨arpRequestFor s.cfg.arpreqTha row r.nextHop, r.iface⟩ : Frame) = g
      obtain ⟨e, -⟩ | ⟨e, -⟩ | e := txFrame_cases { s with pq := s.pq ++ [s.f], g := g } g <;> rw [e]
      · refine .inr ⟨.queued, [g], ?_⟩
        exact {
          dsm := rfl
          outcomes := rfl
          trace := rfl
          drop := nofun
          queued := fun _ => ⟨rfl, rfl⟩
          answer := nofun
          cache := fun _ => rfl
          queue := fun _ ne => absurd rfl ne
          learned := nofun }
      · exact .inl ⟨rfl, rfl, nofun, rfl⟩
      · trivial
  · exact .inl (State.raise_halts nofun rfl)

end Meeting

/-! #### The drain (R200, R201) -/

theorem DrainFrame.unlearned {s t : State} (h : DrainFrame s t) :
    t.arpc = s.arpc ∧ t.outcomes = s.outcomes := by
  rw [h.same]
  exact ⟨rfl, rfl⟩

/-- What the disposal of the entry in `P` does: it puts the entry back or does not. -/
structure State.Disposes (s t : State) : Prop where
  frame : DrainFrame s t
  sent : s.txTrace <+: t.txTrace
  queue : ∃ back, back.Sublist [s.p] ∧ t.pq = s.pq ++ back
  count : t.drainI = s.drainI

section Disposing

variable {s t : State} {x : Flow}

/-- A disposal may write its scratch registers first (R23). -/
theorem Flow.Meets.of_scratch {d : Ip} {r : Option Route} {m : Option Mac}
    (hx : x.Meets (State.Halts { s with curDst := d, curRoute := r, curMac := m })
      (State.Disposes { s with curDst := d, curRoute := r, curMac := m })) :
    x.Meets s.Halts s.Disposes :=
  hx.mono (fun _ h => h.of_outcomes rfl) fun _ h => ⟨.trans ⟨rfl⟩ h.frame, h.sent, h.queue, h.count⟩

/-- An entry that is sent is not put back. -/
theorem disposeSend_meets (l : DrainLabel) (y : Frame) :
    ((txFrame y { s with p := y }).andThen fun u => .go (u.labelled l)).Meets s.Halts s.Disposes := by
  obtain ⟨e, -⟩ | ⟨e, -⟩ | e := txFrame_cases { s with p := y } y <;> rw [e]
  · exact ⟨⟨rfl⟩, List.prefix_append _ [y], ⟨[], List.nil_sublist _, (List.append_nil _).symm⟩, rfl⟩
  · exact ⟨rfl, rfl, nofun, rfl⟩
  · trivial

theorem disposeUnreach_meets : (disposeUnreach s).Meets s.Halts s.Disposes := by
  unfold disposeUnreach
  obtain ⟨y, -, e⟩ | e := synthOp_cases s .P 0x03 <;> rw [e]
  · exact disposeSend_meets _ y
  · trivial

theorem disposeRelease_meets (r : Route) (mac : Mac) :
    (disposeRelease r mac s).Meets s.Halts s.Disposes := by
  unfold disposeRelease
  split
  · trivial
  · exact disposeSend_meets _ _

theorem disposeKeep_meets : (disposeKeep s).Meets s.Halts s.Disposes := by
  unfold disposeKeep
  obtain ⟨-, e⟩ | ⟨-, e⟩ := pqEnqOp_cases s s.p <;> rw [e]
  · exact ⟨⟨rfl⟩, List.prefix_rfl, ⟨[s.p], List.Sublist.refl _, rfl⟩, rfl⟩
  · exact State.raise_halts nofun rfl

theorem disposeRouted_meets (r : Route) : (disposeRouted r s).Meets s.Halts s.Disposes := by
  rw [disposeRouted_eq]
  split
  · split
    · exact (disposeRelease_meets _ _).of_scratch
    · exact disposeKeep_meets.of_scratch
  · exact disposeKeep_meets.of_scratch

theorem disposeOp_meets : (disposeOp s).Meets s.Halts s.Disposes := by
  unfold disposeOp
  split
  · trivial
  obtain e | e := lookupOp_cases { s with curDst := s.p.ipDst } s.p.ipDst <;> rw [e]
  · rw [Flow.andThen_go]
    split
    · exact disposeUnreach_meets.of_scratch
    · exact (disposeRouted_meets _).of_scratch
  · trivial

end Disposing

/-- What a round of a drain for each of `es` does, with `rest` behind them in the queue: what it puts back
is of these, in their order. -/
structure DrainLeaves (es rest : List Frame) (s t : State) : Prop where
  frame : DrainFrame s t
  sent : s.txTrace <+: t.txTrace
  queue : ∃ back, back.Sublist es ∧ t.pq = rest ++ back
  count : t.drainI = s.drainI + es.length

section Draining

variable {s t u : State} {q : Frame} {es rest : List Frame}

/-- Rounds compose, where what the first put back is behind what the others find. -/
theorem DrainLeaves.cons {back : List Frame} (frame : DrainFrame s t) (sent : s.txTrace <+: t.txTrace)
    (first : back.Sublist [q]) (count : t.drainI = s.drainI + 1) (h : DrainLeaves es (rest ++ back) t u) :
    DrainLeaves (q :: es) rest s u := by
  obtain ⟨more, later, queue⟩ := h.queue
  refine ⟨frame.trans h.frame, sent.trans h.sent, ⟨back ++ more, first.append later, ?_⟩, ?_⟩
  · rw [queue, List.append_assoc]
  · rw [h.count, count, List.length_cons]
    omega

theorem drainEntry_meets (hq : s.pq = q :: rest) :
    (drainEntry (s.enter .sDrainNext)).Meets s.Halts (DrainLeaves [q] rest s) := by
  rw [drainEntry_eq (s := s.enter .sDrainNext) hq]
  exact disposeOp_meets.mono (fun _ h => h.of_outcomes rfl) fun _ h =>
    ⟨.trans ⟨rfl⟩ h.frame, h.sent, h.queue, h.count⟩

theorem drainLoop_meets (hq : s.pq = es ++ rest) (count : s.drainI + es.length = s.drainN) :
    (drainLoop es.length s).Meets s.Halts fun u => DrainLeaves es rest s u ∧ u.dsm = .sRx := by
  induction es generalizing s rest with
  | nil =>
    exact ⟨⟨⟨rfl⟩, List.prefix_rfl, ⟨[], List.Sublist.refl _, by rw [List.append_nil]; exact hq⟩, rfl⟩, rfl⟩
  | cons q es ih =>
    rw [List.length_cons] at count
    rw [List.length_cons, drainLoop_succ (by omega)]
    refine (drainEntry_meets (rest := es ++ rest) hq).andThen fun u head => ?_
    obtain ⟨back, first, queue⟩ := head.queue
    obtain ⟨-, -, -, -, bound⟩ := head.frame.kept
    have next : u.drainI = s.drainI + 1 := head.count
    refine (ih (s := u) (rest := rest ++ back) ?_ ?_).mono
      (fun _ h => h.of_outcomes head.frame.unlearned.2)
      fun v h => ⟨.cons head.frame head.sent first next h.1, h.2⟩
    · rw [queue, List.append_assoc]
    · rw [next, bound]
      omega

/-- A drain takes entries out of the queue and leaves the cache alone (R200). -/
theorem drainOp_meets (key : Ip) : (drainOp key s).Meets s.Halts fun u =>
    u.dsm = .sRx ∧ u.arpc = s.arpc ∧ u.outcomes = s.outcomes ∧ s.txTrace <+: u.txTrace ∧
      u.pq.Sublist s.pq := by
  refine (drainLoop_meets (s := s.startDrain key) (es := s.pq) (rest := [])
    (List.append_nil _).symm (Nat.zero_add _)).mono (fun _ h => h.of_outcomes rfl) fun u h => ?_
  obtain ⟨leaves, dsm⟩ := h
  obtain ⟨arpc, outcomes⟩ := leaves.frame.unlearned
  obtain ⟨back, sub, queue⟩ := leaves.queue
  exact ⟨dsm, arpc, outcomes, leaves.sent, queue ▸ sub⟩

end Draining

/-! #### The classes and the frame step (R190 to R198, R220 to R237) -/

/-- An insert adds at most one entry (R182). -/
theorem length_learns (s : State) (a : Ip) (m : Mac) :
    s.arpc.length ≤ (s.learns a m).length ∧ (s.learns a m).length ≤ s.arpc.length + 1 := by
  unfold State.learns
  cases arpLookup s.arpc a with
  | none => simp
  | some _ =>
    cases s.cfg.arpDupPolicy with
    | keepFirst => simp
    | overwrite =>
      have same : (arpReplace s.arpc a m).length = s.arpc.length := by
        simpa using congrArg List.length (arpReplace_keys s.arpc a m)
      simp [same]

section Classes

variable {s : State} {G : State → Prop}

theorem arpReplyFlow_meets : (arpReplyFlow s).Meets s.EndsOnce G := by
  unfold arpReplyFlow
  obtain e | ⟨-, -, e⟩ := arpInsertOp_cases (s.enter .sArpLearn) s.f.arpSpa s.f.arpSha <;> rw [e]
  · rw [Flow.andThen_go]
    refine ((drainOp_meets _).mono (fun _ h => .inl (h.of_outcomes rfl)) fun _ => id).andThen ?_
    rintro u ⟨dsm, arpc, outcomes, ⟨sent, trace⟩, queue⟩
    have learned := length_learns s s.f.arpSpa s.f.arpSha
    refine .inr ⟨.arpLearned, sent, ?_⟩
    exact {
      dsm := dsm
      outcomes := congrArg (· ++ [_]) outcomes
      trace := trace.symm
      drop := nofun
      queued := nofun
      answer := nofun
      cache := fun ne => absurd rfl ne
      queue := fun ne => absurd rfl ne
      learned := fun _ => ⟨queue, by rw [arpc]; exact learned⟩ }
  · exact .inl (State.raise_halts nofun rfl)

theorem arpRequestFlow_meets : (arpRequestFlow s).Meets s.EndsOnce G := by
  unfold arpRequestFlow
  split
  · trivial
  split
  · exact (sendF_meets (by decide)).of_record rfl
  · exact State.EndsOnce.drops rfl rfl

theorem replyIcmp_meets (t : Byte) {o : OutcomeCode}
    (answers : o.isDrop = false ∧ o ≠ .queued ∧ o ≠ .arpLearned) :
    (replyIcmp t o s).Meets s.EndsOnce G := by
  unfold replyIcmp
  obtain ⟨y, -, e⟩ | e := synthOp_cases s .F t <;> rw [e]
  · exact (sendF_meets (s := { s with f := y }) answers).of_record rfl
  · trivial

theorem ipForward_meets (r : Route) (mac : Mac) : (ipForward r mac s).Meets s.EndsOnce G := by
  unfold ipForward
  split
  · trivial
  · exact (sendF_meets (by decide)).of_record rfl

theorem ipResolve_meets (r : Route) : (ipResolve r s).Meets s.EndsOnce G := by
  cases hit : arpLookup s.arpc r.nextHop with
  | some mac =>
    rw [ipResolve_hit hit]
    exact (ipForward_meets r mac).of_record rfl
  | none =>
    rw [ipResolve_miss hit]
    exact (ipQueue_meets r).of_record rfl

theorem ipRoute_meets : (ipRoute s).Meets s.EndsOnce G := by
  unfold ipRoute
  obtain e | e := lookupOp_cases (s.enter .sIpRoute) s.curDst <;> rw [e]
  · rw [Flow.andThen_go]
    split
    · exact (replyIcmp_meets _ (by decide)).of_record rfl
    · exact (ipResolve_meets _).of_record rfl
  · trivial

theorem ipTtl_meets : (ipTtl s).Meets s.EndsOnce G := by
  unfold ipTtl
  dsimp only
  split
  · exact (replyIcmp_meets _ (by decide)).of_record rfl
  · exact ipRoute_meets.of_record rfl

theorem ipCsumTest_meets : (ipCsumTest s).Meets s.EndsOnce G := by
  unfold ipCsumTest
  dsimp only
  split
  · exact ipTtl_meets.of_record rfl
  · exact State.EndsOnce.drops rfl rfl

theorem ipLocal_meets : (ipLocal s).Meets s.EndsOnce G := by
  unfold ipLocal
  dsimp only
  split
  · trivial
  split
  · exact (replyIcmp_meets _ (by decide)).of_record rfl
  split
  · exact State.EndsOnce.drops rfl rfl
  · exact ipCsumTest_meets.of_record rfl

theorem runClass_meets (i : Instr) (run : s.runState = .running) :
    Out.Meets s.EndsOnce (runClass i s) := by
  have ipv4 (bytes : List Byte) : Out.Meets s.EndsOnce (ipLocal (s.loadF bytes)).out :=
    .of_flow (.of_record ipLocal_meets rfl)
  cases i with
  | arpRequest h =>
    rw [runClass, execArpRequest, whenRunning_running s _ run]
    exact .of_flow (.of_record arpRequestFlow_meets rfl)
  | arpReply h =>
    rw [runClass, execArpReply, whenRunning_running s _ run]
    exact .of_flow (.of_record arpReplyFlow_meets rfl)
  | arpRsvd op h =>
    rw [runClass, execArpRsvd, whenRunning_running s _ run]
    exact State.EndsOnce.drops rfl rfl
  | ipv4EchoReq h =>
    rw [runClass, execIpv4EchoReq, whenRunning_running s _ run]
    exact ipv4 (encodeIpv4 h)
  | ipv4 h =>
    rw [runClass, execIpv4, whenRunning_running s _ run]
    exact ipv4 (encodeIpv4 h)
  | ethRsvd h =>
    rw [runClass, execEthRsvd, whenRunning_running s _ run]
    exact State.EndsOnce.drops rfl rfl
  | _ => trivial

theorem processFrame_meets (run : s.runState = .running) : Out.Meets s.EndsOnce (processFrame s) := by
  unfold processFrame
  obtain ⟨-, e⟩ | ⟨row, -, e | e⟩ := l2Stage_cases s <;> rw [e]
  · trivial
  · rw [Flow.thenOut_go, dispatchFrame]
    split
    · exact (runClass_meets (s := s.enter .sEtype) _ run).mono fun _ h => h.of_record rfl
    · exact .inl (State.raise_halts nofun rfl)
  · exact State.EndsOnce.drops rfl rfl

/-- A frame step waits, or ends once. -/
theorem execFrameStep_meets (run : s.runState = .running) : Out.Meets (fun t =>
    (s.dsm = .sRx ∧ s.rxq = [] ∧ t = s) ∨ s.EndsOnce t) (exec .frameStep s) := by
  rw [exec, execFrameStep, whenRunning_running s _ run]
  split
  next dsm =>
    obtain ⟨hq, e⟩ | ⟨rest, -, e⟩ | ⟨fr, rest, c, -, hc, e⟩ | ⟨fr, rest, -, -, -, -, e⟩ :=
      receiveOp_cases s <;> rw [e]
    · exact .inl ⟨dsm, hq, rfl⟩
    · exact .inr (.inl (State.raise_halts nofun rfl))
    · exact .inr (.inl (State.raise_halts hc rfl))
    · rw [Flow.thenOut_go]
      exact (processFrame_meets (by exact run)).mono fun _ h => .inr (h.of_record rfl)
  next =>
    obtain ⟨c, hc, e⟩ | ⟨-, -, -, e⟩ := admitOp_cases s <;> rw [e]
    · exact .inr (.inl (State.raise_halts hc rfl))
    · exact (processFrame_meets run).mono fun _ => .inr
  all_goals trivial

end Classes

/-- Settles O54: how a frame step ends, on the state and the configuration that every step keeps. -/
theorem everyFrameEndsInOneAction : Obligations.EveryFrameEndsInOneAction := by
  intro s t run h
  have meets := execFrameStep_meets run
  have acts := (execFrameStep_acts (s := s)).does
  rw [h] at meets
  rw [show execFrameStep s = .next t from h] at acts
  obtain waits | halts | ⟨o, sent, a⟩ := meets
  · exact .inl waits
  · exact .inr (.inl ⟨halts.runState, halts.dsm, halts.cause, halts.outcomes⟩)
  · obtain ⟨-, iftab, rt, -⟩ := State.Ends.config acts
    obtain keeps | ⟨u, c, -, -, rfl⟩ := acts
    · have runs : t.runState = s.runState := (congrArg State.runState keeps.fixed :)
      have cause : t.faultCause = s.faultCause := (congrArg State.faultCause keeps.fixed :)
      exact .inr (.inr ⟨o, sent, runs.trans run, a.dsm, cause, a.outcomes, a.trace, rt, iftab, a.drop,
        a.queued, a.answer, a.cache, a.queue, a.learned⟩)
    · cases a.dsm

end Sys2Proof.Machine

/-! ## Host interface (family 46_host_interface)

SUPPORT. The ports and the host's operations as equations on the states that their rules name. Then a
transmission that fails (R264), for every part of a step in any state whatever: as long as none was
tried nothing is sent, and the first that is tried halts the engine. -/

namespace Sys2Proof.Machine

/-! ### Receive (R261, R262) -/

/-- After an `RX` by itself the frame in `F` is admitted again (R221, log 12). -/
theorem exec_frameStep_sL2 {s : State} (run : s.runState = .running) (dsm : s.dsm = .sL2) :
    exec .frameStep s = (admitOp s).thenOut processFrame := by
  rw [exec, execFrameStep, whenRunning_running s _ run, dsm]

theorem exec_frameStep_midStep {s : State} (run : s.runState = .running) (rx : s.dsm ≠ .sRx)
    (l2 : s.dsm ≠ .sL2) : exec .frameStep s = .refused .midStepState := by
  rw [exec, execFrameStep, whenRunning_running s _ run]
  split
  next dsm => exact absurd dsm rx
  next dsm => exact absurd dsm l2
  all_goals rfl

/-- Settles O10: what the port offers decides how the receive ends, and admission passes the same frame
again. -/
theorem receiveLoadsOneFrame : Obligations.ReceiveLoadsOneFrame := by
  intro s run
  refine ⟨fun dsm => ⟨?_, ?_, ?_⟩, fun rx => (whenRunning_running s _ run).trans (if_neg rx),
    exec_frameStep_midStep run⟩
  · intro fr rest hq iface header fits t
    have passes : admitOp t = .go t := admitOp_admissible iface header fits
    have receives : receiveOp s = .go t := (receiveOp_frame hq).trans passes
    rw [exec_rx_sRx run dsm, exec_frameStep_sL2 (s := t) run rfl, exec_frameStep_sRx run dsm,
      receives, passes]
    exact ⟨rfl, rfl⟩
  · intro rest hq t
    have halts : receiveOp s = .ended t := by
      rw [receiveOp, rxOp, hq]
      rfl
    rw [exec_rx_sRx run dsm, exec_frameStep_sRx run dsm, halts]
    exact ⟨rfl, rfl⟩
  · exact fun hq =>
      ⟨exec_receive_waits run dsm (.inl rfl) hq, exec_receive_waits run dsm (.inr rfl) hq⟩

/-! ### Transmit and the interface table (R263 to R266) -/

theorem exec_tx {s : State} (run : s.runState = .running) (x : FrameReg) :
    exec (.tx x) s = (txFrame (s.frame x) s).out :=
  whenRunning_running s _ run

/-- A frame outside the requirement is refused (R263, log 16). -/
theorem txFrame_refused (s : State) {fr : Frame} (bad : ¬ s.txReady fr = true) :
    txFrame fr s = .refused .txPrecondition := if_neg bad

/-- Settles O45: the operation is the transmission that every caller of the port uses. -/
theorem transmitAppendsToTheTrace : Obligations.TransmitAppendsToTheTrace := by
  intro s x run fr ready
  rw [exec_tx run]
  refine ⟨fun ok succeeds => ?_, fun ok fails => ?_, fun bad => ?_⟩
  · rw [txFrame_sent s fr ((txReady_iff s fr).mpr ok) succeeds, Flow.out_go]
  · rw [txFrame_failed s fr ((txReady_iff s fr).mpr ok) fails, Flow.out_ended]
  · rw [txFrame_refused s (mt (txReady_iff s fr).mp bad), Flow.out_refused]

/-- Settles O47: the row is there or it is not. -/
theorem interfaceReadsArePure : Obligations.InterfaceReadsArePure := by
  intro s i run
  rw [exec, exec, execIfMac, execIfIp, whenRunning_running s _ run, whenRunning_running s _ run,
    State.ifRow]
  refine ⟨fun row hr => ?_, fun absent => ?_⟩
  · rw [hr]
    exact ⟨rfl, rfl⟩
  · rw [List.getElem?_eq_none absent]
    exact ⟨rfl, rfl⟩

/-! ### The host's operations (R267 to R270) -/

/-- Settles O49: the load asks just whether the entries are loadable. -/
theorem loadRoutesChecksTheTable : Obligations.LoadRoutesChecksTheTable := by
  intro s entries un good failed
  have loads : exec (.hostLoadRoutes (some entries)) s =
      if s.loadable entries then .next { s with rt := entries, loaded := true }
      else .next failed := if_pos un
  refine ⟨fun ok => ?_, fun bad => ?_, if_pos un⟩
  · exact loads.trans (if_pos ((loadable_iff s entries).mpr ok))
  · exact loads.trans (if_neg (mt (loadable_iff s entries).mp bad))

/-- Settles O50: the start asks for an unloaded engine and the record of a load. -/
theorem startNeedsALoadedTable : Obligations.StartNeedsALoadedTable := by
  intro s un
  refine ⟨fun loaded => if_pos ⟨un, loaded⟩, fun unloaded => if_neg fun ready => ?_⟩
  exact absurd (unloaded.symm.trans ready.2) nofun

/-- Settles O51: reset is a literal but for the configuration and what stands outside the engine. -/
theorem resetEmptiesTheTables : Obligations.ResetEmptiesTheTables := fun s =>
  ⟨s.hostReset, rfl, rfl, rfl, rfl, rfl, rfl, rfl, rfl, rfl, rfl, rfl, rfl, rfl, rfl, rfl⟩

/-! ### When the next transmission fails (R264) -/

/-- What R264 counts: what was transmitted, how the coming transmissions end, and the outcomes. All else
is blanked. -/
def State.sending (s : State) : State :=
  { State.reset with txTrace := s.txTrace, txFail := s.txFail, outcomes := s.outcomes }

theorem sending_loadF (s : State) (bytes : List Byte) : (s.loadF bytes).sending = s.sending := rfl

theorem sending_enter (s : State) (d : Dsm) : (s.enter d).sending = s.sending := rfl

/-- `t` is halted by the next transmission of `s`, which has used up its result and added nothing. -/
structure State.TxHalts (s t : State) : Prop where
  trace : t.txTrace = s.txTrace
  results : t.txFail = s.txFail.tail
  runState : t.runState = .halted
  cause : t.faultCause = .txIo
  dsm : t.dsm = .sHalt
  outcomes : t.outcomes = s.outcomes

/-- Nothing was transmitted: none was tried, or the one that was tried has halted the engine. -/
def State.SendsNothing (s t : State) : Prop :=
  (t.txTrace = s.txTrace ∧ t.txFail = s.txFail) ∨ s.TxHalts t

/-- A part of a step that, when the next transmission fails, transmits nothing, and goes on only if it
has not tried to. -/
def Flow.SendsNothing (s : State) (x : Flow) : Prop :=
  s.txFails = true → x.Meets s.SendsNothing fun u => u.sending = s.sending

/-- The same of a meaning. -/
def Out.SendsNothing (s : State) (o : Out) : Prop := s.txFails = true → Out.Meets s.SendsNothing o

section SendingNothing

variable {s t u : State} {x : Flow} {o : Out}

theorem State.SendsNothing.of_sending (h : u.SendsNothing t) (same : u.sending = s.sending) :
    s.SendsNothing t := by
  have trace : u.txTrace = s.txTrace := (congrArg State.txTrace same :)
  have results : u.txFail = s.txFail := (congrArg State.txFail same :)
  have outcomes : u.outcomes = s.outcomes := (congrArg State.outcomes same :)
  obtain ⟨htrace, hresults⟩ | halts := h
  · exact .inl ⟨htrace.trans trace, hresults.trans results⟩
  · exact .inr ⟨halts.trace.trans trace, results ▸ halts.results, halts.runState, halts.cause,
      halts.dsm, halts.outcomes.trans outcomes⟩

theorem txFails_of_sending (same : u.sending = s.sending) (bad : s.txFails = true) :
    u.txFails = true := (congrArg State.txFails same).trans bad

theorem Flow.SendsNothing.after (hx : x.SendsNothing u) (same : u.sending = s.sending) :
    x.SendsNothing s := fun bad =>
  (hx (txFails_of_sending same bad)).mono (fun _ h => h.of_sending same) fun _ h => h.trans same

theorem Out.SendsNothing.after (ho : Out.SendsNothing u o) (same : u.sending = s.sending) :
    Out.SendsNothing s o := fun bad =>
  (ho (txFails_of_sending same bad)).mono fun _ h => h.of_sending same

theorem Flow.SendsNothing.andThen {k : State → Flow} (hx : x.SendsNothing s)
    (hk : ∀ u, (k u).SendsNothing u) : (x.andThen k).SendsNothing s := fun bad =>
  (hx bad).andThen fun u same => (hk u).after same bad

theorem Flow.SendsNothing.thenOut {k : State → Out} (hx : x.SendsNothing s)
    (hk : ∀ u, Out.SendsNothing u (k u)) : Out.SendsNothing s (x.thenOut k) := by
  intro bad
  have meets := hx bad
  cases x with
  | go u => exact (hk u).after meets bad
  | ended t => exact meets
  | fault r | refused r => trivial

theorem go_sendsNothing (same : t.sending = s.sending) : (Flow.go t).SendsNothing s := fun _ => same

theorem ended_sendsNothing (trace : t.txTrace = s.txTrace) (results : t.txFail = s.txFail) :
    (Flow.ended t).SendsNothing s := fun _ => .inl ⟨trace, results⟩

/-- A meaning that leaves the transmit port alone. -/
theorem next_sendsNothing (trace : t.txTrace = s.txTrace) (results : t.txFail = s.txFail) :
    Out.SendsNothing s (.next t) := fun _ => .inl ⟨trace, results⟩

theorem finish_sendsNothing (s : State) (o : OutcomeCode) : Out.SendsNothing s (.next (s.finish o)) :=
  next_sendsNothing rfl rfl

theorem Flow.SendsNothing.out (hx : x.SendsNothing s) : Out.SendsNothing s x.out :=
  hx.thenOut fun _ => next_sendsNothing rfl rfl

theorem Out.SendsNothing.whenRunning (ho : Out.SendsNothing s o) :
    Out.SendsNothing s (whenRunning s o) := by
  by_cases run : s.runState = .running
  · rwa [whenRunning_running s o run]
  · rw [whenRunning_not_running s o run]
    exact next_sendsNothing rfl rfl

end SendingNothing

section Sending

variable {s : State}

/-! #### The port and the units -/

/-- The transmission itself: the one place where R264 is decided. -/
theorem txFrame_sendsNothing (fr : Frame) : (txFrame fr s).SendsNothing s := by
  intro bad
  obtain ⟨-, ok⟩ | ⟨e, -⟩ | e := txFrame_cases s fr
  · exact absurd (ok.symm.trans bad) nofun
  · rw [e]
    exact .inr ⟨rfl, rfl, rfl, rfl, rfl, rfl⟩
  · rw [e]
    trivial

theorem lookupOp_sendsNothing (d : Ip) : (lookupOp d s).SendsNothing s := by
  obtain e | e := lookupOp_cases s d <;> rw [e]
  · exact go_sendsNothing rfl
  · exact fun _ => trivial

theorem synthOp_sendsNothing (x : FrameReg) (t : Byte) : (synthOp x t s).SendsNothing s := by
  obtain ⟨y, -, e⟩ | e := synthOp_cases s x t <;> rw [e]
  · cases x <;> exact go_sendsNothing rfl
  · exact fun _ => trivial

theorem arpInsertOp_sendsNothing (a : Ip) (m : Mac) : (arpInsertOp a m s).SendsNothing s := by
  obtain e | ⟨-, -, e⟩ := arpInsertOp_cases s a m <;> rw [e]
  · exact go_sendsNothing rfl
  · exact ended_sendsNothing rfl rfl

theorem pqEnqOp_sendsNothing (fr : Frame) : (pqEnqOp fr s).SendsNothing s := by
  obtain ⟨-, e⟩ | ⟨-, e⟩ := pqEnqOp_cases s fr <;> rw [e]
  · exact go_sendsNothing rfl
  · exact ended_sendsNothing rfl rfl

theorem pqDeqOp_sendsNothing : (pqDeqOp s).SendsNothing s := by
  obtain ⟨-, e⟩ | ⟨q, rest, -, e⟩ := pqDeqOp_cases s <;> rw [e]
  · exact fun _ => trivial
  · exact go_sendsNothing rfl

theorem admitOp_sendsNothing : (admitOp s).SendsNothing s := by
  obtain ⟨c, -, e⟩ | ⟨-, -, -, e⟩ := admitOp_cases s <;> rw [e]
  · exact ended_sendsNothing rfl rfl
  · exact go_sendsNothing rfl

theorem receiveOp_sendsNothing : (receiveOp s).SendsNothing s := by
  refine Flow.SendsNothing.andThen ?_ fun _ => admitOp_sendsNothing
  obtain ⟨-, e⟩ | ⟨rest, -, e⟩ | ⟨fr, rest, -, e⟩ := rxOp_cases s <;> rw [e]
  · exact ended_sendsNothing rfl rfl
  · exact ended_sendsNothing rfl rfl
  · exact go_sendsNothing rfl

theorem l2Stage_sendsNothing : (l2Stage s).SendsNothing s := by
  obtain ⟨-, e⟩ | ⟨row, -, e | e⟩ := l2Stage_cases s <;> rw [e]
  · exact fun _ => trivial
  · exact go_sendsNothing rfl
  · exact ended_sendsNothing rfl rfl

/-- A frame is sent and the step ends with its outcome: not when the transmission fails. -/
theorem sendEnd_sendsNothing (fr : Frame) (o : OutcomeCode) :
    ((txFrame fr s).andThen fun u => .ended (u.finish o)).SendsNothing s :=
  (txFrame_sendsNothing fr).andThen fun _ => ended_sendsNothing rfl rfl

theorem arpReqEmitOp_sendsNothing (nh : Ip) (i : Nat) : (arpReqEmitOp nh i s).SendsNothing s := by
  unfold arpReqEmitOp
  split
  · exact fun _ => trivial
  · exact (txFrame_sendsNothing _).after rfl

/-! #### ARP (R190 to R201) -/

theorem arpRequestFlow_sendsNothing : (arpRequestFlow s).SendsNothing s := by
  unfold arpRequestFlow
  split
  · exact fun _ => trivial
  split
  · exact (sendEnd_sendsNothing _ _).after rfl
  · exact ended_sendsNothing rfl rfl

theorem disposeUnreach_sendsNothing : (disposeUnreach s).SendsNothing s :=
  (synthOp_sendsNothing _ _).andThen fun _ => (txFrame_sendsNothing _).andThen fun _ =>
    go_sendsNothing rfl

theorem disposeRelease_sendsNothing (r : Route) (mac : Mac) :
    (disposeRelease r mac s).SendsNothing s := by
  unfold disposeRelease
  split
  · exact fun _ => trivial
  · exact .after (.andThen (txFrame_sendsNothing _) fun _ => go_sendsNothing rfl) rfl

theorem disposeKeep_sendsNothing : (disposeKeep s).SendsNothing s :=
  (pqEnqOp_sendsNothing _).andThen fun _ => go_sendsNothing rfl

theorem disposeRouted_sendsNothing (r : Route) : (disposeRouted r s).SendsNothing s := by
  rw [disposeRouted_eq]
  split
  · split
    · exact (disposeRelease_sendsNothing _ _).after rfl
    · exact disposeKeep_sendsNothing.after rfl
  · exact disposeKeep_sendsNothing.after rfl

theorem disposeOp_sendsNothing : (disposeOp s).SendsNothing s := by
  unfold disposeOp
  split
  · exact fun _ => trivial
  refine .after (.andThen (lookupOp_sendsNothing _) fun u => ?_) rfl
  split
  · exact disposeUnreach_sendsNothing
  · exact disposeRouted_sendsNothing _

theorem drainEntry_sendsNothing : (drainEntry s).SendsNothing s :=
  .after (.andThen pqDeqOp_sendsNothing fun _ => disposeOp_sendsNothing.after rfl) rfl

theorem drainLoop_sendsNothing (n : Nat) : (drainLoop n s).SendsNothing s := by
  induction n generalizing s with
  | zero => exact go_sendsNothing rfl
  | succ n ih =>
    rw [drainLoop]
    split
    · exact .after (.andThen drainEntry_sendsNothing fun _ => ih) rfl
    · exact go_sendsNothing rfl

theorem drainOp_sendsNothing (key : Ip) : (drainOp key s).SendsNothing s :=
  (drainLoop_sendsNothing _).after rfl

theorem arpReplyFlow_sendsNothing : (arpReplyFlow s).SendsNothing s :=
  .after (.andThen (arpInsertOp_sendsNothing _ _) fun _ => .andThen (drainOp_sendsNothing _) fun _ =>
    ended_sendsNothing rfl rfl) rfl

/-! #### The IPv4 path (R229 to R237) -/

theorem replyIcmp_sendsNothing (t : Byte) (o : OutcomeCode) : (replyIcmp t o s).SendsNothing s :=
  (synthOp_sendsNothing _ _).andThen fun _ => sendEnd_sendsNothing _ _

theorem ipForward_sendsNothing (r : Route) (mac : Mac) : (ipForward r mac s).SendsNothing s := by
  unfold ipForward
  split
  · exact fun _ => trivial
  · exact (sendEnd_sendsNothing _ _).after rfl

theorem ipQueue_sendsNothing (r : Route) : (ipQueue r s).SendsNothing s :=
  (pqEnqOp_sendsNothing _).andThen fun _ =>
    (arpReqEmitOp_sendsNothing _ _).andThen fun _ => ended_sendsNothing rfl rfl

theorem ipResolve_sendsNothing (r : Route) : (ipResolve r s).SendsNothing s := by
  cases hit : arpLookup s.arpc r.nextHop with
  | some mac =>
    rw [ipResolve_hit hit]
    exact (ipForward_sendsNothing r mac).after rfl
  | none =>
    rw [ipResolve_miss hit]
    exact (ipQueue_sendsNothing r).after rfl

theorem ipRoute_sendsNothing : (ipRoute s).SendsNothing s := by
  refine .after (.andThen (lookupOp_sendsNothing _) fun u => ?_) rfl
  split
  · exact replyIcmp_sendsNothing _ _
  · exact (ipResolve_sendsNothing _).after rfl

theorem ipTtl_sendsNothing : (ipTtl s).SendsNothing s := by
  unfold ipTtl
  dsimp only
  split
  · exact (replyIcmp_sendsNothing _ _).after rfl
  · exact ipRoute_sendsNothing.after rfl

theorem ipCsumTest_sendsNothing : (ipCsumTest s).SendsNothing s := by
  unfold ipCsumTest
  dsimp only
  split
  · exact ipTtl_sendsNothing.after rfl
  · exact ended_sendsNothing rfl rfl

theorem ipLocal_sendsNothing : (ipLocal s).SendsNothing s := by
  unfold ipLocal
  dsimp only
  split
  · exact fun _ => trivial
  split
  · exact (replyIcmp_sendsNothing _ _).after rfl
  split
  · exact ended_sendsNothing rfl rfl
  · exact ipCsumTest_sendsNothing.after rfl

/-! #### Every instruction -/

theorem runClass_sendsNothing (i : Instr) : Out.SendsNothing s (runClass i s) := by
  have ipv4 (h : Ipv4Frame) : Out.SendsNothing s (ipLocal (s.loadF (encodeIpv4 h))).out :=
    Flow.SendsNothing.out (.after ipLocal_sendsNothing (sending_loadF s _))
  have arpOp (bytes : List Byte) : ((s.loadF bytes).enter .sArpOp).sending = s.sending :=
    (sending_enter _ _).trans (sending_loadF s bytes)
  cases i with
  | arpRequest h =>
    exact .whenRunning (Flow.SendsNothing.out (.after arpRequestFlow_sendsNothing (arpOp _)))
  | arpReply h =>
    exact .whenRunning (Flow.SendsNothing.out (.after arpReplyFlow_sendsNothing (arpOp _)))
  | arpRsvd op h => exact .whenRunning (.after (finish_sendsNothing _ _) (arpOp _))
  | ipv4EchoReq h | ipv4 h => exact (ipv4 h).whenRunning
  | ethRsvd h => exact .whenRunning (.after (finish_sendsNothing _ _) (sending_loadF s _))
  | _ => exact fun _ => trivial

theorem processFrame_sendsNothing : Out.SendsNothing s (processFrame s) := by
  refine l2Stage_sendsNothing.thenOut fun u => ?_
  unfold dispatchFrame
  split
  · exact runClass_sendsNothing _
  · exact next_sendsNothing rfl rfl

theorem execFrameStep_sendsNothing : Out.SendsNothing s (execFrameStep s) := by
  refine Out.SendsNothing.whenRunning ?_
  split
  · exact receiveOp_sendsNothing.thenOut fun _ => processFrame_sendsNothing
  · exact admitOp_sendsNothing.thenOut fun _ => processFrame_sendsNothing
  all_goals exact fun _ => trivial

/-- The operations of the host and `LPM.BUILD` leave the transmit port alone. -/
theorem exec_host_sendsNothing (i : Instr) (host : isUnit i = false) :
    Out.SendsNothing s (exec i s) := by
  cases i with
  | lpmBuild es =>
    rw [exec, execLpmBuild]
    split
    · split
      · exact next_sendsNothing rfl rfl
      · exact fun _ => trivial
    · exact next_sendsNothing rfl rfl
  | hostLoadRoutes es =>
    rw [exec, execHostLoadRoutes.eq_def]
    split
    · split
      · exact next_sendsNothing rfl rfl
      · split
        · exact next_sendsNothing rfl rfl
        · exact next_sendsNothing rfl rfl
    · exact fun _ => trivial
  | hostStart =>
    rw [exec, execHostStart]
    split
    · exact next_sendsNothing rfl rfl
    · exact fun _ => trivial
  | hostReset => exact next_sendsNothing rfl rfl
  | _ => cases host

theorem exec_sendsNothing (i : Instr) : Out.SendsNothing s (exec i s) := by
  have ret (v : UnitResult) : Out.SendsNothing s (.next { s with ret := v }) :=
    next_sendsNothing rfl rfl
  cases i with
  | arpRequest h => exact runClass_sendsNothing (.arpRequest h)
  | arpReply h => exact runClass_sendsNothing (.arpReply h)
  | arpRsvd op h => exact runClass_sendsNothing (.arpRsvd op h)
  | ipv4EchoReq h => exact runClass_sendsNothing (.ipv4EchoReq h)
  | ipv4 h => exact runClass_sendsNothing (.ipv4 h)
  | ethRsvd h => exact runClass_sendsNothing (.ethRsvd h)
  | icmpEchoReply | icmpDestUnreach x | icmpTimeExceeded | icmpSynth x t =>
    exact (synthOp_sendsNothing _ _).out.whenRunning
  | lpmLookup a =>
    exact .whenRunning (Flow.SendsNothing.out
      (.andThen (lookupOp_sendsNothing a) fun _ => go_sendsNothing rfl))
  | csum bs | csumVerify bs =>
    refine Out.SendsNothing.whenRunning ?_
    split
    · exact ret _
    · exact fun _ => trivial
  | csumIncr | arpcLookup | pqSize => exact (ret _).whenRunning
  | arpcInsert a m => exact (arpInsertOp_sendsNothing a m).out.whenRunning
  | pqEnq x => exact (pqEnqOp_sendsNothing _).out.whenRunning
  | pqDeq =>
    exact .whenRunning (Flow.SendsNothing.out
      (.andThen pqDeqOp_sendsNothing fun _ => go_sendsNothing rfl))
  | pqDrain a => exact (drainOp_sendsNothing a).out.whenRunning
  | arpReqEmit nh i => exact (arpReqEmitOp_sendsNothing nh i).out.whenRunning
  | l2Filter =>
    refine Out.SendsNothing.whenRunning ?_
    split
    · exact fun _ => trivial
    · split
      · exact fun _ => trivial
      · exact ret _
  | frameStep => exact execFrameStep_sendsNothing
  | rx =>
    refine Out.SendsNothing.whenRunning ?_
    split
    · exact receiveOp_sendsNothing.out
    · exact next_sendsNothing rfl rfl
  | tx x => exact (txFrame_sendsNothing _).out.whenRunning
  | ifMac i | ifIp i =>
    refine Out.SendsNothing.whenRunning ?_
    split
    · exact ret _
    · exact fun _ => trivial
  | lpmBuild es => exact exec_host_sendsNothing (.lpmBuild es) rfl
  | hostLoadRoutes es => exact exec_host_sendsNothing (.hostLoadRoutes es) rfl
  | hostStart => exact exec_host_sendsNothing .hostStart rfl
  | hostReset => exact exec_host_sendsNothing .hostReset rfl

end Sending

/-- Settles O46: every operation transmits through `txFrame`, and where that fails the step ends. -/
theorem failedTransmissionHalts : Obligations.FailedTransmissionHalts := by
  intro i s t rest results h
  have bad : s.txFails = true := by rw [State.txFails, results, List.headD_cons]
  have nothing := exec_sendsNothing (s := s) i bad
  rw [h] at nothing
  obtain ⟨trace, same⟩ | halts := nothing
  · exact ⟨trace, .inl same⟩
  · have used : t.txFail = rest := by rw [halts.results, results, List.tail_cons]
    exact ⟨halts.trace,
      .inr ⟨used, halts.runState, halts.cause, halts.dsm, halts.outcomes⟩⟩

end Sys2Proof.Machine

/-! ## Exceptions (family 60_exceptions)

SUPPORT. What an operation answers outside the run state it acts in (R288, R295): the units are guarded
by `whenRunning`, `LPM.BUILD` and the host's load and start each by a test for `UNLOADED`. -/

namespace Sys2Proof.Machine

section Stopped

variable {s : State}

/-- The guard of R295 stands outermost in the meaning of every unit, so none can even fault here. -/
theorem exec_unit_not_running (i : Instr) (unit : isUnit i = true) (stopped : s.runState ≠ .running) :
    exec i s = .next s := by
  cases i with
  | lpmBuild es | hostLoadRoutes es | hostStart | hostReset => cases unit
  | _ => exact whenRunning_not_running s _ stopped

theorem isUnit_of_ne {i : Instr} (build : ∀ es, i ≠ .lpmBuild es) (load : ∀ es, i ≠ .hostLoadRoutes es)
    (start : i ≠ .hostStart) (reset : i ≠ .hostReset) : isUnit i = true := by
  cases i with
  | lpmBuild es => exact absurd rfl (build es)
  | hostLoadRoutes es => exact absurd rfl (load es)
  | hostStart => exact absurd rfl start
  | hostReset => exact absurd rfl reset
  | _ => rfl

theorem exec_lpmBuild_not_unloaded (es : List Route) (left : s.runState ≠ .unloaded) :
    exec (.lpmBuild es) s = .next s := if_neg left

theorem exec_hostLoadRoutes_not_unloaded (es : Option (List Route)) (left : s.runState ≠ .unloaded) :
    exec (.hostLoadRoutes es) s = .refused .hostOpNotAllowed := if_neg left

theorem exec_hostStart_not_unloaded (left : s.runState ≠ .unloaded) :
    exec .hostStart s = .refused .hostOpNotAllowed := if_neg fun ready => left ready.1

end Stopped

/-- Settles O13: the guard of each operation, read where it fails. -/
theorem stoppedEngineChangesNothing : Obligations.StoppedEngineChangesNothing := by
  intro i s
  constructor
  · intro stopped build load start reset
    exact exec_unit_not_running i (isUnit_of_ne build load start reset) stopped
  · intro left
    exact ⟨fun es => exec_lpmBuild_not_unloaded es left,
      fun es => exec_hostLoadRoutes_not_unloaded es left, exec_hostStart_not_unloaded left⟩

end Sys2Proof.Machine

/-! ## Reset and hazards (family 70_reset_and_hazards)

SUPPORT. Start-up is three instructions, each with one way to go on. Under the launch premises of R313
each class of frame takes one of the ways that its own family describes, none of which halts the engine,
stops receiving or makes a coming transmission fail. -/

namespace Sys2Proof.Machine

/-! ### Reset and start-up (R42, R267 to R270, R311) -/

theorem hostReset_tablesOk (s : State) : s.hostReset.tablesOk = true := by
  simp [tablesOk_iff, State.hostReset, State.reset, tableWf]

section StartUp

variable {s t : State}

/-- A load that leaves the engine unloaded has not failed (R268). -/
theorem exec_hostLoadRoutes_loads {entries : List Route}
    (h : exec (.hostLoadRoutes (some entries)) s = .next t) (un : t.runState = .unloaded) :
    t = { s with rt := entries, loaded := true } := by
  rw [exec, execHostLoadRoutes] at h
  split at h
  · split at h
    · cases h; rfl
    · cases h; cases un
  · cases h

/-- A start that is not refused was of an unloaded engine (R269). -/
theorem exec_hostStart_starts (h : exec .hostStart s = .next t) :
    s.runState = .unloaded ∧ t = { s with runState := .running, dsm := .sRx } := by
  rw [exec, execHostStart] at h
  split at h
  next ready => cases h; exact ⟨ready.1, rfl⟩
  next => cases h

end StartUp

/-- Settles O59: reset empties the tables, and what the load and the start keep of the invariants is
what every instruction keeps. -/
theorem startUpMeetsTheInvariants : Obligations.StartUpMeetsTheInvariants := by
  refine ⟨rfl, rfl, rfl, rfl, fun s a b c entries ops window ha hb hc => ?_⟩
  obtain rfl : s.hostReset = a := Host.Outcome.next.inj ha
  obtain ⟨un, started⟩ := exec_hostStart_starts hc
  have loaded := exec_hostLoadRoutes_loads hb un
  have tables := (exec_effect hc).tables ((exec_effect hb).tables (hostReset_tablesOk s))
  have status := (exec_effect hc).status ((exec_effect hb).status rfl)
  subst started loaded
  exact ⟨engineOk_iff.mpr ⟨window, ops, tables, status, fun _ => ⟨rfl, rfl⟩⟩, rfl, rfl⟩

/-! ### The launch premises for one frame (R313) -/

/-- Admission passes the frame, and no class finds it short (R221, R225, R226). -/
theorem frameOk_iff (s : State) (fr : Frame) : s.frameOk fr = true ↔
    fr.iface < s.iftab.length ∧ 14 ≤ fr.buf.length ∧ fr.buf.length ≤ s.cfg.maxFrame ∧
      (fr.ethType = etherArp ∨ fr.ethType = etherIpv4 → 42 ≤ fr.buf.length) := by
  simp only [State.frameOk, Bool.and_eq_true, decide_eq_true_eq, and_assoc, Bool.or_eq_true,
    Bool.not_eq_true', beq_iff_eq, ← Bool.not_eq_true, ← imp_iff_not_or]
  rfl

theorem decodeFrame_of_frameOk {s : State} {fr : Frame} (ok : s.frameOk fr = true) :
    ∃ i, decodeFrame fr.buf = .ok i := by
  obtain ⟨-, header, -, window⟩ := (frameOk_iff s fr).mp ok
  by_cases arp : fr.ethType = etherArp
  · exact ⟨_, decodeFrame_arp (window (.inl arp)) arp⟩
  by_cases ipv4 : fr.ethType = etherIpv4
  · exact ⟨_, decodeFrame_ipv4 (window (.inr ipv4)) ipv4⟩
  · exact ⟨_, decodeFrame_eth header arp ipv4⟩

theorem accepts_iff (s : State) (fr : Frame) : s.accepts fr = true ↔
    ∃ row, s.iftab[fr.iface]? = some row ∧ (fr.ethDst = row.mac ∨ fr.ethDst = 0xFFFFFFFFFFFF) := by
  simp only [State.accepts, State.ifRow, Option.any_eq_true, l2Accepts_iff]

section Room

variable {s : State} {fr : Frame} (room : s.hasRoomFor fr = true)
include room

theorem queueRoom_of_enqueues (h : s.enqueues fr = true) :
    below s.pq.length s.cfg.pqDepth = true := by
  rw [State.hasRoomFor, h, Bool.and_eq_true] at room
  exact room.1

theorem cacheRoom_of_insertsNewKey (h : s.insertsNewKey fr = true) :
    below s.arpc.length s.cfg.arpcDepth = true := by
  rw [State.hasRoomFor, h, Bool.and_eq_true] at room
  exact room.2

end Room

/-- A transit packet that misses the cache is one that is queued (R237). -/
theorem enqueues_of_miss {s : State} {h : Ipv4Frame} {row : IfRow} {i : Nat} {r : Route}
    (accepted : s.accepts ⟨encodeIpv4 h, i⟩ = true) (hr : s.iftab[i]? = some row)
    (far : ¬ s.ownAddress row h.ipDst) (valid : csumVerify (ipv4Header h) = true)
    (live : 2 ≤ h.ttl.toNat) (found : lpmLookup s.rt h.ipDst = some r)
    (miss : arpLookup s.arpc r.nextHop = none) : s.enqueues ⟨encodeIpv4 h, i⟩ = true := by
  have far' : s.isLocal i h.ipDst = false :=
    Bool.eq_false_iff.mpr (mt (isLocal_iff s i row hr h.ipDst).mp far)
  have live' : 2 ≤ h.ttl := BitVec.le_def.mpr live
  simp only [State.enqueues, accepted, ipv4_ethType, ipv4_ipDst, ipv4_ipHeader, ipv4_ipTtl, far',
    valid, live', found, miss, Option.any_some, decide_true]
  rfl

/-- A reply whose sender is not in the cache inserts it (R198). -/
theorem insertsNewKey_of_miss {s : State} {h : ArpFrame} {i : Nat}
    (accepted : s.accepts ⟨encodeArp 2 h, i⟩ = true) (miss : arpLookup s.arpc h.spa = none) :
    s.insertsNewKey ⟨encodeArp 2 h, i⟩ = true := by
  have type : Frame.ethType ⟨encodeArp 2 h, i⟩ = etherArp := etherType_encodeArp 2 h
  have op : Frame.arpOp ⟨encodeArp 2 h, i⟩ = 2 := arpOp_encodeArp 2 h
  simp only [State.insertsNewKey, accepted, type, op, arp_arpSpa, miss]
  rfl

theorem txNeverFails_of_suffix {s t : State} (h : s.txNeverFails = true)
    (left : t.txFail <:+ s.txFail) : t.txNeverFails = true :=
  List.all_eq_true.mpr fun b hb => List.all_eq_true.mp h b (left.subset hb)

/-! ### Each class runs on (R190 to R202, R224, R229 to R237) -/

/-- The state in which the class of the frame in `F` begins, under the launch premises. -/
structure State.Launched (s : State) : Prop extends State.Able s where
  run : s.runState = .running
  depth : atMost s.pq.length s.cfg.pqDepth = true
  results : s.txNeverFails = true
  fits : s.f.buf.length ≤ s.cfg.maxFrame
  accepted : s.accepts s.f = true
  room : s.hasRoomFor s.f = true

/-- `t` comes of `s` with the engine running, nothing more received and no result of a transmission but
those of `s` to come. -/
structure State.RunsOn (s t : State) : Prop where
  runState : t.runState = .running
  rxq : t.rxq = s.rxq
  results : t.txFail <:+ s.txFail

section Launched

variable {s : State}

theorem State.Launched.txSucceeds (p : s.Launched) : s.txFails = false := headD_of_all p.results

theorem State.Launched.row (p : s.Launched) : ∃ row, s.iftab[s.f.iface]? = some row := by
  obtain ⟨row, hr, -⟩ := (accepts_iff s s.f).mp p.accepted
  exact ⟨row, hr⟩

/-- A transit packet that misses the cache has room in the queue (R237, R313 P6). -/
theorem State.Launched.queueRoom {h : Ipv4Frame} {row : IfRow} {r : Route} (p : s.Launched)
    (word : encodeIpv4 h = s.f.buf) (hr : s.iftab[s.f.iface]? = some row)
    (far : ¬ s.ownAddress row h.ipDst) (valid : csumVerify (ipv4Header h) = true)
    (live : 2 ≤ h.ttl.toNat) (found : lpmLookup s.rt h.ipDst = some r)
    (miss : arpLookup s.arpc r.nextHop = none) : below s.pq.length s.cfg.pqDepth = true := by
  have loaded : s.f = ⟨encodeIpv4 h, s.f.iface⟩ := by rw [word]
  refine queueRoom_of_enqueues p.room ?_
  rw [loaded]
  exact enqueues_of_miss (loaded ▸ p.accepted) hr far valid live found miss

/-- A reply whose sender is not in the cache has room there (R198, R313 P6). -/
theorem State.Launched.cacheRoom {h : ArpFrame} (p : s.Launched) (word : encodeArp 2 h = s.f.buf)
    (miss : arpLookup s.arpc h.spa = none) : below s.arpc.length s.cfg.arpcDepth = true := by
  have loaded : s.f = ⟨encodeArp 2 h, s.f.iface⟩ := by rw [word]
  refine cacheRoom_of_insertsNewKey p.room ?_
  rw [loaded]
  exact insertsNewKey_of_miss (loaded ▸ p.accepted) miss

/-- The receiving interface's own address is local in either scope (R9). -/
theorem ownAddress_ip {row : IfRow} {i : Nat} (hr : s.iftab[i]? = some row) :
    s.ownAddress row row.ip := by
  cases scope : s.cfg.localScope with
  | rxOnly => exact .inl ⟨scope, rfl⟩
  | anyInterface => exact .inr ⟨scope, row, List.mem_of_getElem? hr, rfl⟩

theorem exec_arpRequest_runsOn {h : ArpFrame} (p : s.Launched) (word : encodeArp 1 h = s.f.buf) :
    ∃ t, exec (.arpRequest h) s = .next t ∧ s.RunsOn t := by
  obtain ⟨row, hr⟩ := p.row
  have fits : 42 + h.pad.length ≤ s.cfg.maxFrame := by
    rw [← encodeArp_length 1, word]
    exact p.fits
  obtain ⟨drop, answer, -⟩ := arpRequestIsAnsweredInPlace s h row p.run hr
  by_cases own : s.ownAddress row h.tpa
  · exact ⟨_, answer own fits p.txSucceeds, p.run, rfl, List.tail_suffix _⟩
  · exact ⟨_, drop own, p.run, rfl, List.suffix_rfl⟩

/-- A queue as R40 says is one that a drain can dispose of. -/
theorem exists_drainable {l : List Frame} (pending : l.all s.pendingOk = true) :
    ∃ es : List Pending, l = es.map pendingFrame ∧ s.drainable es = true := by
  induction l with
  | nil => exact ⟨[], rfl, rfl⟩
  | cons q l ih =>
    rw [List.all_cons, Bool.and_eq_true] at pending
    obtain ⟨ok, rest⟩ := pending
    have entry : s.entryOk q = true := by
      simp only [State.pendingOk, Bool.and_eq_true] at ok
      exact ok.1.1.1
    simp only [State.entryOk, Bool.and_eq_true, decide_eq_true_eq, beq_iff_eq] at entry
    obtain ⟨⟨⟨len, -⟩, -⟩, type⟩ := entry
    obtain ⟨e, rfl⟩ := exists_pendingFrame len type
    obtain ⟨fits, iface, -⟩ := (pendingOk_iff s e).mp ok
    obtain ⟨es, rfl, drainable⟩ := ih rest
    exact ⟨e :: es, rfl, drainable_cons.mpr ⟨fits, iface, drainable⟩⟩

/-- The cache has room for the sender, and the drain finds room for what it puts back. -/
theorem exec_arpReply_runsOn {h : ArpFrame} (p : s.Launched) (word : encodeArp 2 h = s.f.buf) :
    ∃ t, exec (.arpReply h) s = .next t ∧ s.RunsOn t := by
  have space : arpLookup s.arpc h.spa ≠ none ∨ below s.arpc.length s.cfg.arpcDepth = true := by
    by_cases miss : arpLookup s.arpc h.spa = none
    · exact .inr (p.cacheRoom word miss)
    · exact .inl miss
  obtain ⟨es, hq, drainable⟩ := exists_drainable p.pending
  obtain ⟨t, ht, v⟩ := drainOp_visits (s := s.taught h) (key := h.spa) hq p.wf drainable p.depth
    p.results
  have runState : t.runState = s.runState := (congrArg State.runState v.same :)
  have rxq : t.rxq = s.rxq := (congrArg State.rxq v.same :)
  have left : t.txFail <:+ s.txFail := by
    rw [v.results]
    exact List.drop_suffix _ _
  exact ⟨_, exec_arpReply_learns p.run space ht, runState.trans p.run, rxq, left⟩

/-- Of the ways of an IPv4 packet only the last asks for room in the queue. -/
theorem exec_ipv4Class_runsOn {h : Ipv4Frame} {i : Instr} (p : s.Launched)
    (hi : i = .ipv4 h ∨ i = .ipv4EchoReq h) (word : encodeIpv4 h = s.f.buf) :
    ∃ t, exec i s = .next t ∧ s.RunsOn t := by
  obtain ⟨row, hr⟩ := p.row
  have ok := p.txSucceeds
  have popped : s.txFail.tail <:+ s.txFail := List.tail_suffix _
  by_cases echo : h.ipDst = row.ip ∧ h.proto = 1 ∧ h.icmpType = 8
  · obtain ⟨own, proto, type⟩ := echo
    have answer := echoRequestIsAnswered s h row i hi p.run hr p.window own proto type
    exact ⟨_, answer.1 ok, p.run, rfl, popped⟩
  obtain ⟨dropLocal, dropCsum⟩ := localAndCorruptPacketsAreDropped s h row i hi p.run hr echo
  by_cases own : s.ownAddress row h.ipDst
  · exact ⟨_, dropLocal own, p.run, rfl, List.suffix_rfl⟩
  have other : h.ipDst ≠ row.ip := fun e => own (e ▸ ownAddress_ip hr)
  cases valid : csumVerify (ipv4Header h) with
  | false => exact ⟨_, dropCsum own valid, p.run, rfl, List.suffix_rfl⟩
  | true =>
    obtain live | dead := Nat.lt_or_ge 1 h.ttl.toNat
    · cases found : lpmLookup s.rt h.ipDst with
      | none =>
        have answer := unroutablePacketGetsUnreachable s h row i hi p.run hr p.window p.wf other own
          valid live found
        exact ⟨_, answer.1 ok, p.run, rfl, popped⟩
      | some r =>
        obtain ⟨out, leaves⟩ := lpmLookup_row s p.wf found
        cases hit : arpLookup s.arpc r.nextHop with
        | some mac =>
          have fits : 42 + h.tail.length ≤ s.cfg.maxFrame := by
            rw [← encodeIpv4_length, word]
            exact p.fits
          have forward := routedPacketIsForwarded s h row out r mac i hi p.run hr fits p.wf other own
            valid live found hit leaves
          exact ⟨_, forward.1 ok, p.run, rfl, popped⟩
        | none =>
          have space := p.queueRoom word hr own valid live found hit
          have queue := unresolvedPacketIsQueued s h row out r i hi p.run hr p.window p.wf other own
            valid live found hit leaves
          exact ⟨_, queue.1 space ok, p.run, rfl, popped⟩
    · have answer := expiredPacketGetsTimeExceeded s h row i hi p.run hr p.window other own valid dead
      exact ⟨_, answer.1 ok, p.run, rfl, popped⟩

theorem exec_class_runsOn {i : Instr} (p : s.Launched) (decodes : decodeFrame s.f.buf = .ok i) :
    ∃ t, exec i s = .next t ∧ s.RunsOn t := by
  obtain ⟨port, word⟩ := decodeFrame_ok decodes
  cases i with
  | arpRequest h => exact exec_arpRequest_runsOn p word
  | arpReply h => exact exec_arpReply_runsOn p word
  | arpRsvd op h =>
    exact ⟨_, (reservedFramesAreDropped s op h (readEth []) p.run).1, p.run, rfl, List.suffix_rfl⟩
  | ipv4EchoReq h => exact exec_ipv4Class_runsOn p (.inr rfl) word
  | ipv4 h => exact exec_ipv4Class_runsOn p (.inl rfl) word
  | ethRsvd h =>
    exact ⟨_, (reservedFramesAreDropped s 0 (readArp []) h p.run).2, p.run, rfl, List.suffix_rfl⟩
  | _ => cases port

/-- The filter drops the frame, or its class runs on. -/
theorem exec_frameStep_runsOn {fr : Frame} {rest : List RxItem} (ok : s.engineOk = true)
    (run : s.runState = .running) (hq : s.rxq = .frame fr :: rest) (frame : s.frameOk fr = true)
    (results : s.txNeverFails = true) (room : s.hasRoomFor fr = true) :
    ∃ t, exec .frameStep s = .next t ∧ State.RunsOn { s with rxq := rest } t := by
  obtain ⟨window, ops, tables, -, rests⟩ := engineOk_iff.mp ok
  obtain ⟨dsm, pending⟩ := rests run
  obtain ⟨wf, -, -, -, depth⟩ := (tablesOk_iff s).mp tables
  obtain ⟨iface, header, fits, -⟩ := (frameOk_iff s fr).mp frame
  have hr := List.getElem?_eq_getElem iface
  by_cases own : fr.ethDst = s.iftab[fr.iface].mac ∨ fr.ethDst = 0xFFFFFFFFFFFF
  · obtain ⟨i, decodes⟩ := decodeFrame_of_frameOk frame
    have runs := stepRunsTheReceivedFrame s fr rest _ i ops run dsm hq hr header fits own decodes
    have accepted : s.accepts fr = true := (accepts_iff s fr).mpr ⟨_, hr, own⟩
    obtain ⟨t, ht, on⟩ := exec_class_runsOn (s := { s with
      rxq := rest, f := fr, dsm := .sEtype, dsmTrace := s.dsmTrace ++ [.sL2, .sEtype] })
      ⟨⟨wf, window, pending⟩, run, depth, results, fits, accepted, room⟩ decodes
    refine ⟨t, ?_, on.runState, on.rxq, on.results⟩
    rw [← step_of_no_ops ops, runs, ht]
  · obtain ⟨mac, all⟩ := not_or.mp own
    have drops := (filterComesBeforePathEntry s fr rest _ run dsm hq hr header fits).1 mac all
    exact ⟨_, drops, run, rfl, List.suffix_rfl⟩

end Launched

/-- Settles O58: the step runs on, so that of the ways a frame step ends (R238) it takes the one with an
outcome; the engine by itself keeps its invariant. -/
theorem premisesRuleOutFaults : Obligations.PremisesRuleOutFaults := by
  intro s fr rest ok run hq frame results room
  obtain ⟨t, ht, on⟩ := exec_frameStep_runsOn ok run hq frame results room
  obtain ⟨-, ops, -, status, -⟩ := engineOk_iff.mp ok
  obtain ⟨u, hu, kept⟩ := engineNeverStopsAndKeepsItsInvariant s ok
  obtain rfl : t = u := by
    rw [step_of_no_ops ops, ht] at hu
    exact Host.Outcome.next.inj hu
  obtain ⟨healthy, -⟩ := (statusOk_running_iff run).mp status
  obtain ⟨-, empty, -⟩ | ⟨halted, -⟩ | ⟨o, sent, -, dsm, cause, outcomes, -⟩ :=
    everyFrameEndsInOneAction s t run ht
  · rw [hq] at empty
    cases empty
  · rw [on.runState] at halted
    cases halted
  · exact ⟨t, o, ht, on.runState, cause.trans healthy, dsm, on.rxq, outcomes, kept,
      txNeverFails_of_suffix results on.results⟩

end Sys2Proof.Machine
